-- ==== Sys2Proof/Word.lean ====
section
/-! DEFINITION. The word types of HFS (00_scope.md rules R10, R11, R13; 20_memory.md rule R70). -/

namespace Sys2Proof

/-- A 32-bit word: a register value, a command word, a bus datum (R11, R70). -/
abbrev Word := BitVec 32

/-- A byte: a PACK or OUT entry, and a symbol, "an 8-bit unsigned value, 0 to 255" (R10). -/
abbrev Byte := BitVec 8

/-- A device byte offset, `0 <= off < 0x400000` (R70). -/
abbrev Offset := BitVec 22

/-- A 64-bit IEEE 754 binary64 pattern (R13). -/
abbrev Binary64 := BitVec 64

end Sys2Proof
end

