-- ==== Sys2Proof/Config.lean ====
section
/-! DEFINITION. The implementation parameters of 00_scope.md rules R3-R8, their default values, and the
free values: what the spec leaves unspecified, as constants that have no body. -/

namespace Sys2Proof

/-- `WEIGHT_MODE`: the key the tree builder compares (R5). -/
inductive WeightMode where
  /-- the node's binary64 weight `w` (default) -/
  | binary64
  /-- the node's exact count `cnt` -/
  | count
  deriving DecidableEq, Repr

/-- `PLACEHOLDER_TRIGGER`: when ANALYZE injects the two placeholder symbols (R6). -/
inductive Trigger where
  /-- exactly one distinct symbol has a non-zero count (default) -/
  | distinctOne
  /-- the total count is exactly 1 -/
  | totalOne
  deriving DecidableEq, Repr

/-- The parameters of R3-R8. `PACK_DEPTH` and `OUT_DEPTH` are given by their logarithms `k`
(R7, R8: "`2^k` for an integer `k` with 0 <= k <= 18"). -/
structure Config where
  nsym : Nat
  cw : Nat
  weightMode : WeightMode
  trigger : Trigger
  packLog2 : Nat
  outLog2 : Nat
  deriving DecidableEq, Repr

/-- The default configuration (R3-R8). -/
def Config.default : Config where
  nsym := 128
  cw := 32
  weightMode := .binary64
  trigger := .distinctOne
  packLog2 := 16
  outLog2 := 16

/-- FREE VALUE (log entry 3): the 32-bit draw a host read returns while STATUS.BUSY = 1
(20_memory.md rule R86), by the number of the draw. -/
opaque Config.freeWord : Nat → Word

/-- FREE VALUE (log entries 1 and 2): an unspecified byte of PACK or OUT, by the number of the draw
(one for each reset and each failed DECODE) and the index of the byte
(70_reset_and_hazards.md rule R261, 45_unpack.md rule R216). -/
opaque Config.freeByte : Nat → Nat → Byte

/-- FREE VALUE (log entry 8): the platform's base address `HFS_BASE` (R70, left OPEN). -/
opaque Config.hfsBase : Nat

end Sys2Proof
end

