-- ==== Sys2Proof/Syntax.lean ====
section
/-! DEFINITION. The command set of 30_encoding.md rule R101 (one constructor a row), and the assembler
line of rule R106. -/

namespace Sys2Proof

/-- An HFS command (R101). The only operand is the 8-bit symbol of COUNT and ENC_SYM (R102). -/
inductive Instr where
  | nop
  | clear
  | ack
  | count (sym : Byte)
  | analyze
  | build
  | gencode
  | encStart
  | encSym (sym : Byte)
  | encFinish
  | decode
  deriving DecidableEq, Repr

/-- The eleven mnemonics of R101. -/
inductive Mnemonic where
  | nop | clear | ack | count | analyze | build | gencode | encStart | encSym | encFinish | decode
  deriving DecidableEq, Repr

/-- The mnemonic of a command. -/
def Instr.mnemonic : Instr → Mnemonic
  | .nop => .nop
  | .clear => .clear
  | .ack => .ack
  | .count _ => .count
  | .analyze => .analyze
  | .build => .build
  | .gencode => .gencode
  | .encStart => .encStart
  | .encSym _ => .encSym
  | .encFinish => .encFinish
  | .decode => .decode

/-- "COUNT and ENC_SYM require `sym`, and every other mnemonic takes none" (R106). -/
def Mnemonic.takesSymbol : Mnemonic → Bool
  | .count => true
  | .encSym => true
  | .nop => false
  | .clear => false
  | .ack => false
  | .analyze => false
  | .build => false
  | .gencode => false
  | .encStart => false
  | .encFinish => false
  | .decode => false

/-- The three ways to write `sym` (R106); each holds the number it denotes. -/
inductive AsmOperand where
  /-- a decimal number -/
  | dec (n : Nat)
  /-- a hexadecimal number `0xHH` -/
  | hex (n : Nat)
  /-- a character literal, meaning its ASCII code (R15) -/
  | chr (c : Char)
  deriving DecidableEq, Repr

/-- An assembler line `MNEMONIC` or `MNEMONIC sym` (R106), comments already removed. -/
structure AsmLine where
  mnemonic : Mnemonic
  operand : Option AsmOperand
  deriving DecidableEq, Repr

end Sys2Proof
end

