-- ==== Sys2Proof/WellFormed.lean ====
section
/-! DEFINITION. The checks on terms: the allowed parameter values (00_scope.md rules R3, R4, R7, R8) and
the assembler lines rule R106 admits. Every `Instr` is well formed by its type, since COUNT and ENC_SYM
"take any value 0 to 255 as an encoding" (30_encoding.md rule R102). -/

namespace Sys2Proof

/-- The allowed parameter values (R3, R4, R7, R8). -/
def Config.wf (c : Config) : Bool :=
  (c.nsym == 128 || c.nsym == 256) && decide (16 ≤ c.cw) && decide (c.cw ≤ 32) &&
    decide (c.packLog2 ≤ 18) && decide (c.outLog2 ≤ 18)

/-- The number an operand denotes: a decimal or hexadecimal number, or an ASCII code (R106, R15). -/
def AsmOperand.value : AsmOperand → Nat
  | .dec n => n
  | .hex n => n
  | .chr c => c.toNat

/-- A decimal number 0 to 255, two hexadecimal digits, or an ASCII character (R106). -/
def AsmOperand.wf : AsmOperand → Bool
  | .dec n => decide (n ≤ 255)
  | .hex n => decide (n ≤ 255)
  | .chr c => decide (c.toNat ≤ 127)

/-- The operand is there exactly when the mnemonic requires it, and is in range (R106). -/
def AsmLine.wf (l : AsmLine) : Bool :=
  match l.operand with
  | none => !l.mnemonic.takesSymbol
  | some o => l.mnemonic.takesSymbol && o.wf

end Sys2Proof
end

