-- ==== Sys2Proof/Decode.lean ====
section
/-! DEFINITION. The command decoder, total on all 2^32 words (30_encoding.md rules R100-R105, R108), then
the encoder, the opcode map of R101 as data, and the assembler (R106). -/

namespace Sys2Proof

/-- Field OP, bits [31:24] (R100). -/
def opField (w : Word) : BitVec 8 := w.extractLsb' 24 8

/-- Field RSV, bits [23:8], "reserved; must be 0" (R100). -/
def rsvField (w : Word) : BitVec 16 := w.extractLsb' 8 16

/-- Field SYM, bits [7:0] (R100). -/
def symField (w : Word) : Byte := w.extractLsb' 0 8

/-- A command with no operand: SYM must also be 0 (R103). -/
def plainCommand (sym : Byte) (i : Instr) : Option Instr :=
  if sym = 0 then some i else none

/-- The decoder of R108; `none` is an illegal command (R104). -/
def decodeWord (w : Word) : Option Instr :=
  let sym := symField w
  if rsvField w ≠ 0 then none
  else match (opField w).toNat with
    | 0x00 => plainCommand sym .nop
    | 0x01 => plainCommand sym .clear
    | 0x02 => plainCommand sym .ack
    | 0x10 => some (.count sym)
    | 0x11 => plainCommand sym .analyze
    | 0x20 => plainCommand sym .build
    | 0x30 => plainCommand sym .gencode
    | 0x40 => plainCommand sym .encStart
    | 0x41 => some (.encSym sym)
    | 0x42 => plainCommand sym .encFinish
    | 0x50 => plainCommand sym .decode
    | _ => none

/-- The instruction the decoder reads from a word numbered as spec/opcode_table.json numbers it: every
command is one 32-bit word (R100), and the bits at and above `nbits` are 0. -/
def decodeTableWord (nbits w : Nat) : Option Instr :=
  decodeWord (BitVec.ofNat 32 (w % 2 ^ nbits))

/-- The OP value of a mnemonic (R101). -/
def Mnemonic.op : Mnemonic → BitVec 8
  | .nop => 0x00
  | .clear => 0x01
  | .ack => 0x02
  | .count => 0x10
  | .analyze => 0x11
  | .build => 0x20
  | .gencode => 0x30
  | .encStart => 0x40
  | .encSym => 0x41
  | .encFinish => 0x42
  | .decode => 0x50

/-- The SYM field of a command: its operand, and 0 where it takes none (R100). -/
def Instr.symOperand : Instr → Byte
  | .count sym => sym
  | .encSym sym => sym
  | .nop => 0
  | .clear => 0
  | .ack => 0
  | .analyze => 0
  | .build => 0
  | .gencode => 0
  | .encStart => 0
  | .encFinish => 0
  | .decode => 0

/-- The command word `OP ++ RSV ++ SYM` with RSV = 0: "The assembled word is `(OP << 24) | sym`"
(R100, R106). -/
def encode (i : Instr) : Word := i.mnemonic.op ++ (0 : BitVec 16) ++ i.symOperand

/-- One row of the opcode map (R101). -/
structure OpcodeRow where
  mnemonic : Mnemonic
  pattern : Word
  mask : Word
  deriving DecidableEq, Repr

/-- The opcode map of R101: the `match` and `mask` columns as the table prints them. -/
def opcodeMap : List OpcodeRow :=
  [ ⟨.nop, 0x00000000, 0xFFFFFFFF⟩, ⟨.clear, 0x01000000, 0xFFFFFFFF⟩, ⟨.ack, 0x02000000, 0xFFFFFFFF⟩,
    ⟨.count, 0x10000000, 0xFFFFFF00⟩, ⟨.analyze, 0x11000000, 0xFFFFFFFF⟩,
    ⟨.build, 0x20000000, 0xFFFFFFFF⟩, ⟨.gencode, 0x30000000, 0xFFFFFFFF⟩,
    ⟨.encStart, 0x40000000, 0xFFFFFFFF⟩, ⟨.encSym, 0x41000000, 0xFFFFFF00⟩,
    ⟨.encFinish, 0x42000000, 0xFFFFFFFF⟩, ⟨.decode, 0x50000000, 0xFFFFFFFF⟩ ]

/-- "a word w selects the row when `(w and mask) = match`" (R101). -/
def OpcodeRow.selects (r : OpcodeRow) (w : Word) : Bool := w &&& r.mask == r.pattern

/-- The command a mnemonic and an operand value name. -/
def Mnemonic.command (m : Mnemonic) (sym : Byte) : Instr :=
  match m with
  | .nop => .nop
  | .clear => .clear
  | .ack => .ack
  | .count => .count sym
  | .analyze => .analyze
  | .build => .build
  | .gencode => .gencode
  | .encStart => .encStart
  | .encSym => .encSym sym
  | .encFinish => .encFinish
  | .decode => .decode

/-- The assembler of R106 on one line: the command it names, or none where the line is not well formed. -/
def AsmLine.assemble (l : AsmLine) : Option Instr :=
  if l.wf then some (l.mnemonic.command (BitVec.ofNat 8 (l.operand.elim 0 AsmOperand.value))) else none

end Sys2Proof
end

