-- ==== Sys2Proof/Machine/State.lean ====
section
/-! DEFINITION. The state of HFS (10_state.md rule R22, plain data), the host's inputs, the reasons a step
can stop, and the state after reset (70_reset_and_hazards.md rule R260). -/

namespace Sys2Proof.Machine

/-- STATUS.PHASE, the pipeline stage (R25, R27). -/
inductive Phase where
  /-- OPEN (0) -/
  | opened
  /-- SORTED (1) -/
  | sorted
  /-- BUILT (2) -/
  | built
  /-- CODED (3) -/
  | coded
  deriving DecidableEq, Repr

/-- STATUS.ENC, the encoder state (R25, R28). -/
inductive EncState where
  /-- IDLE (0) -/
  | idle
  /-- ACTIVE (1) -/
  | active
  deriving DecidableEq, Repr

/-- The errors of 60_exceptions.md rule R231. They are recorded in ERRCODE and the machine goes on. -/
inductive ErrCode where
  /-- NONE: no error recorded -/
  | noError
  | emptyInput
  | malformedBitstream
  | unknownSymbol
  /-- reserved, "never raised" (R232) -/
  | ioFailure
  | illegalCommand
  | sequence
  | symbolRange
  | countOverflow
  | degenerateTree
  | capacity
  | busyViolation
  | access
  deriving DecidableEq, Repr

/-- An SLIST entry `{sym 8, cnt CW, w 64}` (R46). -/
structure SortEntry where
  sym : Byte
  cnt : Word
  w : Binary64
  deriving DecidableEq, Repr

/-- A NODE entry (R48). -/
structure Node where
  leaf : Bool
  sym : Byte
  left : BitVec 9
  right : BitVec 9
  cnt : Word
  w : Binary64
  deriving DecidableEq, Repr

/-- A CODE entry `{valid 1, len 8, v MAXLEN}` (R47); `v` has the width of the largest MAXLEN, 255, and
its bits at and above MAXLEN are 0. -/
structure CodeEntry where
  valid : Bool
  len : BitVec 8
  v : BitVec 255
  deriving DecidableEq, Repr

/-- The entry with all fields 0. -/
def SortEntry.zero : SortEntry := ⟨0, 0, 0⟩

/-- The entry with all fields 0. -/
def Node.zero : Node := ⟨false, 0, 0, 0, 0, 0⟩

/-- The entry with all fields 0. -/
def CodeEntry.zero : CodeEntry := ⟨false, 0, 0⟩

/-- A memory: its entries by index, the indices strictly rising. FREQ, SLIST, NODE and CODE list exactly the
entries that are not all zero; PACK and OUT (lists of `Host.Cell`) list exactly the bytes written
since their contents were last unspecified (log entry 1). -/
abbrev Memory (α : Type) := List (Nat × α)

/-- The width of a host access (20_memory.md rule R71). -/
inductive AccessWidth where
  | byte | half | word
  deriving DecidableEq, Repr

/-- One turn of an agent, as the interleaving of rule R20 orders them. -/
inductive Input where
  /-- the host reads (`RD`, 30_encoding.md rule R107) -/
  | read (width : AccessWidth) (off : Offset)
  /-- the host writes (`WR`) -/
  | write (width : AccessWidth) (off : Offset) (v : Word)
  /-- the host reads STATUS until BUSY = 0 (`WAIT`) -/
  | wait
  /-- the host waits for the IRQ output (20_memory.md rule R88) -/
  | waitIrq
  /-- the engine takes its step here, if it has one (40_control.md rule R121) -/
  | engine
  /-- RST is asserted (R260) -/
  | reset
  deriving DecidableEq, Repr

/-- The state of HFS (R22). `pending` to `payload` are the spec's; the last six fields are the model's own. -/
structure State where
  /-- PENDING: none, or the command word not yet executed (R24) -/
  pending : Option Word
  /-- STATUS.DONE (R29) -/
  done : Bool
  /-- STATUS.ERR (R25) -/
  err : Bool
  /-- STATUS.PHASE (R27) -/
  phase : Phase
  /-- STATUS.ENC (R28) -/
  enc : EncState
  /-- STATUS.INJ (R25) -/
  inj : Bool
  /-- ERRCODE[7:0] (R30) -/
  errcode : ErrCode
  /-- ERRINFO (R30) -/
  errinfo : Word
  /-- INTEN[1:0]: bit 0 DONE_IE, bit 1 ERR_IE (R34) -/
  inten : BitVec 2
  /-- NDIST (R36) -/
  ndist : Word
  /-- TOTAL (R37) -/
  total : Word
  /-- NNODES (R38) -/
  nnodes : Word
  /-- ROOT (R39) -/
  root : Word
  /-- MAXLEN (R40) -/
  maxlen : Word
  /-- ENC_BITS (R41) -/
  encBits : Word
  /-- PAD (R42) -/
  pad : Word
  /-- PACK_LEN (R43) -/
  packLen : Word
  /-- OUT_LEN (R44) -/
  outLen : Word
  /-- FREQ (R45) -/
  freq : Memory Word
  /-- SLIST (R46) -/
  slist : Memory SortEntry
  /-- NODE (R48) -/
  node : Memory Node
  /-- CODE (R47) -/
  code : Memory CodeEntry
  /-- PACK (R49) -/
  pack : Memory Byte
  /-- OUT (R50) -/
  out : Memory Byte
  /-- PAYLOAD, index 0 first (R51) -/
  payload : List Bool
  /-- the configuration, which no step changes (log entry 4) -/
  cfg : Config
  /-- the draw that PACK's unspecified bytes come from (log entry 1) -/
  packDraw : Nat
  /-- the draw that OUT's unspecified bytes come from (log entries 1 and 2) -/
  outDraw : Nat
  /-- the number of draws made so far (log entries 1-3) -/
  draws : Nat
  /-- the turns still to be taken, first one first (log entry 5) -/
  script : List Input
  /-- the values the host's reads returned, latest first (log entry 5) -/
  noted : List Word
  deriving DecidableEq, Repr

/-- Why a step faults: never. Every error of the spec is recorded and the machine goes on
(60_exceptions.md rule R238), and "the engine step never hangs and never fails to complete"
(40_control.md rule R123). -/
inductive Fault where
  deriving DecidableEq, Repr

/-- Why a step is refused. -/
inductive Refusal where
  /-- Raised by an arm of `exec` that has no meaning yet: none. Safe. -/
  | notModelled (mnemonic : String)
  /-- Raised by `step` on an 8-bit or 16-bit host access: "a model **refuses** a host program that makes
  one" (20_memory.md rule R71). Safe. -/
  | narrowAccess
  /-- Raised by `step` on a 32-bit host access whose offset is not a multiple of 4 (R71). Safe. -/
  | misalignedAccess
  deriving DecidableEq, Repr

/-- The outcome of a step of HFS. -/
abbrev Result := Host.Outcome State Fault Refusal

/-- The state right after a power-on reset of an HFS with configuration `c` (R260). Its PACK and OUT bytes
are draws 0 and 1 (R261, log entry 1). -/
def State.resetWith (c : Config) : State where
  pending := none
  done := false
  err := false
  phase := .opened
  enc := .idle
  inj := false
  errcode := .noError
  errinfo := 0
  inten := 0
  ndist := 0
  total := 0
  nnodes := 0
  root := 0
  maxlen := 0
  encBits := 0
  pad := 0
  packLen := 0
  outLen := 0
  freq := []
  slist := []
  node := []
  code := []
  pack := []
  out := []
  payload := []
  cfg := c
  packDraw := 0
  outDraw := 1
  draws := 2
  script := []
  noted := []

/-- The machine right after reset, in the default configuration (R260). -/
def State.reset : State := State.resetWith Config.default

end Sys2Proof.Machine
end

