-- ==== Sys2Proof/Machine/Ops.lean ====
section
/-! DEFINITION. The named operations: memories, and what stands for taking an exception and returning from
one on HFS, which is recording an error, completing, and clearing the record
(60_exceptions.md rules R234, R238, R239; 40_control.md rule R122). -/

namespace Sys2Proof.Machine

section Memories
variable {α : Type}

/-- The listed entry at index `i`. -/
def Memory.find : Memory α → Nat → Option α
  | [], _ => none
  | (k, x) :: m, i => if k = i then some x else Memory.find m i

/-- List `x` at index `i`, in place of what is listed there. -/
def Memory.put : Memory α → Nat → α → Memory α
  | [], i, x => [(i, x)]
  | (k, y) :: m, i, x =>
    if i < k then (i, x) :: (k, y) :: m
    else if i = k then (i, x) :: m
    else (k, y) :: Memory.put m i x

/-- List nothing at index `i`. -/
def Memory.erase (m : Memory α) (i : Nat) : Memory α := m.filter fun e => e.1 != i

/-- Entry `i` of a memory whose unlisted entries read as `zero`. -/
def Memory.get (zero : α) (m : Memory α) (i : Nat) : α := (Memory.find m i).getD zero

/-- Store `x` at index `i` of a memory whose unlisted entries read as `zero`. -/
def Memory.set [DecidableEq α] (zero : α) (m : Memory α) (i : Nat) (x : α) : Memory α :=
  if x = zero then Memory.erase m i else Memory.put m i x

/-- The memory whose entries from index 0 on are `l` and whose others are `zero`. -/
def Memory.ofList [DecidableEq α] (zero : α) (l : List α) : Memory α :=
  (l.zipIdx.map fun e => (e.2, e.1)).filter fun e => e.2 != zero

/-- Store `l` at the indices from 0 on, keeping the entries past them. -/
def Memory.overwrite (m : Memory α) (l : List α) : Memory α :=
  (l.zipIdx.map fun e => (e.2, e.1)) ++ m.filter fun e => l.length ≤ e.1

/-- The canonical form: the indices are strictly rising and below `depth`. -/
def Memory.rising (depth : Nat) : Memory α → Bool
  | [] => true
  | [e] => decide (e.1 < depth)
  | e :: f :: m => decide (e.1 < f.1) && Memory.rising depth (f :: m)

/-- The canonical form of FREQ, SLIST, NODE and CODE: rising, and no entry equal to what an unlisted one
reads as. -/
def Memory.wf [DecidableEq α] (zero : α) (depth : Nat) (m : Memory α) : Bool :=
  Memory.rising depth m && m.all fun e => e.2 != zero

end Memories

section Sizes

/-- `NODE_DEPTH = 2*NSYM - 1` (00_scope.md rule R9). -/
def nodeDepth (c : Config) : Nat := 2 * c.nsym - 1

/-- `MAXLEN = NSYM - 1`, the longest possible codeword (R9). -/
def maxLength (c : Config) : Nat := c.nsym - 1

/-- `PACK_DEPTH` (R7). -/
def packDepth (c : Config) : Nat := 2 ^ c.packLog2

/-- `OUT_DEPTH` (R8). -/
def outDepth (c : Config) : Nat := 2 ^ c.outLog2

/-- `PAYLOAD_MAX = 8*PACK_DEPTH - 1` (R9). -/
def payloadMax (c : Config) : Nat := 8 * packDepth c - 1

/-- `2^CW - 1`, the largest value of an occurrence counter (R4). -/
def countMax (c : Config) : Nat := 2 ^ c.cw - 1

/-- A number stored in a field of `CW` bits, read back zero-extended (R4). -/
def toCount (c : Config) (n : Nat) : Word := BitVec.ofNat 32 (n % 2 ^ c.cw)

end Sizes

section Entries

/-- FREQ[s] (R45). -/
def freqAt (s : State) (i : Nat) : Word := Memory.get 0 s.freq i

/-- SLIST[i] (R46). -/
def slistAt (s : State) (i : Nat) : SortEntry := Memory.get .zero s.slist i

/-- NODE[j] (R48). -/
def nodeAt (s : State) (j : Nat) : Node := Memory.get .zero s.node j

/-- CODE[s] (R47). -/
def codeAt (s : State) (i : Nat) : CodeEntry := Memory.get .zero s.code i

/-- PACK[i] (R49): the byte last written, or the byte of the reset's draw where none was
(R261, log entry 1). -/
def packAt (s : State) (i : Nat) : Byte := (Memory.find s.pack i).getD (Config.freeByte s.packDraw i)

/-- OUT[i] (R50): the byte last written, or the byte of the draw of the last reset or failed DECODE
(R261, R216, log entries 1 and 2). -/
def outAt (s : State) (i : Nat) : Byte := (Memory.find s.out i).getD (Config.freeByte s.outDraw i)

end Entries

section Errors

/-- `record(E, info)` (R234): the first error stays. It is HFS's "entry" into an error (R238). -/
def record (e : ErrCode) (info : Word) (s : State) : State :=
  { s with
    err := true
    errcode := if s.err then s.errcode else e
    errinfo := if s.err then s.errinfo else info }

/-- Clear the record (R126, R125), HFS's "return" from an error (R239). -/
def clearRecord (s : State) : State :=
  { s with err := false, errcode := .noError, errinfo := 0 }

/-- Completion (R122): BUSY reads 0 and DONE becomes 1. -/
def complete (s : State) : State := { s with pending := none, done := true }

/-- `raise E(info)` in a command with the "On error" effects `onError`: record, then perform them, then
complete (R122, R234). -/
def raiseWith (e : ErrCode) (info : Word) (onError : State → State) (s : State) : State :=
  complete (onError (record e info s))

/-- `raise E(info)` in a command without "On error" effects (R235). -/
def raise (e : ErrCode) (info : Word) (s : State) : State := complete (record e info s)

end Errors

end Sys2Proof.Machine
end

