-- ==== Sys2Proof/Machine/Operands.lean ====
section
/-! DEFINITION. The data operands of the commands: bit strings (00_scope.md rule R12), codewords
(10_state.md rule R47), and binary64 weights (00_scope.md rule R13). -/

namespace Sys2Proof.Machine

section BitStrings

/-- The number a bit string denotes, its first bit most significant: `value(p)` of 43_codebook.md rule R180. -/
def bitsValue (p : List Bool) : Nat := p.foldl (fun n b => 2 * n + b.toNat) 0

/-- `bits8(x)`: "`bits8(x)[k] = x[7-k]`" (R12). -/
def bits8 (x : Byte) : List Bool := (List.range 8).map fun k => x.getLsbD (7 - k)

/-- `byte(s)` of an 8-bit string (R12). -/
def byteOf (p : List Bool) : Byte := BitVec.ofNat 8 (bitsValue p)

/-- The bytes of a bit string whose length is a multiple of 8 (44_pack.md rule R194). -/
def bytesOf : List Bool → List Byte
  | b0 :: b1 :: b2 :: b3 :: b4 :: b5 :: b6 :: b7 :: s =>
    byteOf [b0, b1, b2, b3, b4, b5, b6, b7] :: bytesOf s
  | _ => []

/-- The codeword of a CODE entry: "`c[k] = v[len-1-k]` for 0 <= k < len" (R47). -/
def codeword (e : CodeEntry) : List Bool :=
  (List.range e.len.toNat).map fun k => e.v.getLsbD (e.len.toNat - 1 - k)

/-- The valid CODE entry of a codeword: `{valid 1, len |p|, v value(p)}`, `v` in MAXLEN bits (R180, R47). -/
def codeEntry (c : Config) (p : List Bool) : CodeEntry where
  valid := true
  len := BitVec.ofNat 8 p.length
  v := BitVec.ofNat 255 (bitsValue p % 2 ^ maxLength c)

end BitStrings

section Weights

/-- The value of a positive finite binary64 pattern as a number of units of 2^-1074, the smallest positive
binary64 value. "no NaN, infinity, zero or subnormal result can occur" (R13), so the sign bit of a weight
is 0 and is not read. -/
def weightUnits (w : Binary64) : Nat :=
  let e := (w.extractLsb' 52 11).toNat
  let f := (w.extractLsb' 0 52).toNat
  if e = 0 then f else (2 ^ 52 + f) * 2 ^ (e - 1)

/-- `n / d` rounded to the nearest integer, "with ties to the value whose significand is even" (R13). -/
def roundToEven (n d : Nat) : Nat :=
  let q := n / d
  let r := n % d
  if 2 * r < d then q
  else if d < 2 * r then q + 1
  else q + q % 2

/-- `fl64(x)` (R13) of the real number x = `n / d` units of 2^-1074. The quantum is 2^sh units, which leaves 53
significand bits. A rounded significand of 2^53 carries into the exponent field, and a value past the largest
finite one is the pattern of infinity (PRESUMED: the IEEE 754 format, log entry 9). -/
def fl64 (n d : Nat) : Binary64 :=
  let sh := (n / d).log2 - 52
  BitVec.ofNat 64 (min (sh * 2 ^ 52 + roundToEven n (d * 2 ^ sh)) 0x7FF0000000000000)

/-- `fl64(cnt / T)` (41_analyze.md rule R145). -/
def weightOfCount (cnt total : Nat) : Binary64 := fl64 (cnt * 2 ^ 1074) total

/-- `fl64(a + b)` (42_build.md rule R164). -/
def weightSum (a b : Binary64) : Binary64 := fl64 (weightUnits a + weightUnits b) 1

end Weights

end Sys2Proof.Machine
end

