-- ==== Sys2Proof/Machine/Codebook.lean ====
section
/-! DEFINITION. The codebook walker: GENCODE (43_codebook.md rules R180-R185). -/

namespace Sys2Proof.Machine

/-- The walk of one GENCODE (R180): the stack of (node, path), CODE so far, and the longest codeword so far. -/
structure Walk where
  stack : List (Nat × List Bool)
  code : Memory CodeEntry
  longest : Nat
  deriving DecidableEq, Repr

/-- "CODE[NODE[j].sym] <- {valid 1, len |p|, v value(p)}" (R180); CODE has no entry at or above NSYM. -/
def Walk.record (c : Config) (sym : Byte) (p : List Bool) (t : Walk) : Walk :=
  { t with
    code := if sym.toNat < c.nsym then Memory.put t.code sym.toNat (codeEntry c p) else t.code
    longest := max t.longest p.length }

/-- The walk's loop (R180), with a bound on its iterations: each of the nodes is popped once
(DEDUCED, log entry 7). -/
def Walk.loop (c : Config) (node : Memory Node) : Nat → Walk → Walk
  | 0, t => t
  | k + 1, t =>
    match t.stack with
    | [] => t
    | (j, p) :: rest =>
      let n := Memory.get .zero node j
      if n.leaf then Walk.loop c node k ({ t with stack := rest }.record c n.sym p)
      else Walk.loop c node k { t with
        stack := (n.left.toNat, p ++ [false]) :: (n.right.toNat, p ++ [true]) :: rest }

/-- The walk of the tree with root `root` in `node`. -/
def codebook (c : Config) (node : Memory Node) (root : Nat) : Walk :=
  Walk.loop c node (nodeDepth c) ⟨[(root, [])], [], 0⟩

/-- GENCODE (R180). -/
def execGencode (s : State) : Result :=
  let w := encode .gencode
  let t := codebook s.cfg s.node s.root.toNat
  if s.phase ≠ .built then .next (raise .sequence w s)
  else .next (complete { s with
    code := t.code
    maxlen := BitVec.ofNat 32 t.longest
    phase := .coded })

end Sys2Proof.Machine
end

