-- ==== Sys2Proof/Machine/Control.lean ====
section
/-! DEFINITION. The control commands NOP, CLEAR and ACK (40_control.md rules R124-R126). -/

namespace Sys2Proof.Machine

/-- NOP (R124): "`complete`". -/
def execNop (s : State) : Result := .next (complete s)

/-- The empty pipeline of CLEAR (R125): FREQ, SLIST, NODE and CODE zero, every datapath register 0, PAYLOAD
empty, OPEN and IDLE. INTEN and the contents of PACK and OUT are preserved. -/
def emptyPipeline (s : State) : State :=
  { s with
    freq := []
    code := []
    slist := []
    node := []
    ndist := 0
    total := 0
    nnodes := 0
    root := 0
    maxlen := 0
    encBits := 0
    pad := 0
    packLen := 0
    outLen := 0
    payload := []
    phase := .opened
    enc := .idle
    inj := false }

/-- CLEAR (R125). -/
def execClear (s : State) : Result := .next (complete (clearRecord (emptyPipeline s)))

/-- ACK (R126). -/
def execAck (s : State) : Result := .next (complete (clearRecord s))

end Sys2Proof.Machine
end

