-- ==== Sys2Proof/Machine/Packer.lean ====
section
/-! DEFINITION. The bit packer: ENC_START, ENC_SYM and ENC_FINISH (44_pack.md rules R190-R197). -/

namespace Sys2Proof.Machine

/-- ENC_START (R190). -/
def execEncStart (s : State) : Result :=
  let w := encode .encStart
  if s.phase ≠ .coded ∨ s.enc ≠ .idle then .next (raise .sequence w s)
  else .next (complete { s with
    payload := []
    encBits := 0
    packLen := 0
    pad := 0
    enc := .active })

/-- The abort of an encode (R195). -/
def abortEncode (s : State) : State := { s with enc := .idle, payload := [], encBits := 0 }

/-- ENC_SYM sym (R191). -/
def execEncSym (sym : Byte) (s : State) : Result :=
  let w := encode (.encSym sym)
  let e := codeAt s sym.toNat
  let payload := s.payload ++ codeword e
  if s.phase ≠ .coded ∨ s.enc ≠ .active then .next (raise .sequence w s)
  else if s.cfg.nsym ≤ sym.toNat ∨ e.valid = false then .next (raiseWith .unknownSymbol w abortEncode s)
  else if payloadMax s.cfg < payload.length then .next (raiseWith .capacity w abortEncode s)
  else .next (complete { s with
    payload := payload
    encBits := BitVec.ofNat 32 payload.length })

/-- `pad = 8 - (L mod 8)` (R193). -/
def padCount (len : Nat) : Nat := 8 - len % 8

/-- `0^(pad-1) ++ "1" ++ PAYLOAD` (R192, R193). -/
def padded (payload : List Bool) : List Bool :=
  List.replicate (padCount payload.length - 1) false ++ [true] ++ payload

/-- ENC_FINISH (R192). PACK has no entry at or above PACK_DEPTH. -/
def execEncFinish (s : State) : Result :=
  let w := encode .encFinish
  let stream := padded s.payload
  if s.phase ≠ .coded ∨ s.enc ≠ .active then .next (raise .sequence w s)
  else .next (complete { s with
    pack := Memory.overwrite s.pack ((bytesOf stream).take (packDepth s.cfg))
    packLen := BitVec.ofNat 32 (stream.length / 8)
    pad := BitVec.ofNat 32 (padCount s.payload.length)
    payload := []
    enc := .idle })

end Sys2Proof.Machine
end

