-- ==== Sys2Proof/Machine/Sorter.lean ====
section
/-! DEFINITION. The frequency sorter: COUNT and ANALYZE (41_analyze.md rules R140-R149). -/

namespace Sys2Proof.Machine

/-- COUNT sym (R141). -/
def execCount (sym : Byte) (s : State) : Result :=
  let w := encode (.count sym)
  let n := (freqAt s sym.toNat).toNat
  if s.phase ≠ .opened then .next (raise .sequence w s)
  else if s.cfg.nsym ≤ sym.toNat then .next (raise .symbolRange w s)
  else if n = countMax s.cfg then .next (raise .countOverflow w s)
  else .next (complete { s with freq := Memory.set 0 s.freq sym.toNat (toCount s.cfg (n + 1)) })

/-- A symbol with its count, as the sorter orders them. -/
structure Tally where
  sym : Nat
  cnt : Nat
  deriving DecidableEq, Repr

/-- PH_A, the placeholder 'a' (00_scope.md rule R15). -/
def placeholderA : Nat := 0x61

/-- PH_B, the placeholder 'b' (R15). -/
def placeholderB : Nat := 0x62

/-- The order of R140: `a` is before `b`, or is `b`. -/
def tallyLe (a b : Tally) : Bool := a.cnt < b.cnt || (a.cnt == b.cnt && a.sym ≤ b.sym)

/-- "F <- copy of FREQ[0..NSYM)" (R142). -/
def freqCounts (c : Config) (freq : Memory Word) : List Nat :=
  (List.range c.nsym).map fun i => (Memory.get 0 freq i).toNat

/-- The number of s with F[s] > 0 (R142). -/
def distinctCount (f : List Nat) : Nat := f.countP fun c => 0 < c

/-- The condition for placeholder injection (R142, R6). -/
def injects (c : Config) (f : List Nat) : Bool :=
  match c.trigger with
  | .totalOne => f.sum == 1
  | .distinctOne => distinctCount f == 1

/-- F after placeholder injection (R143). -/
def injected (c : Config) (f : List Nat) : List Nat :=
  if injects c f then (f.modify placeholderA (· + 1)).modify placeholderB (· + 1) else f

/-- "the list of (s, F[s]) for every s with F[s] > 0, in the order of rule R140" (R142). -/
def sortedTallies (f : List Nat) : List Tally :=
  ((f.zipIdx.map fun e => Tally.mk e.2 e.1).filter fun t => 0 < t.cnt).insertionSort fun a b => tallyLe a b

/-- The SLIST entry `{sym E[i].s, cnt E[i].c, w fl64(E[i].c / T)}` (R142, R145). -/
def sortEntry (c : Config) (total : Nat) (t : Tally) : SortEntry where
  sym := BitVec.ofNat 8 t.sym
  cnt := toCount c t.cnt
  w := weightOfCount t.cnt total

/-- SLIST as ANALYZE leaves it for the counts `f` (R142, R147). -/
def sortedList (c : Config) (f : List Nat) : Memory SortEntry :=
  Memory.ofList .zero ((sortedTallies f).map (sortEntry c f.sum))

/-- FREQ with the placeholders' counts written back (R142, R143). -/
def writeBack (c : Config) (freq : Memory Word) (f : List Nat) : Memory Word :=
  Memory.set 0 (Memory.set 0 freq placeholderA (toCount c (f.getD placeholderA 0)))
    placeholderB (toCount c (f.getD placeholderB 0))

/-- ANALYZE (R142). -/
def execAnalyze (s : State) : Result :=
  let w := encode .analyze
  let f0 := freqCounts s.cfg s.freq
  let inj := injects s.cfg f0
  let f := injected s.cfg f0
  if s.phase ≠ .opened then .next (raise .sequence w s)
  else if f0.sum = 0 then .next (raise .emptyInput w s)
  else if countMax s.cfg < f.sum then .next (raise .countOverflow w s)
  else .next (complete { s with
    slist := sortedList s.cfg f
    freq := if inj then writeBack s.cfg s.freq f else s.freq
    ndist := BitVec.ofNat 32 (sortedTallies f).length
    total := BitVec.ofNat 32 f.sum
    inj := inj
    phase := .sorted })

end Sys2Proof.Machine
end

