-- ==== Sys2Proof/Machine/Tree.lean ====
section
/-! DEFINITION. The tree builder: BUILD, the two-queue merge over the node pool (42_build.md rules R160-R170). -/

namespace Sys2Proof.Machine

/-- `leaf(e)` (R165). -/
def leafNode (e : SortEntry) : Node where
  leaf := true
  sym := e.sym
  left := 0
  right := 0
  cnt := e.cnt
  w := e.w

/-- `key(node)` (R166): the weight as a real number (in units of 2^-1074), or the count. -/
def nodeKey (c : Config) (n : Node) : Nat :=
  match c.weightMode with
  | .binary64 => weightUnits n.w
  | .count => n.cnt.toNat

/-- The queues of one BUILD, which "exist only inside one command's atomic step" (10_state.md rule R52). `pool` is
NODE[0..alloc); the source queue is [sHead, n) and the target queue [tHead, alloc) (R161). -/
structure Queues where
  sHead : Nat
  tHead : Nat
  pool : List Node
  deriving DecidableEq, Repr

/-- NODE[j] of the pool under construction. -/
def Queues.nodeAt (q : Queues) (j : Nat) : Node := q.pool.getD j .zero

/-- `internal(l, r)` (R164), with SENTINEL = 0x00. -/
def Queues.internal (c : Config) (q : Queues) (l r : Nat) : Node where
  leaf := false
  sym := 0x00
  left := BitVec.ofNat 9 l
  right := BitVec.ofNat 9 r
  cnt := toCount c ((q.nodeAt l).cnt.toNat + (q.nodeAt r).cnt.toNat)
  w := weightSum (q.nodeAt l).w (q.nodeAt r).w

/-- The guard of `take()`: dequeue from source (R162). -/
def Queues.sourceFirst (c : Config) (n : Nat) (q : Queues) : Bool :=
  q.tHead == q.pool.length ||
    (decide (q.sHead < n) && decide (nodeKey c (q.nodeAt q.sHead) ≤ nodeKey c (q.nodeAt q.tHead)))

/-- The index `take()` returns (R162). -/
def Queues.front (c : Config) (n : Nat) (q : Queues) : Nat :=
  if q.sourceFirst c n then q.sHead else q.tHead

/-- The queues after `take()` (R162). -/
def Queues.advance (c : Config) (n : Nat) (q : Queues) : Queues :=
  if q.sourceFirst c n then { q with sHead := q.sHead + 1 } else { q with tHead := q.tHead + 1 }

/-- The loop condition "`sHead < n or alloc - tHead > 1`" (R163). -/
def Queues.unmerged (n : Nat) (q : Queues) : Bool :=
  decide (q.sHead < n) || decide (q.tHead + 1 < q.pool.length)

/-- One iteration of the merge: take left, take right, enqueue their parent (R160). -/
def Queues.merge (c : Config) (n : Nat) (q : Queues) : Queues :=
  let q1 := q.advance c n
  let q2 := q1.advance c n
  { q2 with pool := q2.pool ++ [q2.internal c (q.front c n) (q1.front c n)] }

/-- The merge loop, with a bound on its iterations ("exactly n - 1 iterations", R163;
DEDUCED: the bound is never met, log entry 7). -/
def Queues.mergeLoop (c : Config) (n : Nat) : Nat → Queues → Queues
  | 0, q => q
  | k + 1, q => if q.unmerged n then Queues.mergeLoop c n k (q.merge c n) else q

/-- The queues at the start: every leaf in source, target empty (R161). -/
def Queues.start (leaves : List Node) : Queues := ⟨0, leaves.length, leaves⟩

/-- The leaves NODE[0..n), in SLIST order (R160, R161). -/
def leavesOf (slist : Memory SortEntry) (n : Nat) : List Node :=
  (List.range n).map fun i => leafNode (Memory.get .zero slist i)

/-- NODE[0..alloc) after the merge of the first `n` entries of `slist` (R160). -/
def builtPool (c : Config) (slist : Memory SortEntry) (n : Nat) : List Node :=
  (Queues.mergeLoop c n n (Queues.start (leavesOf slist n))).pool

/-- BUILD (R160). -/
def execBuild (s : State) : Result :=
  let w := encode .build
  let n := s.ndist.toNat
  let pool := builtPool s.cfg s.slist n
  if s.phase ≠ .sorted then .next (raise .sequence w s)
  else if n = 1 then .next (raise .degenerateTree w s)
  else .next (complete { s with
    node := Memory.ofList .zero (pool.take (nodeDepth s.cfg))
    nnodes := BitVec.ofNat 32 pool.length
    root := BitVec.ofNat 32 (pool.length - 1)
    phase := .built })

end Sys2Proof.Machine
end

