-- ==== Sys2Proof/Machine/Unpacker.lean ====
section
/-! DEFINITION. The bit unpacker: DECODE (45_unpack.md rules R210-R219). -/

namespace Sys2Proof.Machine

/-- `bits8(PACK[0]) ++ ... ++ bits8(PACK[N-1])` (R211, 20_memory.md rule R92). -/
def streamBits (s : State) (n : Nat) : List Bool := (List.range n).flatMap fun i => bits8 (packAt s i)

/-- `start` (R212): one past the first 1 in the first 8 bits, or 8 when they hold no 1. -/
def payloadStart (b : List Bool) : Nat :=
  match (b.take 8).findIdx? fun x => x with
  | some i => i + 1
  | none => 8

/-- How a tree descent ends (R210). -/
inductive Descent where
  /-- a symbol was to be emitted when OUT was full (R215) -/
  | full
  /-- the payload ended at node `cur`, with the symbols `out` emitted in order -/
  | ended (cur : Nat) (out : List Byte)
  deriving DecidableEq, Repr

/-- One more symbol, before those a descent emitted. -/
def Descent.cons (sym : Byte) : Descent → Descent
  | .full => .full
  | .ended cur out => .ended cur (sym :: out)

/-- The tree descent (R210, R213) from node `cur`, `room` symbols still fitting in OUT. -/
def descend (node : Nat → Node) (root : Nat) : List Bool → Nat → Nat → Descent
  | [], cur, _ => .ended cur []
  | b :: bits, cur, room =>
    let next := if b then (node cur).right.toNat else (node cur).left.toNat
    if (node next).leaf then
      match room with
      | 0 => .full
      | room + 1 => (descend node root bits root room).cons (node next).sym
    else descend node root bits next room

/-- The "On error" effects of DECODE (R216): OUT_LEN becomes 0 and OUT's contents a fresh draw (log entry 2). -/
def failDecode (s : State) : State :=
  { s with outLen := 0, out := [], outDraw := s.draws, draws := s.draws + 1 }

/-- DECODE (R210). -/
def execDecode (s : State) : Result :=
  let w := encode .decode
  let bits := streamBits s s.packLen.toNat
  let start := payloadStart bits
  if (s.phase ≠ .built ∧ s.phase ≠ .coded) ∨ s.enc ≠ .idle then .next (raise .sequence w s)
  else if s.packLen = 0 then .next (raiseWith .malformedBitstream w failDecode s)
  else match descend (nodeAt s) s.root.toNat (bits.drop start) s.root.toNat (outDepth s.cfg) with
    | .full => .next (raiseWith .capacity w failDecode s)
    | .ended cur out =>
      if cur ≠ s.root.toNat then .next (raiseWith .malformedBitstream w failDecode s)
      else .next (complete { s with
        out := Memory.overwrite s.out out
        outLen := BitVec.ofNat 32 out.length
        pad := BitVec.ofNat 32 start })

end Sys2Proof.Machine
end

