-- ==== Sys2Proof/Machine/Dispatch.lean ====
section
/-! DEFINITION. The meaning of each command: the pseudocode of its rule, which "runs inside the engine step of
rule R121, after that rule's error gate" (40_control.md). -/

namespace Sys2Proof.Machine

def exec (i : Instr) (s : State) : Host.Outcome State Fault Refusal :=
  match i with
  | .nop => Sys2Proof.Machine.execNop s
  | .clear => Sys2Proof.Machine.execClear s
  | .ack => Sys2Proof.Machine.execAck s
  | .count sym => Sys2Proof.Machine.execCount sym s
  | .analyze => Sys2Proof.Machine.execAnalyze s
  | .build => Sys2Proof.Machine.execBuild s
  | .gencode => Sys2Proof.Machine.execGencode s
  | .encStart => Sys2Proof.Machine.execEncStart s
  | .encSym sym => Sys2Proof.Machine.execEncSym sym s
  | .encFinish => Sys2Proof.Machine.execEncFinish s
  | .decode => Sys2Proof.Machine.execDecode s

end Sys2Proof.Machine
end

