-- ==== Sys2Proof/Machine/Flags.lean ====
section
/-! DEFINITION. STATUS and the interrupt output, as computed from the state (10_state.md rules R25-R29, R35),
and the numbers of the phases and error codes. -/

namespace Sys2Proof.Machine

/-- STATUS.PHASE as a number (R25). -/
def Phase.code : Phase → BitVec 2
  | .opened => 0
  | .sorted => 1
  | .built => 2
  | .coded => 3

/-- STATUS.ENC as a bit (R25). -/
def EncState.code : EncState → BitVec 1
  | .idle => 0
  | .active => 1

/-- The error codes of 60_exceptions.md rule R231. -/
def ErrCode.code : ErrCode → Byte
  | .noError => 0x00
  | .emptyInput => 0x01
  | .malformedBitstream => 0x02
  | .unknownSymbol => 0x03
  | .ioFailure => 0x04
  | .illegalCommand => 0x10
  | .sequence => 0x11
  | .symbolRange => 0x12
  | .countOverflow => 0x13
  | .degenerateTree => 0x14
  | .capacity => 0x15
  | .busyViolation => 0x16
  | .access => 0x17

/-- `STATUS.BUSY = (PENDING != none)` (R26). -/
def busy (s : State) : Bool := s.pending.isSome

/-- INTEN.DONE_IE, bit [0] (R34). -/
def doneIe (s : State) : Bool := s.inten.getLsbD 0

/-- INTEN.ERR_IE, bit [1] (R34). -/
def errIe (s : State) : Bool := s.inten.getLsbD 1

/-- The interrupt output (R35). -/
def irq (s : State) : Bool := (s.done && doneIe s) || (s.err && errIe s)

/-- The STATUS register (R25). -/
def statusWord (s : State) : Word :=
  (0 : BitVec 24) ++ BitVec.ofBool s.inj ++ s.enc.code ++ s.phase.code ++ BitVec.ofBool (irq s) ++
    BitVec.ofBool s.err ++ BitVec.ofBool s.done ++ BitVec.ofBool (busy s)

end Sys2Proof.Machine
end

