-- ==== Sys2Proof/Machine/HostPort.lean ====
section
/-! DEFINITION. The host's accesses: the address map, the value a read returns and what a write does
(20_memory.md rules R70-R86; 40_control.md rule R120). -/

namespace Sys2Proof.Machine

/-- The registers of 10_state.md rule R23, in the order of their offsets. -/
inductive Reg where
  | id | param | cmd | status | errcode | errinfo | inten | ndist | total | nnodes | root | maxlen
  | encBits | pad | packLen | outLen
  deriving DecidableEq, Repr

/-- What an offset reaches (R73). `word` counts the 32-bit words of an entry. -/
inductive Target where
  | reg (r : Reg)
  | freq (slot : Nat)
  | slist (entry word : Nat)
  | node (entry word : Nat)
  | code (entry word : Nat)
  | pack (slot : Nat)
  | out (slot : Nat)
  | unmapped
  deriving DecidableEq, Repr

/-- The registers in the order of their offsets, 4 bytes apart (R23). -/
def registerFile : List Reg :=
  [.id, .param, .cmd, .status, .errcode, .errinfo, .inten, .ndist, .total, .nnodes, .root, .maxlen,
    .encBits, .pad, .packLen, .outLen]

/-- The offset map of R73. "HFS decodes offset bits [21:2] and ignores bits [1:0]" (R71). -/
def decodeOffset (off : Offset) : Target :=
  let a := off.toNat / 4 * 4
  if a < 0x40 then (registerFile[a / 4]?).elim .unmapped .reg
  else if a < 0x1000 then .unmapped
  else if a < 0x1400 then .freq ((a - 0x1000) / 4)
  else if a < 0x2000 then .unmapped
  else if a < 0x3000 then .slist ((a - 0x2000) / 16) ((a - 0x2000) % 16 / 4)
  else if a < 0x4000 then .unmapped
  else if a < 0x8000 then .node ((a - 0x4000) / 32) ((a - 0x4000) % 32 / 4)
  else if a < 0xC000 then .code ((a - 0x8000) / 64) ((a - 0x8000) % 64 / 4)
  else if a < 0x100000 then .unmapped
  else if a < 0x200000 then .pack ((a - 0x100000) / 4)
  else if a < 0x300000 then .out ((a - 0x200000) / 4)
  else .unmapped

/-- The device offset of a host address, where it lies in the region at `HFS_BASE` (R70). -/
def deviceOffset (a : Nat) : Option Offset :=
  if Config.hfsBase ≤ a ∧ a < Config.hfsBase + 0x400000 then some (BitVec.ofNat 22 (a - Config.hfsBase))
  else none

/-- Byte `off + b` of a word, as a byte-addressed host views it: bits [8b+7:8b] (R72). -/
def byteLane (v : Word) (b : Nat) : Byte := v.extractLsb' (8 * b) 8

section Reads

/-- ID (R31). -/
def idWord : Word := 0x48465331

/-- PARAM (R32). -/
def paramWord (c : Config) : Word :=
  (0 : BitVec 3) ++ BitVec.ofNat 5 c.outLog2 ++ (0 : BitVec 3) ++ BitVec.ofNat 5 c.packLog2 ++
    (0 : BitVec 7) ++ BitVec.ofNat 5 (c.cw - 1) ++ (0 : BitVec 1) ++
    BitVec.ofBool (c.trigger == .totalOne) ++ BitVec.ofBool (c.weightMode == .count) ++
    BitVec.ofBool (c.nsym == 256)

/-- The value of a register (R23, R25, R30-R44). CMD reads 0 (R33). -/
def readReg (s : State) : Reg → Word
  | .id => idWord
  | .param => paramWord s.cfg
  | .cmd => 0
  | .status => statusWord s
  | .errcode => s.errcode.code.zeroExtend 32
  | .errinfo => s.errinfo
  | .inten => s.inten.zeroExtend 32
  | .ndist => s.ndist
  | .total => s.total
  | .nnodes => s.nnodes
  | .root => s.root
  | .maxlen => s.maxlen
  | .encBits => s.encBits
  | .pad => s.pad
  | .packLen => s.packLen
  | .outLen => s.outLen

/-- The words of an SLIST entry (R77). -/
def SortEntry.word (e : SortEntry) : Nat → Word
  | 0 => e.sym.zeroExtend 32
  | 1 => e.cnt
  | 2 => e.w.extractLsb' 0 32
  | 3 => e.w.extractLsb' 32 32
  | _ => 0

/-- The words of a NODE entry (R78). -/
def Node.word (n : Node) : Nat → Word
  | 0 => BitVec.ofBool n.leaf ++ (0 : BitVec 23) ++ n.sym
  | 1 => n.left.zeroExtend 32
  | 2 => n.right.zeroExtend 32
  | 3 => n.cnt
  | 4 => n.w.extractLsb' 0 32
  | 5 => n.w.extractLsb' 32 32
  | _ => 0

/-- The words of a CODE entry (R79): word `k + 1` is V_k for k = 0..7. -/
def CodeEntry.word (e : CodeEntry) (k : Nat) : Word :=
  if k = 0 then BitVec.ofBool e.valid ++ (0 : BitVec 23) ++ e.len
  else if k ≤ 8 then e.v.extractLsb' (32 * (k - 1)) 32
  else 0

/-- The value read while idle (R74-R81). Slots past a memory's depth read 0 (R82). -/
def readTarget (s : State) : Target → Word
  | .reg r => readReg s r
  | .freq i => if i < s.cfg.nsym then freqAt s i else 0
  | .slist i k => if i < s.cfg.nsym then (slistAt s i).word k else 0
  | .node j k => if j < nodeDepth s.cfg then (nodeAt s j).word k else 0
  | .code i k => if i < s.cfg.nsym then (codeAt s i).word k else 0
  | .pack i => if i < packDepth s.cfg then (packAt s i).zeroExtend 32 else 0
  | .out i => if i < outDepth s.cfg then (outAt s i).zeroExtend 32 else 0
  | .unmapped => 0

/-- The registers whose reads are specified while STATUS.BUSY = 1 (R86). -/
def Reg.readableBusy : Reg → Bool
  | .id => true
  | .param => true
  | .cmd => true
  | .status => true
  | .errcode => true
  | .errinfo => true
  | .inten => true
  | .ndist => false
  | .total => false
  | .nnodes => false
  | .root => false
  | .maxlen => false
  | .encBits => false
  | .pad => false
  | .packLen => false
  | .outLen => false

/-- While STATUS.BUSY = 1 a read of any register or window slot except ID, PARAM, CMD, STATUS, ERRCODE, ERRINFO and
INTEN is unspecified (R86); an unmapped offset is neither, and reads 0 (R74). A slot past a memory's depth is a
window slot (DEDUCED, log entry 3). -/
def unspecifiedRead (s : State) (t : Target) : Bool :=
  busy s && match t with
    | .reg r => !r.readableBusy
    | .freq _ => true
    | .slist _ _ => true
    | .node _ _ => true
    | .code _ _ => true
    | .pack _ => true
    | .out _ => true
    | .unmapped => false

/-- `MemRead(off, 4)` (R14): the value a host read returns now. -/
def memRead (s : State) (off : Offset) : Word :=
  let t := decodeOffset off
  if unspecifiedRead s t then Config.freeWord s.draws else readTarget s t

/-- A host read: its value is noted, and nothing else of HFS changes (R83). An unspecified read uses up one draw. -/
def hostRead (off : Offset) (s : State) : State :=
  { s with
    noted := memRead s off :: s.noted
    draws := if unspecifiedRead s (decodeOffset off) then s.draws + 1 else s.draws }

end Reads

section Writes

/-- `raise E(off)` in a host access: the record, and nothing else (60_exceptions.md rules R234, R237). -/
def refuseWrite (e : ErrCode) (off : Offset) (s : State) : State := record e (off.zeroExtend 32) s

/-- An accepted CMD write (R120). -/
def issue (w : Word) (s : State) : State := { s with pending := some w, done := false }

/-- A write to a FREQ slot (R76). -/
def writeFreq (off : Offset) (i : Nat) (v : Word) (s : State) : State :=
  if s.cfg.nsym ≤ i then s
  else if busy s then refuseWrite .busyViolation off s
  else if s.phase ≠ .opened then refuseWrite .access off s
  else if 2 ^ s.cfg.cw ≤ v.toNat then refuseWrite .access off s
  else { s with freq := Memory.set 0 s.freq i v }

/-- A write to a PACK slot (R80). -/
def writePack (off : Offset) (i : Nat) (v : Word) (s : State) : State :=
  if packDepth s.cfg ≤ i then s
  else if busy s then refuseWrite .busyViolation off s
  else if s.enc = .active then refuseWrite .access off s
  else { s with pack := Memory.put s.pack i (v.extractLsb' 0 8) }

/-- A write to PACK_LEN (R80). -/
def writePackLen (off : Offset) (v : Word) (s : State) : State :=
  if busy s then refuseWrite .busyViolation off s
  else if s.enc = .active then refuseWrite .access off s
  else if packDepth s.cfg < v.toNat then refuseWrite .access off s
  else { s with packLen := v }

/-- A write to CMD (R120). -/
def writeCmd (off : Offset) (w : Word) (s : State) : State :=
  if busy s then refuseWrite .busyViolation off s else issue w s

/-- A write to INTEN (R34): bits [31:2] are ignored. -/
def writeInten (v : Word) (s : State) : State := { s with inten := v.extractLsb' 0 2 }

/-- A write to a register (R75): one to a read-only register is ignored. -/
def writeReg (off : Offset) (v : Word) (s : State) : Reg → State
  | .cmd => writeCmd off v s
  | .inten => writeInten v s
  | .packLen => writePackLen off v s
  | .id => s
  | .param => s
  | .status => s
  | .errcode => s
  | .errinfo => s
  | .ndist => s
  | .total => s
  | .nnodes => s
  | .root => s
  | .maxlen => s
  | .encBits => s
  | .pad => s
  | .outLen => s

/-- `MemWrite(off, 4, v)` (R74-R82). -/
def hostWrite (off : Offset) (v : Word) (s : State) : State :=
  match decodeOffset off with
  | .reg r => writeReg off v s r
  | .freq i => writeFreq off i v s
  | .pack i => writePack off i v s
  | .slist _ _ => s
  | .node _ _ => s
  | .code _ _ => s
  | .out _ => s
  | .unmapped => s

end Writes

end Sys2Proof.Machine
end

