-- ==== Sys2Proof/Machine/Engine.lean ====
section
/-! DEFINITION. The engine's step (40_control.md rule R121), the reset event (70_reset_and_hazards.md rule R260),
and the turn of each agent (10_state.md rule R20). -/

namespace Sys2Proof.Machine

/-- The words the error gate lets through: NOP, CLEAR and ACK (R121). -/
def passesGate (w : Word) : Bool := w == 0x00000000 || w == 0x01000000 || w == 0x02000000

/-- The engine's step on the pending word `w` (R121). -/
def engineStep (w : Word) (s : State) : Result :=
  if s.err ∧ passesGate w = false then .next (complete s)
  else match decodeWord w with
    | none => .next (raise .illegalCommand w s)
    | some i => exec i s

/-- A reset event (R260): every piece of state takes its reset value, and PACK and OUT fresh draws. -/
def resetEvent (s : State) : State :=
  { State.resetWith s.cfg with
    packDraw := s.draws
    outDraw := s.draws + 1
    draws := s.draws + 2
    script := s.script
    noted := s.noted }

/-- The engine's turn: it "has a step exactly when PENDING holds a word" (R121). -/
def engineTurn (s : State) : Result :=
  match s.pending with
  | some w => engineStep w s
  | none => .next s

/-- A host access of width `width` at `off`: only an aligned 32-bit access has a meaning
(R71, log entry 13). -/
def access (width : AccessWidth) (off : Offset) (perform : State → State) (s : State) : Result :=
  if width ≠ .word then .refused .narrowAccess
  else if off.toNat % 4 ≠ 0 then .refused .misalignedAccess
  else .next (perform s)

/-- The state with the first turn of the script taken. -/
def dropTurn (s : State) : State := { s with script := s.script.tail }

/-- One turn. While the host waits, the engine takes its step; once BUSY = 0 the wait is over (R87, R107,
log entry 5). A host that waits for an IRQ that no pending command can raise stays where it is. -/
def turn (i : Input) (s : State) : Result :=
  match i with
  | .read width off => access width off (hostRead off) (dropTurn s)
  | .write width off v => access width off (hostWrite off v) (dropTurn s)
  | .wait => if busy s then engineTurn s else .next (dropTurn s)
  | .waitIrq => if irq s then .next (dropTurn s) else engineTurn s
  | .engine => engineTurn (dropTurn s)
  | .reset => .next (resetEvent (dropTurn s))

/-- Which agent moves next: the first turn of the script, and after its end the engine, which executes a pending
command ("a pending command is eventually executed", 70_reset_and_hazards.md rule R269) or is idle with
"all its state ... retained" (60_exceptions.md rule R249). -/
def nextTurn (s : State) : Result :=
  match s.script with
  | [] => engineTurn s
  | i :: _ => turn i s

end Sys2Proof.Machine
end

