-- ==== Sys2Proof/Machine/HostProgram.lean ====
section
/-! DEFINITION. Host programs: the steps and the pseudo-instructions of 30_encoding.md rule R107, as scripts of
turns. -/

namespace Sys2Proof.Machine

/-- `RD off` (R107). -/
def rd (off : Offset) : List Input := [.read .word off]

/-- `WR off, v` (R107). -/
def wr (off : Offset) (v : Word) : List Input := [.write .word off v]

/-- A command on its own line: `WR 0x008, word; WAIT` (R107). -/
def command (i : Instr) : List Input := wr 0x008 (encode i) ++ [.wait]

/-- `COUNTS "s"` (R107). -/
def counts (text : List Byte) : List Input := text.flatMap fun c => command (.count c)

/-- `ENCODE "s"` (R107). -/
def encodeText (text : List Byte) : List Input :=
  command .encStart ++ text.flatMap (fun c => command (.encSym c)) ++ command .encFinish

/-- The write of `LOADPACK` at slot `i` (R107). DESIGN CHOICE (log entry 14): where `0x100000 + 4*i` lies past the
region of 20_memory.md rule R70, which ends at 0x3FFFFF, the write does not reach HFS and is no turn of the script. -/
def loadSlot (i : Nat) (b : Byte) : List Input :=
  if 0x100000 + 4 * i < 0x400000 then wr (BitVec.ofNat 22 (0x100000 + 4 * i)) (b.zeroExtend 32) else []

/-- The writes of `LOADPACK` from slot `i` on (R107). -/
def loadSlots : Nat → List Byte → List Input
  | _, [] => []
  | i, b :: bytes => loadSlot i b ++ loadSlots (i + 1) bytes

/-- `LOADPACK b0, ..., bk` (R107). DESIGN CHOICE (log entry 14): the written length is its low 32 bits, the width of a
host write (R70). -/
def loadPack (bytes : List Byte) : List Input :=
  loadSlots 0 bytes ++ wr 0x038 (BitVec.ofNat 32 bytes.length)

/-- `LOADFREQ s, c` (R107). -/
def loadFreq (sym : Byte) (c : Word) : List Input := wr (BitVec.ofNat 22 (0x1000 + 4 * sym.toNat)) c

/-- The five source calls as host programs (R107): `analyze(T)`; `buildTree` and `buildEncodingTable` are the
commands BUILD and GENCODE; `encode` is `encodeText`. -/
def analyzeText (text : List Byte) : List Input := counts text ++ command .analyze

/-- `decode(bytes, root)` (R107). -/
def decodeBytes (bytes : List Byte) : List Input := loadPack bytes ++ command .decode

/-- `s` with a host program to make. -/
def State.withScript (s : State) (p : List Input) : State := { s with script := p }

/-- The turns that are steps of the host program; the others are the engine's and the reset input's. -/
def Input.isHostStep : Input → Bool
  | .read _ _ => true
  | .write _ _ _ => true
  | .wait => true
  | .waitIrq => true
  | .engine => false
  | .reset => false

/-- A host program "ends when its last step has been made" (70_reset_and_hazards.md rule R270): no step of the host is
left in the script. Where its last step was a raw CMD write, a command may still be pending. -/
def State.ended (s : State) : Bool := s.script.all fun i => !i.isHostStep

end Sys2Proof.Machine
end

