-- ==== Sys2Proof/Machine/Step.lean ====
section
/-! DEFINITION. The step of the machine, and how an instruction is placed so that the next step runs it. -/

namespace Sys2Proof.Machine

/-- One step: the turn of the agent that moves next (10_state.md rule R20). -/
def step (s : State) : Host.Outcome State Fault Refusal := nextTurn s

/-- `s` with the instruction's word latched in PENDING and the engine's turn next, so that the next step
executes it. HFS fetches nothing (20_memory.md rule R90): a command reaches it only by a CMD write, and this
stands for that write (log entry 6). -/
def State.withFetchWord (s : State) (nbits w : Nat) : State :=
  { s with pending := some (BitVec.ofNat 32 (w % 2 ^ nbits)), script := .engine :: s.script }

end Sys2Proof.Machine
end

