-- ==== Sys2Proof/Safety.lean ====
section
/-! DEFINITION. The terms claims are stated in: whose turn a step is, when a command may run, the invariant of the
machine, and the facts of 10_state.md rule R53. -/

namespace Sys2Proof.Machine

section Turns

/-- The next step is the engine's: the script is at an `engine` turn, or the host waits, or the script has ended. -/
def enginesTurn (s : State) : Bool :=
  match s.script with
  | [] => true
  | .engine :: _ => true
  | .wait :: _ => true
  | .waitIrq :: _ => !irq s
  | .read _ _ :: _ => false
  | .write _ _ _ :: _ => false
  | .reset :: _ => false

/-- The state a turn of the engine starts from: an `engine` turn is taken, a waiting host goes on waiting. -/
def turnTaken (s : State) : State :=
  match s.script with
  | .engine :: rest => { s with script := rest }
  | _ => s

/-- What recording an error changes when none is recorded yet (60_exceptions.md rule R234). -/
def withError (e : ErrCode) (info : Word) (s : State) : State :=
  { s with err := true, errcode := e, errinfo := info }

/-- What completion changes (40_control.md rule R122). -/
def completed (s : State) : State := { s with pending := none, done := true }

/-- The device's state after a refused host write at `off`: the record, unless an error is recorded already
(R234, R237). -/
def refusal (e : ErrCode) (off : Offset) (s : State) : State :=
  if s.err then s else withError e (off.zeroExtend 32) s

/-- The word offset of a register or window slot: bits [1:0] are ignored (20_memory.md rule R71). -/
def wordOffset (off : Offset) : Nat := off.toNat / 4 * 4

/-- The word offset `a` is unmapped: the rows of 20_memory.md rule R73 that name R74. -/
abbrev unmappedOffset (a : Nat) : Prop :=
  (0x40 ≤ a ∧ a < 0x1000) ∨ (0x1400 ≤ a ∧ a < 0x2000) ∨ (0x3000 ≤ a ∧ a < 0x4000) ∨
    (0xC000 ≤ a ∧ a < 0x100000) ∨ 0x300000 ≤ a

end Turns

section Commands

/-- The PHASE and ENC a command requires: the table of 10_state.md rule R27. -/
def phaseAllows (s : State) : Instr → Bool
  | .nop => true
  | .ack => true
  | .clear => true
  | .count _ => s.phase == .opened
  | .analyze => s.phase == .opened
  | .build => s.phase == .sorted
  | .gencode => s.phase == .built
  | .encStart => s.phase == .coded && s.enc == .idle
  | .encSym _ => s.phase == .coded && s.enc == .active
  | .encFinish => s.phase == .coded && s.enc == .active
  | .decode => (s.phase == .built || s.phase == .coded) && s.enc == .idle

/-- The phase after the command's success (R27). -/
def phaseAfter (s : State) : Instr → Phase
  | .nop => s.phase
  | .ack => s.phase
  | .clear => .opened
  | .count _ => .opened
  | .analyze => .sorted
  | .build => .built
  | .gencode => .coded
  | .encStart => .coded
  | .encSym _ => .coded
  | .encFinish => .coded
  | .decode => s.phase

/-- T0: the sum over s < NSYM of FREQ[s] (41_analyze.md rule R142). -/
def countedTotal (s : State) : Nat := ((List.range s.cfg.nsym).map fun i => (freqAt s i).toNat).sum

/-- D0: the number of s < NSYM with FREQ[s] > 0 (R142). -/
def countedSymbols (s : State) : Nat := (List.range s.cfg.nsym).countP fun i => 0 < (freqAt s i).toNat

/-- `inj`, by the trigger (R142, R143): T0 = 1 under TOTAL_ONE, D0 = 1 under DISTINCT_ONE. -/
def injectionDue (s : State) : Bool :=
  match s.cfg.trigger with
  | .totalOne => decide (countedTotal s = 1)
  | .distinctOne => decide (countedSymbols s = 1)

/-- T: the total ANALYZE divides by, the two placeholders included (R142, R143). -/
def analysedTotal (s : State) : Nat := countedTotal s + if injectionDue s then 2 else 0

/-- `key(node)` (42_build.md rule R166): the number `node.w` denotes (in units of 2^-1074) when WEIGHT_MODE =
BINARY64, and `node.cnt` when WEIGHT_MODE = COUNT. -/
def mergeKey (s : State) (j : Nat) : Nat :=
  match s.cfg.weightMode with
  | .binary64 => weightUnits (nodeAt s j).w
  | .count => (nodeAt s j).cnt.toNat

/-- One call of `take()` (42_build.md rule R162) returned `i`: the queues' heads are `h` before it and `h'` after it
(source first, target second), `n` leaves are in the pool and `alloc` entries are in use. -/
def takes (s : State) (n alloc : Nat) (h h' : Nat × Nat) (i : Nat) : Prop :=
  if h.2 = alloc ∨ (h.1 < n ∧ mergeKey s h.1 ≤ mergeKey s h.2)
  then i = h.1 ∧ h' = (h.1 + 1, h.2)
  else i = h.2 ∧ h' = (h.1, h.2 + 1)

/-- The path from node `j` that the bits name: at each internal node a 0 goes left and a 1 right; none when the
path would go on below a leaf. -/
def follow (node : Nat → Node) : Nat → List Bool → Option Nat
  | j, [] => some j
  | j, b :: p =>
    if (node j).leaf then none
    else follow node (if b then (node j).right.toNat else (node j).left.toNat) p

/-- The codeword `p` leads from ROOT to leaf `j` (43_codebook.md rule R181). -/
def leadsTo (s : State) (p : List Bool) (j : Nat) : Prop :=
  p ≠ [] ∧ follow (nodeAt s) s.root.toNat p = some j ∧ (nodeAt s j).leaf = true

/-- The payload DECODE walks: the stream after its padding (45_unpack.md rules R211, R212). -/
def payloadBits (s : State) : List Bool :=
  (streamBits s s.packLen.toNat).drop (payloadStart (streamBits s s.packLen.toNat))

/-- The "On error" effects of ENC_SYM (44_pack.md rule R195). -/
def encodeAborted (s : State) : State := { s with enc := .idle, payload := [], encBits := 0 }

/-- The "On error" effects of DECODE (R216): OUT_LEN is 0 and every byte of OUT is a fresh draw (log entry 2). -/
def outputFailed (s : State) : State :=
  { s with outLen := 0, out := [], outDraw := s.draws, draws := s.draws + 1 }

/-- The errors a command can raise (60_exceptions.md rule R233). -/
def errorsOf : Instr → List ErrCode
  | .nop => []
  | .clear => []
  | .ack => []
  | .count _ => [.sequence, .symbolRange, .countOverflow]
  | .analyze => [.sequence, .emptyInput, .countOverflow]
  | .build => [.sequence, .degenerateTree]
  | .gencode => [.sequence]
  | .encStart => [.sequence]
  | .encSym _ => [.sequence, .unknownSymbol, .capacity]
  | .encFinish => [.sequence]
  | .decode => [.sequence, .malformedBitstream, .capacity]

end Commands

section Invariant

/-- The memories are in canonical form. -/
def memoriesWf (s : State) : Bool :=
  Memory.wf 0 s.cfg.nsym s.freq && Memory.wf .zero s.cfg.nsym s.slist &&
    Memory.wf .zero (nodeDepth s.cfg) s.node && Memory.wf .zero s.cfg.nsym s.code &&
    Memory.rising (packDepth s.cfg) s.pack && Memory.rising (outDepth s.cfg) s.out

/-- The control state is one that host accesses and commands leave. -/
structure ControlInv (s : State) : Prop where
  /-- the configuration is an allowed one (R3-R8) -/
  config : s.cfg.wf = true
  /-- DONE is 0 from an accepted CMD write until completion (R29) -/
  busy : s.pending.isSome = true → s.done = false
  /-- ERRCODE and ERRINFO are 0 when ERR = 0 (R30) -/
  unrecorded : s.err = false → s.errcode = .noError ∧ s.errinfo = 0
  /-- a recorded error has a code of R231 other than NONE, and IO_FAILURE is never raised (R232) -/
  recorded : s.err = true → s.errcode ≠ .noError ∧ s.errcode ≠ .ioFailure
  /-- ENC = ACTIVE implies PHASE = CODED (R28) and ENC_BITS = |PAYLOAD| (R41) -/
  active : s.enc = .active → s.phase = .coded ∧ s.encBits.toNat = s.payload.length
  /-- PAYLOAD is empty while no encode is open (R51) -/
  idle : s.enc = .idle → s.payload = []
  /-- the length of PAYLOAD never exceeds PAYLOAD_MAX (R51) -/
  payload : s.payload.length ≤ payloadMax s.cfg
  /-- the ranges of ENC_BITS, PAD, PACK_LEN and OUT_LEN (R41-R44) -/
  encBits : s.encBits.toNat ≤ payloadMax s.cfg
  pad : s.pad.toNat ≤ 8
  packLen : s.packLen.toNat ≤ packDepth s.cfg
  outLen : s.outLen.toNat ≤ outDepth s.cfg
  /-- the counters have CW bits (R4) -/
  counters : s.freq.all (fun e => decide (e.2.toNat ≤ countMax s.cfg)) = true

/-- Each stage's memories are what its command left, and nothing has changed them since (R27, R147, R168, R182). -/
structure PipelineInv (s : State) : Prop where
  /-- in OPEN nothing is sorted (R53) -/
  opened : s.phase = .opened → s.ndist = 0 ∧ s.total = 0 ∧ s.inj = false ∧ s.slist = []
  /-- before BUILD there is no tree (R38, R53) -/
  unbuilt : s.phase = .opened ∨ s.phase = .sorted → s.nnodes = 0 ∧ s.root = 0 ∧ s.node = []
  /-- before GENCODE there is no codebook (R40, R53) -/
  uncoded : s.phase ≠ .coded → s.maxlen = 0 ∧ s.code = []
  /-- SLIST, NDIST and TOTAL are those of FREQ -/
  sorted : s.phase ≠ .opened →
    (freqCounts s.cfg s.freq).sum ≠ 0 ∧ (freqCounts s.cfg s.freq).sum ≤ countMax s.cfg ∧
    s.slist = sortedList s.cfg (freqCounts s.cfg s.freq) ∧
    s.ndist = BitVec.ofNat 32 (sortedTallies (freqCounts s.cfg s.freq)).length ∧
    s.total = BitVec.ofNat 32 (freqCounts s.cfg s.freq).sum
  /-- NODE, NNODES and ROOT are those of SLIST -/
  built : s.phase = .built ∨ s.phase = .coded →
    2 ≤ s.ndist.toNat ∧
    s.node = Memory.ofList .zero ((builtPool s.cfg s.slist s.ndist.toNat).take (nodeDepth s.cfg)) ∧
    s.nnodes = BitVec.ofNat 32 (builtPool s.cfg s.slist s.ndist.toNat).length ∧
    s.root = BitVec.ofNat 32 ((builtPool s.cfg s.slist s.ndist.toNat).length - 1)
  /-- CODE and MAXLEN are those of NODE -/
  coded : s.phase = .coded →
    s.code = (codebook s.cfg s.node s.root.toNat).code ∧
    s.maxlen = BitVec.ofNat 32 (codebook s.cfg s.node s.root.toNat).longest

/-- The invariant of the machine. -/
structure Inv (s : State) : Prop where
  memories : memoriesWf s = true
  control : ControlInv s
  pipeline : PipelineInv s

end Invariant

section Facts

/-- "PHASE = OPEN implies NDIST = TOTAL = NNODES = ROOT = MAXLEN = 0, INJ = 0, and SLIST, NODE and CODE are all
zero" (R53). -/
def openFacts (s : State) : Prop :=
  s.ndist = 0 ∧ s.total = 0 ∧ s.nnodes = 0 ∧ s.root = 0 ∧ s.maxlen = 0 ∧ s.inj = false ∧
    (∀ i, slistAt s i = .zero) ∧ (∀ j, nodeAt s j = .zero) ∧ (∀ i, codeAt s i = .zero)

/-- The facts of R53 for PHASE >= SORTED: NDIST, TOTAL, and the order of R140 on SLIST[0..NDIST). -/
def sortedFacts (s : State) : Prop :=
  1 ≤ s.ndist.toNat ∧ s.ndist.toNat ≤ s.cfg.nsym ∧
    s.total.toNat = ((List.range s.cfg.nsym).map fun i => (freqAt s i).toNat).sum ∧
    s.ndist.toNat = (List.range s.cfg.nsym).countP (fun i => freqAt s i ≠ 0) ∧
    ∀ i j, i < j → j < s.ndist.toNat →
      (slistAt s i).cnt.toNat < (slistAt s j).cnt.toNat ∨
        ((slistAt s i).cnt = (slistAt s j).cnt ∧ (slistAt s i).sym.toNat < (slistAt s j).sym.toNat)

/-- The facts of R53 for PHASE >= BUILT. -/
def builtFacts (s : State) : Prop :=
  2 ≤ s.ndist.toNat ∧ s.nnodes.toNat = 2 * s.ndist.toNat - 1 ∧ s.root.toNat = s.nnodes.toNat - 1 ∧
    (nodeAt s s.root.toNat).cnt = s.total

/-- The facts of R53 for PHASE = CODED: CODE is valid exactly for the symbols of SLIST, with lengths in range. -/
def codedFacts (s : State) : Prop :=
  (∀ i, i < s.cfg.nsym →
    ((codeAt s i).valid = true ↔ ∃ k, k < s.ndist.toNat ∧ (slistAt s k).sym.toNat = i)) ∧
  (∀ i, (codeAt s i).valid = true →
    1 ≤ (codeAt s i).len.toNat ∧ (codeAt s i).len.toNat ≤ s.maxlen.toNat) ∧
  s.maxlen.toNat ≤ s.ndist.toNat - 1

end Facts

section SafeRuns

/-- A run of `k` steps that never stops: no host access of it is one the spec gives no meaning to (R71). -/
def Safe : Nat → State → Prop
  | 0, _ => True
  | k + 1, s => ∃ t, step s = .next t ∧ Safe k t

/-- A script all of whose host accesses are 32-bit and aligned, as "a conforming host" issues them (R71). -/
def conforming (p : List Input) : Bool :=
  p.all fun i => match i with
    | .read width off => width == .word && off.toNat % 4 == 0
    | .write width off _ => width == .word && off.toNat % 4 == 0
    | .wait => true
    | .waitIrq => true
    | .engine => true
    | .reset => true

end SafeRuns

end Sys2Proof.Machine
end

