-- ==== Sys2Proof/Certificates/Slice0/Obligations.lean ====
section
/-! DEFINITION. The statements for the provers. -/

open Sys2Proof Sys2Proof.Machine

section Encoding

/-- Decode and encode agree: no bit of an encoding is dropped (30_encoding.md rules R100, R106). -/
def Obligations.EncodedCommandsDecodeToThemselves : Prop :=
  ∀ i : Instr, decodeWord (encode i) = some i

/-- Each word is at most one command's: a decoded word is the encoding of what it decodes to
(30_encoding.md rules R101, R103). -/
def Obligations.DecodedWordsEncodeToThemselves : Prop :=
  ∀ (w : Word) (i : Instr), decodeWord w = some i → encode i = w

/-- The decoder is the opcode map read by `match` and `mask`; the rows do not overlap, each has one OP value, and a
word that matches no row is illegal (30_encoding.md rules R101, R108). -/
def Obligations.DecoderFollowsTheOpcodeMap : Prop :=
  ∀ w : Word,
    (∀ r ∈ opcodeMap, r.selects w = true →
      decodeWord w = some (r.mnemonic.command (symField w)) ∧ opField w = r.mnemonic.op ∧
      ∀ r' ∈ opcodeMap, r'.selects w = true → r' = r) ∧
    ((∀ r ∈ opcodeMap, r.selects w = false) → decodeWord w = none)

/-- Words written out from 30_encoding.md rules R101, R104 and R106. -/
def Obligations.SpecWordsDecode : Prop :=
  decodeWord 0x00000000 = some .nop ∧ decodeWord 0x10000061 = some (.count 0x61) ∧
    decodeWord 0x20000000 = some .build ∧ decodeWord 0x30000000 = some .gencode ∧
    decodeWord 0x4100007A = some (.encSym 0x7A) ∧ decodeWord 0x50000000 = some .decode ∧
    decodeWord 0x00000001 = none ∧ decodeWord 0x10000100 = none ∧ decodeWord 0x03000000 = none

end Encoding

section Steps

/-- At the engine's turn, a step runs the command the pending word decodes to, past the error gate
(40_control.md rule R121). That a word placed by `withFetchWord` is the next to run is the model's own choice (DESIGN
CHOICE, log entry 6): `withFetchWord` stands for an accepted CMD write, since HFS fetches nothing (R90). Whose turn it
is, is log entry 5. -/
def Obligations.StepRunsTheDecodedCommand : Prop :=
  (∀ (s : State) (w : Word) (i : Instr), enginesTurn s = true → s.pending = some w → decodeWord w = some i →
    (s.err = false ∨ w = 0x00000000 ∨ w = 0x01000000 ∨ w = 0x02000000) →
    step s = exec i (turnTaken s)) ∧
  ∀ (s : State) (nbits w : Nat) (i : Instr), decodeTableWord nbits w = some i → s.err = false →
    step (s.withFetchWord nbits w) = exec i { s with pending := some (BitVec.ofNat 32 (w % 2 ^ nbits)) }

/-- The engine's step (40_control.md rule R121): with an error recorded a word other than NOP, CLEAR and ACK is
dropped; otherwise an illegal word raises ILLEGAL_COMMAND, and any other runs its rule. What a turn does without a
pending word is the model's own choice (DESIGN CHOICE, log entry 5): the turn is taken and nothing else changes, and a
host that waits for an IRQ goes on waiting. -/
def Obligations.EngineStepGatesThenRuns : Prop :=
  ∀ s : State, enginesTurn s = true →
    (∀ w, s.pending = some w →
      (s.err = true → w ≠ 0x00000000 → w ≠ 0x01000000 → w ≠ 0x02000000 →
        step s = .next (completed (turnTaken s))) ∧
      (s.err = false → decodeWord w = none →
        step s = .next (completed (withError .illegalCommand w (turnTaken s)))) ∧
      (∀ i, (s.err = false ∨ w = 0x00000000 ∨ w = 0x01000000 ∨ w = 0x02000000) → decodeWord w = some i →
        step s = exec i (turnTaken s))) ∧
    (s.pending = none →
      step s = .next { s with script := if s.script.head? = some .waitIrq then s.script else s.script.tail })

/-- A pending command is executed in one step, which always completes (40_control.md rules R122, R123). -/
def Obligations.EveryPendingCommandCompletes : Prop :=
  ∀ (s : State) (w : Word), enginesTurn s = true → s.pending = some w →
    ∃ t, step s = .next t ∧ t.pending = none ∧ t.done = true ∧ t.script = (turnTaken s).script

/-- Offset bits [1:0] are ignored and a narrow or misaligned host access is refused (20_memory.md rule R71); a step
never faults (40_control.md rule R123, 60_exceptions.md rule R238). That the refusal comes at the access's turn, and
which of the two it is, is the model's own choice (DESIGN CHOICE, log entry 13). -/
def Obligations.StepStopsOnlyAtForbiddenAccesses : Prop :=
  (∀ off off' : Offset, off.toNat / 4 = off'.toNat / 4 → decodeOffset off = decodeOffset off') ∧
  ∀ s : State,
    (∀ f, step s ≠ .fault f) ∧
    ∀ r, step s = .refused r ↔
      ∃ width off, (s.script.head? = some (.read width off) ∨ ∃ v, s.script.head? = some (.write width off v)) ∧
        ((width ≠ .word ∧ r = .narrowAccess) ∨
          (width = .word ∧ off.toNat % 4 ≠ 0 ∧ r = .misalignedAccess))

/-- Each aligned 32-bit host access is one step of its own (20_memory.md rules R84, R87), and a wait that is over is
one step that changes nothing else (R88; that it is a turn of its own is DESIGN CHOICE, log entry 5). -/
def Obligations.StepPerformsHostAccesses : Prop :=
  ∀ (s : State) (off : Offset) (v : Word) (rest : List Input), off.toNat % 4 = 0 →
    (s.script = .write .word off v :: rest → step s = .next (hostWrite off v { s with script := rest })) ∧
    (s.script = .read .word off :: rest → step s = .next (hostRead off { s with script := rest })) ∧
    (s.script = .wait :: rest → busy s = false → step s = .next { s with script := rest }) ∧
    (s.script = .waitIrq :: rest → irq s = true → step s = .next { s with script := rest })

/-- A conforming host's program never stops (20_memory.md rule R71, 40_control.md rule R123). -/
def Obligations.ConformingScriptsRunSafely : Prop :=
  ∀ (k : Nat) (s : State), conforming s.script = true → Safe k s

/-- The configuration is constant: no step changes it (10_state.md rules R22, R32). -/
def Obligations.ConfigurationIsConstant : Prop :=
  ∀ s t : State, step s = .next t → t.cfg = s.cfg

end Steps

section Host

/-- A CMD write while idle latches the word and clears DONE; while busy it is a BUSY_VIOLATION and PENDING and DONE
are unchanged (40_control.md rule R120). -/
def Obligations.CmdWriteIssuesOrIsRefused : Prop :=
  ∀ (s : State) (w : Word),
    (busy s = false → hostWrite 0x008 w s = { s with pending := some w, done := false }) ∧
    (busy s = true → hostWrite 0x008 w s = refusal .busyViolation 0x008 s)

/-- While BUSY = 1, writes to CMD, PACK_LEN, a FREQ slot below NSYM and a PACK slot below PACK_DEPTH are refused,
a write to INTEN is performed, and every other write is ignored (20_memory.md rule R85). -/
def Obligations.BusyWritesAreRefused : Prop :=
  ∀ (s : State) (off : Offset) (v : Word), s.cfg.wf = true → busy s = true →
    let a := wordOffset off
    let guarded := a = 0x008 ∨ a = 0x038 ∨ (0x1000 ≤ a ∧ a < 0x1000 + 4 * s.cfg.nsym) ∨
      (0x100000 ≤ a ∧ a < 0x100000 + 4 * packDepth s.cfg)
    (guarded → hostWrite off v s = refusal .busyViolation off s) ∧
    (a = 0x018 → hostWrite off v s = { s with inten := v.extractLsb' 0 2 }) ∧
    (¬ guarded → a ≠ 0x018 → hostWrite off v s = s)

/-- A host read changes nothing of HFS, so it is idempotent (an unspecified read is a fresh draw each time), and only
a write to CMD starts work (20_memory.md rule R83). -/
def Obligations.ReadsHaveNoSideEffect : Prop :=
  ∀ (s : State) (off : Offset),
    hostRead off s =
      { s with noted := memRead s off :: s.noted, draws := (hostRead off s).draws } ∧
    (∀ off', busy s = false ∨ wordOffset off' < 0x01C ∨ unmappedOffset (wordOffset off') →
      memRead (hostRead off s) off' = memRead s off') ∧
    ∀ v, wordOffset off ≠ 0x008 → (hostWrite off v s).pending = s.pending

/-- While BUSY = 1 the seven control registers read their values, which are those read while idle but for BUSY itself
in STATUS, an unmapped offset reads 0, and every other read is a fresh free draw (20_memory.md rules R74, R86; the
draw stands for "unspecified", and at a slot past a memory's depth it is DEDUCED, log entry 3). -/
def Obligations.BusyReadsAreControlRegistersOrDraws : Prop :=
  ∀ (s : State) (off : Offset), busy s = true →
    (wordOffset off < 0x01C →
      memRead s off = memRead { s with pending := none } off ||| if wordOffset off = 0x00C then 1 else 0) ∧
    (unmappedOffset (wordOffset off) → memRead s off = 0) ∧
    (0x01C ≤ wordOffset off → ¬ unmappedOffset (wordOffset off) →
      memRead s off = Config.freeWord s.draws ∧ (hostRead off s).draws = s.draws + 1)

/-- The registers at their offsets (10_state.md rules R23, R30, R31, R33, R36-R44): ID, CMD, ERRCODE and ERRINFO read
in every state, the datapath registers while idle. ERRCODE reads the number of 60_exceptions.md rule R231. -/
def Obligations.RegistersReadAtTheirOffsets : Prop :=
  ∀ s : State,
    memRead s 0x000 = 0x48465331 ∧ memRead s 0x008 = 0 ∧
    memRead s 0x010 = (match s.errcode with
      | .noError => 0x00
      | .emptyInput => 0x01
      | .malformedBitstream => 0x02
      | .unknownSymbol => 0x03
      | .ioFailure => 0x04
      | .illegalCommand => 0x10
      | .sequence => 0x11
      | .symbolRange => 0x12
      | .countOverflow => 0x13
      | .degenerateTree => 0x14
      | .capacity => 0x15
      | .busyViolation => 0x16
      | .access => 0x17) ∧
    memRead s 0x014 = s.errinfo ∧
    (busy s = false →
      memRead s 0x01C = s.ndist ∧ memRead s 0x020 = s.total ∧ memRead s 0x024 = s.nnodes ∧
      memRead s 0x028 = s.root ∧ memRead s 0x02C = s.maxlen ∧ memRead s 0x030 = s.encBits ∧
      memRead s 0x034 = s.pad ∧ memRead s 0x038 = s.packLen ∧ memRead s 0x03C = s.outLen)

/-- PARAM reports the configuration, field by field, reserved bits 0; writes are ignored (10_state.md rule R32). -/
def Obligations.ParamReportsTheConfiguration : Prop :=
  (∀ s : State, s.cfg.wf = true →
    let p := memRead s 0x004
    p.getLsbD 0 = decide (s.cfg.nsym = 256) ∧
    p.getLsbD 1 = decide (s.cfg.weightMode = .count) ∧
    p.getLsbD 2 = decide (s.cfg.trigger = .totalOne) ∧
    (p.extractLsb' 4 5).toNat = s.cfg.cw - 1 ∧
    (p.extractLsb' 16 5).toNat = s.cfg.packLog2 ∧
    (p.extractLsb' 24 5).toNat = s.cfg.outLog2 ∧
    p.extractLsb' 3 1 = 0 ∧ p.extractLsb' 9 7 = 0 ∧ p.extractLsb' 21 3 = 0 ∧ p.extractLsb' 29 3 = 0 ∧
    ∀ v, hostWrite 0x004 v s = s) ∧
  memRead State.reset 0x004 = 0x101001F0

/-- STATUS reads the flags, the phase and the encoder state, BUSY exactly while a command is pending and IRQ as its
equation says; it is 0 after reset and writes to it are ignored (10_state.md rules R25, R26, R35). -/
def Obligations.StatusReportsTheState : Prop :=
  (∀ s : State,
    let w := memRead s 0x00C
    w.getLsbD 0 = decide (s.pending ≠ none) ∧
    w.getLsbD 1 = s.done ∧
    w.getLsbD 2 = s.err ∧
    w.getLsbD 3 = ((s.done && s.inten.getLsbD 0) || (s.err && s.inten.getLsbD 1)) ∧
    irq s = w.getLsbD 3 ∧
    w.extractLsb' 4 2 = (match s.phase with | .opened => 0 | .sorted => 1 | .built => 2 | .coded => 3) ∧
    w.getLsbD 6 = decide (s.enc = .active) ∧
    w.getLsbD 7 = s.inj ∧
    w.extractLsb' 8 24 = 0 ∧
    ∀ v, hostWrite 0x00C v s = s) ∧
  memRead State.reset 0x00C = 0

/-- INTEN may be written at any time, only bits [1:0] are kept and read back, CLEAR does not change it, and it is 0
after reset (10_state.md rule R34). -/
def Obligations.IntenIsAlwaysWritable : Prop :=
  (∀ (s : State) (v : Word),
    hostWrite 0x018 v s = { s with inten := v.extractLsb' 0 2 } ∧
    memRead (hostWrite 0x018 v s) 0x018 = v &&& 3) ∧
  (∀ s t : State, exec .clear s = .next t → t.inten = s.inten) ∧
  State.reset.inten = 0

/-- The FREQ window (20_memory.md rule R76). -/
def Obligations.FreqWindowReadsAndWrites : Prop :=
  ∀ (s : State) (i : Nat) (v : Word), s.cfg.wf = true → i < 256 →
    let off : Offset := BitVec.ofNat 22 (0x001000 + 4 * i)
    (busy s = false → memRead s off = if i < s.cfg.nsym then freqAt s i else 0) ∧
    (s.cfg.nsym ≤ i → hostWrite off v s = s) ∧
    (i < s.cfg.nsym → busy s = true → hostWrite off v s = refusal .busyViolation off s) ∧
    (i < s.cfg.nsym → busy s = false → s.phase ≠ .opened → hostWrite off v s = refusal .access off s) ∧
    (i < s.cfg.nsym → busy s = false → 2 ^ s.cfg.cw ≤ v.toNat → hostWrite off v s = refusal .access off s) ∧
    (i < s.cfg.nsym → busy s = false → s.phase = .opened → v.toNat < 2 ^ s.cfg.cw →
      hostWrite off v s = { s with freq := (hostWrite off v s).freq } ∧
      freqAt (hostWrite off v s) i = v ∧ ∀ j, j ≠ i → freqAt (hostWrite off v s) j = freqAt s j)

/-- The PACK window and PACK_LEN (20_memory.md rule R80). -/
def Obligations.PackWindowReadsAndWrites : Prop :=
  ∀ (s : State) (v : Word), s.cfg.wf = true →
    (∀ i, i < 2 ^ 18 →
      let off : Offset := BitVec.ofNat 22 (0x100000 + 4 * i)
      (busy s = false → memRead s off = if i < packDepth s.cfg then (packAt s i).zeroExtend 32 else 0) ∧
      (packDepth s.cfg ≤ i → hostWrite off v s = s) ∧
      (i < packDepth s.cfg → busy s = true → hostWrite off v s = refusal .busyViolation off s) ∧
      (i < packDepth s.cfg → busy s = false → s.enc = .active → hostWrite off v s = refusal .access off s) ∧
      (i < packDepth s.cfg → busy s = false → s.enc = .idle →
        hostWrite off v s = { s with pack := (hostWrite off v s).pack } ∧
        packAt (hostWrite off v s) i = v.extractLsb' 0 8 ∧
        ∀ j, j ≠ i → packAt (hostWrite off v s) j = packAt s j)) ∧
    (busy s = true → hostWrite 0x038 v s = refusal .busyViolation 0x038 s) ∧
    (busy s = false → s.enc = .active → hostWrite 0x038 v s = refusal .access 0x038 s) ∧
    (busy s = false → packDepth s.cfg < v.toNat → hostWrite 0x038 v s = refusal .access 0x038 s) ∧
    (busy s = false → s.enc = .idle → v.toNat ≤ packDepth s.cfg →
      hostWrite 0x038 v s = { s with packLen := v })

/-- The read-only windows SLIST, NODE, CODE and OUT, word by word while idle, and their writes
(20_memory.md rules R77, R78, R79, R81). In every state of the invariant the bits of CODE at or above MAXLEN read 0. -/
def Obligations.ReadOnlyWindowsShowTheMemories : Prop :=
  ∀ s : State, s.cfg.wf = true → busy s = false →
    (∀ i, i < 256 →
      let at' := fun k : Nat => memRead s (BitVec.ofNat 22 (0x002000 + 16 * i + 4 * k))
      let e := slistAt s i
      if i < s.cfg.nsym then
        at' 0 = e.sym.zeroExtend 32 ∧ at' 1 = e.cnt ∧ at' 2 = e.w.extractLsb' 0 32 ∧
        at' 3 = e.w.extractLsb' 32 32
      else ∀ k, k < 4 → at' k = 0) ∧
    (∀ j, j < 512 →
      let at' := fun k : Nat => memRead s (BitVec.ofNat 22 (0x004000 + 32 * j + 4 * k))
      let n := nodeAt s j
      if j < nodeDepth s.cfg then
        (at' 0).getLsbD 31 = n.leaf ∧ (at' 0).extractLsb' 8 23 = 0 ∧ (at' 0).extractLsb' 0 8 = n.sym ∧
        at' 1 = n.left.zeroExtend 32 ∧ at' 2 = n.right.zeroExtend 32 ∧ at' 3 = n.cnt ∧
        at' 4 = n.w.extractLsb' 0 32 ∧ at' 5 = n.w.extractLsb' 32 32 ∧ at' 6 = 0 ∧ at' 7 = 0
      else ∀ k, k < 8 → at' k = 0) ∧
    (∀ i, i < 256 →
      let at' := fun k : Nat => memRead s (BitVec.ofNat 22 (0x008000 + 64 * i + 4 * k))
      let e := codeAt s i
      if i < s.cfg.nsym then
        (at' 0).getLsbD 31 = e.valid ∧ (at' 0).extractLsb' 8 23 = 0 ∧ (at' 0).extractLsb' 0 8 = e.len ∧
        (∀ k, k < 8 → ∀ b, b < 32 → (at' (k + 1)).getLsbD b = e.v.getLsbD (32 * k + b)) ∧
        (Inv s → ∀ k, k < 8 → ∀ b, b < 32 → s.cfg.nsym - 1 ≤ 32 * k + b → (at' (k + 1)).getLsbD b = false) ∧
        ∀ k, 9 ≤ k → k < 16 → at' k = 0
      else ∀ k, k < 16 → at' k = 0) ∧
    (∀ i, i < 2 ^ 18 →
      memRead s (BitVec.ofNat 22 (0x200000 + 4 * i)) =
        if i < outDepth s.cfg then (outAt s i).zeroExtend 32 else 0) ∧
    ∀ (off : Offset) (v : Word),
      (0x2000 ≤ off.toNat ∧ off.toNat < 0x3000) ∨ (0x4000 ≤ off.toNat ∧ off.toNat < 0xC000) ∨
        (0x200000 ≤ off.toNat ∧ off.toNat < 0x300000) → hostWrite off v s = s

/-- Writes to read-only registers and to unmapped offsets are ignored with no error, and an unmapped offset reads 0,
in every state (20_memory.md rules R74, R75). -/
def Obligations.ReadOnlyAndUnmappedWritesAreIgnored : Prop :=
  ∀ (s : State) (off : Offset) (v : Word),
    let a := wordOffset off
    (unmappedOffset a → hostWrite off v s = s ∧ memRead s off = 0) ∧
    (a < 0x40 → a ≠ 0x008 → a ≠ 0x018 → a ≠ 0x038 → hostWrite off v s = s)

/-- A CMD write before the engine's step of the pending command loses both commands: the second is refused, the first
is dropped, and only the record and DONE change (60_exceptions.md rule R237). -/
def Obligations.EarlyCmdWriteLosesBothCommands : Prop :=
  ∀ (s : State) (w w' : Word) (rest : List Input),
    s.pending = some w → s.err = false → w ≠ 0x00000000 → w ≠ 0x01000000 → w ≠ 0x02000000 →
    s.script = .write .word 0x008 w' :: .engine :: rest →
    ∃ t, step s = .next t ∧
      step t = .next (completed (withError .busyViolation 0x008 { s with script := rest }))

end Host

section Errors

/-- A recorded error stays as it is until ACK or CLEAR runs or the block is reset (60_exceptions.md rules R234, R240). -/
def Obligations.FirstErrorStaysUntilCleared : Prop :=
  ∀ s t : State, s.err = true → step s = .next t →
    (t.err = true ∧ t.errcode = s.errcode ∧ t.errinfo = s.errinfo) ∨
    ((t.err = false ∧ t.errcode = .noError ∧ t.errinfo = 0) ∧
      ((enginesTurn s = true ∧ (s.pending = some 0x01000000 ∨ s.pending = some 0x02000000)) ∨
        s.script.head? = some .reset))

/-- Every error is precise: a command that raises changes the record, DONE and PENDING, and the "On error" effects of
ENC_SYM or DECODE and nothing else; a host access that raises changes only the record (60_exceptions.md rule R235). -/
def Obligations.ErrorsArePrecise : Prop :=
  (∀ (i : Instr) (s t : State), s.err = false → exec i s = .next t → t.err = true →
    t = completed (withError t.errcode (encode i) s) ∨
    (∃ sym, i = .encSym sym ∧ (t.errcode = .unknownSymbol ∨ t.errcode = .capacity) ∧
      t = completed (encodeAborted (withError t.errcode (encode i) s))) ∨
    (i = .decode ∧ (t.errcode = .malformedBitstream ∨ t.errcode = .capacity) ∧
      t = completed (outputFailed (withError t.errcode (encode i) s)))) ∧
  ∀ (s : State) (off : Offset) (v : Word), s.err = false → (hostWrite off v s).err = true →
    hostWrite off v s = withError (hostWrite off v s).errcode (off.zeroExtend 32) s

/-- A command raises only the errors rule R233 lists for it (60_exceptions.md rules R231, R233). -/
def Obligations.OnlyListedErrorsAreRaised : Prop :=
  ∀ (i : Instr) (s t : State), s.err = false → exec i s = .next t → t.err = true →
    t.errcode ∈ errorsOf i ∧ t.errinfo = encode i

/-- The command table of 10_state.md rule R27: in a phase or encoder state the table does not list the command raises
SEQUENCE, in a listed one it does not; PHASE after success is the table's, and an error leaves it. PHASE is OPEN after
reset. -/
def Obligations.CommandsFollowThePhaseTable : Prop :=
  (∀ (i : Instr) (s t : State), s.err = false → exec i s = .next t →
    (phaseAllows s i = false → t = completed (withError .sequence (encode i) s)) ∧
    (phaseAllows s i = true → t.err = true → t.errcode ≠ .sequence) ∧
    (t.err = false → t.phase = phaseAfter s i) ∧
    (t.err = true → t.phase = s.phase)) ∧
  State.reset.phase = .opened

/-- SLIST and FREQ from SORTED on, NODE from BUILT on, and CODE in CODED are written by nothing but a return to OPEN
(41_analyze.md rule R147, 42_build.md rule R168; CLEAR and reset are the only ways back to OPEN). -/
def Obligations.PipelineMemoriesAreWriteOnce : Prop :=
  ∀ s t : State, step s = .next t → t.phase ≠ .opened →
    (s.phase ≠ .opened → t.freq = s.freq ∧ t.slist = s.slist ∧ t.ndist = s.ndist ∧ t.total = s.total) ∧
    (s.phase = .built ∨ s.phase = .coded → t.node = s.node ∧ t.nnodes = s.nnodes ∧ t.root = s.root) ∧
    (s.phase = .coded → t.code = s.code ∧ t.maxlen = s.maxlen)

end Errors

section Reset

/-- The values a reset event leaves (70_reset_and_hazards.md rule R260). PACK and OUT are unspecified: each byte is a
fresh draw (log entry 1). -/
def Obligations.ResetEventSetsEveryValue : Prop :=
  ∀ (s : State) (rest : List Input), s.script = .reset :: rest →
    ∃ t, step s = .next t ∧
      t.pending = none ∧ memRead t 0x00C = 0 ∧ t.errcode = .noError ∧ t.errinfo = 0 ∧ t.inten = 0 ∧
      irq t = false ∧ t.ndist = 0 ∧ t.total = 0 ∧ t.nnodes = 0 ∧ t.root = 0 ∧ t.maxlen = 0 ∧
      t.encBits = 0 ∧ t.pad = 0 ∧ t.packLen = 0 ∧ t.outLen = 0 ∧ t.payload = [] ∧
      (∀ i, freqAt t i = 0 ∧ slistAt t i = .zero ∧ codeAt t i = .zero ∧ nodeAt t i = .zero) ∧
      (∀ i, packAt t i = Config.freeByte s.draws i ∧ outAt t i = Config.freeByte (s.draws + 1) i) ∧
      memRead t 0x000 = memRead s 0x000 ∧ memRead t 0x004 = memRead s 0x004 ∧ t.cfg = s.cfg

/-- The state after reset satisfies the machine's invariant. -/
def Obligations.ResetSatisfiesTheInvariant : Prop := Inv State.reset

/-- CLEAR gives the state of a reset event but for INTEN, the contents of PACK and OUT, and DONE
(70_reset_and_hazards.md rule R262). -/
def Obligations.ClearIsResetButForFourThings : Prop :=
  ∀ s : State, exec .clear s = .next
    { resetEvent s with
      inten := s.inten
      pack := s.pack
      packDraw := s.packDraw
      out := s.out
      outDraw := s.outDraw
      draws := s.draws
      done := true }

end Reset

section ControlCommands

/-- NOP changes only PENDING and DONE; ACK also clears the record; CLEAR empties the pipeline, clears the record and
preserves INTEN and the contents of PACK and OUT (40_control.md rules R124, R125, R126). -/
def Obligations.ControlCommandsComplete : Prop :=
  ∀ s : State,
    exec .nop s = .next (completed s) ∧
    exec .ack s = .next (completed { s with err := false, errcode := .noError, errinfo := 0 }) ∧
    ∃ t, exec .clear s = .next t ∧ t.pending = none ∧ t.done = true ∧
      (∀ i, freqAt t i = 0 ∧ codeAt t i = .zero ∧ slistAt t i = .zero ∧ nodeAt t i = .zero) ∧
      (∀ i, packAt t i = packAt s i ∧ outAt t i = outAt s i) ∧
      t = { completed s with
        freq := t.freq, code := t.code, slist := t.slist, node := t.node
        ndist := 0, total := 0, nnodes := 0, root := 0, maxlen := 0, encBits := 0, pad := 0
        packLen := 0, outLen := 0, payload := [], phase := .opened, enc := .idle, inj := false
        err := false, errcode := .noError, errinfo := 0 }

end ControlCommands

section Sorter

/-- COUNT adds one to its symbol's counter and changes nothing else; it raises SEQUENCE, SYMBOL_RANGE and
COUNT_OVERFLOW in that order, with no other effect (41_analyze.md rule R141). -/
def Obligations.CountAddsOneOrRaises : Prop :=
  ∀ (s : State) (sym : Byte), s.cfg.wf = true →
    (s.err = false → s.phase ≠ .opened →
      exec (.count sym) s = .next (completed (withError .sequence (encode (.count sym)) s))) ∧
    (s.err = false → s.phase = .opened → s.cfg.nsym ≤ sym.toNat →
      exec (.count sym) s = .next (completed (withError .symbolRange (encode (.count sym)) s))) ∧
    (s.err = false → s.phase = .opened → sym.toNat < s.cfg.nsym →
      (freqAt s sym.toNat).toNat = 2 ^ s.cfg.cw - 1 →
      exec (.count sym) s = .next (completed (withError .countOverflow (encode (.count sym)) s))) ∧
    (s.phase = .opened → sym.toNat < s.cfg.nsym → (freqAt s sym.toNat).toNat < 2 ^ s.cfg.cw - 1 →
      ∃ t, exec (.count sym) s = .next t ∧
        (freqAt t sym.toNat).toNat = (freqAt s sym.toNat).toNat + 1 ∧
        (∀ j, j ≠ sym.toNat → freqAt t j = freqAt s j) ∧
        t = { completed s with freq := t.freq })

/-- A successful ANALYZE: INJ is set by the trigger, FREQ holds the counts after injection and TOTAL their sum,
SLIST[0..NDIST) holds every symbol with a non-zero count once, in the order of R140, with its count and its
probability `fl64(cnt / T)`, the rest of SLIST is zero, and only the listed state changes
(41_analyze.md rules R142, R143, R145, R147). -/
def Obligations.AnalyzeSortsTheCounts : Prop :=
  ∀ s : State, s.cfg.wf = true → s.phase = .opened →
    countedTotal s ≠ 0 → analysedTotal s ≤ 2 ^ s.cfg.cw - 1 →
    ∃ t, exec .analyze s = .next t ∧
      t = { completed s with
        freq := t.freq, slist := t.slist, ndist := t.ndist, total := t.total
        inj := injectionDue s, phase := .sorted } ∧
      t.total.toNat = analysedTotal s ∧
      (∀ i, (freqAt t i).toNat =
        (freqAt s i).toNat + if injectionDue s = true ∧ (i = 0x61 ∨ i = 0x62) then 1 else 0) ∧
      sortedFacts t ∧
      (∀ i, i < s.cfg.nsym → freqAt t i ≠ 0 → ∃ k, k < t.ndist.toNat ∧ (slistAt t k).sym.toNat = i) ∧
      (∀ k, k < t.ndist.toNat →
        (slistAt t k).cnt = freqAt t (slistAt t k).sym.toNat ∧ 1 ≤ (slistAt t k).cnt.toNat ∧
        (slistAt t k).w = weightOfCount (slistAt t k).cnt.toNat t.total.toNat) ∧
      ∀ k, t.ndist.toNat ≤ k → slistAt t k = .zero

/-- ANALYZE raises EMPTY_INPUT when every count is 0 and COUNT_OVERFLOW when the total after injection does not fit,
and changes nothing else then: FREQ is not injected (41_analyze.md rules R142, R144). -/
def Obligations.AnalyzeRejectsEmptyAndOverflow : Prop :=
  ∀ s : State, s.err = false → s.phase = .opened →
    ((∀ i, i < s.cfg.nsym → freqAt s i = 0) →
      exec .analyze s = .next (completed (withError .emptyInput 0x11000000 s))) ∧
    (s.cfg.wf = true → countedTotal s ≠ 0 → 2 ^ s.cfg.cw - 1 < analysedTotal s →
      exec .analyze s = .next (completed (withError .countOverflow 0x11000000 s)))

/-- When placeholders are injected, trigger by trigger (00_scope.md rule R6, 41_analyze.md rule R143). A successful
ANALYZE injects exactly when the total is 1 under TOTAL_ONE and exactly when one distinct symbol is counted under
DISTINCT_ONE, and without injection FREQ is unchanged. Under DISTINCT_ONE an input of one distinct symbol x gains one
'a' and one 'b', n is 2 when x is one of them and 3 otherwise, and every successful ANALYZE gives n >= 2. Under
TOTAL_ONE one distinct symbol with a total of 2 or more gives n = 1. -/
def Obligations.PlaceholdersGiveTwoLeaves : Prop :=
  ∀ s : State, s.cfg.wf = true → s.phase = .opened →
    (∀ t, exec .analyze s = .next t → t.phase = .sorted →
      (t.inj = true ↔ match s.cfg.trigger with
        | .totalOne => ((List.range s.cfg.nsym).map fun i => (freqAt s i).toNat).sum = 1
        | .distinctOne => ∃ x, x < s.cfg.nsym ∧ freqAt s x ≠ 0 ∧
            ∀ i, i < s.cfg.nsym → i ≠ x → freqAt s i = 0) ∧
      (t.inj = false → ∀ i, freqAt t i = freqAt s i) ∧
      (s.cfg.trigger = .distinctOne → 2 ≤ t.ndist.toNat)) ∧
    ∀ x, x < s.cfg.nsym → (∀ i, i < s.cfg.nsym → i ≠ x → freqAt s i = 0) →
      (s.cfg.trigger = .distinctOne → 1 ≤ (freqAt s x).toNat → (freqAt s x).toNat + 2 ≤ 2 ^ s.cfg.cw - 1 →
        ∃ t, exec .analyze s = .next t ∧ t.inj = true ∧
          t.ndist.toNat = (if x = 0x61 ∨ x = 0x62 then 2 else 3) ∧
          (freqAt t 0x61).toNat = (freqAt s 0x61).toNat + 1 ∧
          (freqAt t 0x62).toNat = (freqAt s 0x62).toNat + 1) ∧
      (s.cfg.trigger = .totalOne → 2 ≤ (freqAt s x).toNat → (freqAt s x).toNat ≤ 2 ^ s.cfg.cw - 1 →
        ∃ t, exec .analyze s = .next t ∧ t.inj = false ∧ t.ndist.toNat = 1)

/-- Two ANALYZE commands from equal FREQ contents with the same configuration agree (41_analyze.md rule R149). -/
def Obligations.AnalyzeIsDeterminedByFreq : Prop :=
  ∀ s s' t t' : State, s.cfg = s'.cfg → s.freq = s'.freq → s.phase = .opened → s'.phase = .opened →
    exec .analyze s = .next t → exec .analyze s' = .next t' → t.phase = .sorted → t'.phase = .sorted →
    t.slist = t'.slist ∧ t.ndist = t'.ndist ∧ t.total = t'.total ∧ t.inj = t'.inj

/-- Ascending probability is ascending count, for every total below 2^32 (41_analyze.md rule R146). -/
def Obligations.WeightOrderIsCountOrder : Prop :=
  ∀ c1 c2 total : Nat, 1 ≤ c1 → c1 ≤ total → 1 ≤ c2 → c2 ≤ total → total < 2 ^ 32 →
    (weightUnits (weightOfCount c1 total) < weightUnits (weightOfCount c2 total) ↔ c1 < c2) ∧
    (weightOfCount c1 total = weightOfCount c2 total ↔ c1 = c2)

/-- A probability is a normal binary64 value in [2^-32, 1], and 1.0 exactly when the symbol has the whole total
(41_analyze.md rule R145). -/
def Obligations.ProbabilitiesLieInTheUnitInterval : Prop :=
  ∀ c total : Nat, 1 ≤ c → c ≤ total → total < 2 ^ 32 →
    let w := weightOfCount c total
    w.getLsbD 63 = false ∧ 0 < (w.extractLsb' 52 11).toNat ∧ (w.extractLsb' 52 11).toNat < 2047 ∧
    2 ^ 1042 ≤ weightUnits w ∧ weightUnits w ≤ 2 ^ 1074 ∧ (w = 0x3FF0000000000000 ↔ c = total)

/-- `fl64` is round-to-nearest, ties to even: no finite binary64 value is nearer to n/d, and where one is as near the
result's last significand bit is 0 (00_scope.md rule R13). Values are in units of 2^-1074. -/
def Obligations.Fl64IsNearestTiesToEven : Prop :=
  ∀ n d : Nat, 0 < d → n ≤ d * weightUnits 0x7FEFFFFFFFFFFFFF →
    let x := fl64 n d
    x.toNat < 0x7FF0000000000000 ∧
    ∀ y : Binary64, y.toNat < 0x7FF0000000000000 →
      ((n : Int) - d * weightUnits x).natAbs ≤ ((n : Int) - d * weightUnits y).natAbs ∧
      (((n : Int) - d * weightUnits x).natAbs = ((n : Int) - d * weightUnits y).natAbs → y ≠ x →
        x.getLsbD 0 = false)

end Sorter

section Tree

/-- A successful BUILD: the leaves are the SLIST entries in order, each internal node has two children of smaller index
and their summed weight and count, every node but ROOT is the child of exactly one internal node, the rest of the
pool is zero, and only the listed state changes (42_build.md rules R160, R161, R164, R165, R168, R169). The summed
count is stored in CW bits (DEDUCED, log entry 7), and in every state of the invariant it is the exact sum of R164.
Which nodes are merged is stated in BuildMergesTheFrontsOfTheQueues. -/
def Obligations.BuildMakesAStrictBinaryTree : Prop :=
  ∀ s : State, s.cfg.wf = true → s.phase = .sorted → 2 ≤ s.ndist.toNat → s.ndist.toNat ≤ s.cfg.nsym →
    ∃ t, exec .build s = .next t ∧
      t = { completed s with node := t.node, nnodes := t.nnodes, root := t.root, phase := .built } ∧
      t.nnodes.toNat = 2 * s.ndist.toNat - 1 ∧ t.root.toNat = 2 * s.ndist.toNat - 2 ∧
      (∀ i, i < s.ndist.toNat →
        nodeAt t i = ⟨true, (slistAt s i).sym, 0, 0, (slistAt s i).cnt, (slistAt s i).w⟩) ∧
      (∀ j, s.ndist.toNat ≤ j → j < t.nnodes.toNat →
        let n := nodeAt t j
        n.leaf = false ∧ n.sym = 0x00 ∧ n.left.toNat < j ∧ n.right.toNat < j ∧ n.left ≠ n.right ∧
        n.cnt.toNat =
          ((nodeAt t n.left.toNat).cnt.toNat + (nodeAt t n.right.toNat).cnt.toNat) % 2 ^ s.cfg.cw ∧
        (Inv s →
          n.cnt.toNat = (nodeAt t n.left.toNat).cnt.toNat + (nodeAt t n.right.toNat).cnt.toNat) ∧
        n.w = weightSum (nodeAt t n.left.toNat).w (nodeAt t n.right.toNat).w) ∧
      (∀ k, k < t.root.toNat →
        ∃! j, s.ndist.toNat ≤ j ∧ j < t.nnodes.toNat ∧
          ((nodeAt t j).left.toNat = k ∨ (nodeAt t j).right.toNat = k)) ∧
      ∀ j, t.nnodes.toNat ≤ j → nodeAt t j = .zero

/-- Which nodes BUILD merges: the children of each internal node are the nodes that two calls of `take()` return, left
first, source before target on equal keys, by the key of the weight mode (42_build.md rules R160, R161, R162, R166,
R170). `heads k` are the queues' heads after `k` calls. -/
def Obligations.BuildMergesTheFrontsOfTheQueues : Prop :=
  ∀ s : State, s.cfg.wf = true → s.phase = .sorted → 2 ≤ s.ndist.toNat → s.ndist.toNat ≤ s.cfg.nsym →
    ∃ t, exec .build s = .next t ∧ t.phase = .built ∧
      ∃ heads : Nat → Nat × Nat, heads 0 = (0, s.ndist.toNat) ∧
        (∀ m, m + 1 < s.ndist.toNat →
          takes t s.ndist.toNat (s.ndist.toNat + m) (heads (2 * m)) (heads (2 * m + 1))
            (nodeAt t (s.ndist.toNat + m)).left.toNat ∧
          takes t s.ndist.toNat (s.ndist.toNat + m) (heads (2 * m + 1)) (heads (2 * m + 2))
            (nodeAt t (s.ndist.toNat + m)).right.toNat) ∧
        heads (2 * (s.ndist.toNat - 1)) = (s.ndist.toNat, 2 * s.ndist.toNat - 2)

/-- With n = 1 BUILD raises DEGENERATE_TREE and builds nothing (42_build.md rules R160, R167). -/
def Obligations.BuildRejectsASingleEntry : Prop :=
  ∀ s : State, s.err = false → s.phase = .sorted → s.ndist = 1 →
    exec .build s = .next (completed (withError .degenerateTree 0x20000000 s))

/-- Internal nodes are created in non-decreasing key order, in both weight modes (42_build.md rule R169 (d)). -/
def Obligations.InternalKeysNeverDecrease : Prop :=
  ∀ s : State, Inv s → s.phase = .built ∨ s.phase = .coded →
    ∀ j, s.ndist.toNat ≤ j → j + 1 < s.nnodes.toNat →
      mergeKey s j ≤ mergeKey s (j + 1)

end Tree

section Codebook

/-- A successful GENCODE changes only CODE, MAXLEN and the phase. From a state of the invariant, each leaf's symbol gets
the path from ROOT to it as its codeword, and every other CODE entry is zero (43_codebook.md rules R180-R182). -/
def Obligations.GencodeRecordsThePaths : Prop :=
  ∀ s : State, s.phase = .built →
    ∃ t, exec .gencode s = .next t ∧
      t = { completed s with code := t.code, maxlen := t.maxlen, phase := .coded } ∧
      (Inv s →
        (∀ k, k < s.ndist.toNat →
          (codeAt t (slistAt s k).sym.toNat).valid = true ∧
          leadsTo s (codeword (codeAt t (slistAt s k).sym.toNat)) k ∧
          (codeword (codeAt t (slistAt s k).sym.toNat)).length =
            (codeAt t (slistAt s k).sym.toNat).len.toNat ∧
          (codeAt t (slistAt s k).sym.toNat).len.toNat ≤ t.maxlen.toNat) ∧
        (∃ k, k < s.ndist.toNat ∧ (codeAt t (slistAt s k).sym.toNat).len.toNat = t.maxlen.toNat) ∧
        ∀ i, (∀ k, k < s.ndist.toNat → (slistAt s k).sym.toNat ≠ i) → codeAt t i = .zero)

/-- No codeword is a prefix of another, and the lengths satisfy the Kraft equality (43_codebook.md rule R184). -/
def Obligations.CodebookIsPrefixFree : Prop :=
  ∀ s : State, Inv s → s.phase = .coded →
    (∀ i j, i ≠ j → (codeAt s i).valid = true → (codeAt s j).valid = true →
      ¬ codeword (codeAt s i) <+: codeword (codeAt s j)) ∧
    ((List.range s.cfg.nsym).map fun i =>
      if (codeAt s i).valid then 2 ^ (255 - (codeAt s i).len.toNat) else 0).sum = 2 ^ 255

end Codebook

section Packer

/-- ENC_START opens an encode, or raises SEQUENCE (44_pack.md rule R190). -/
def Obligations.EncStartOpensAnEncode : Prop :=
  ∀ s : State,
    (s.phase = .coded → s.enc = .idle →
      exec .encStart s = .next { completed s with
        payload := [], encBits := 0, packLen := 0, pad := 0, enc := .active }) ∧
    (s.err = false → s.phase ≠ .coded ∨ s.enc = .active →
      exec .encStart s = .next (completed (withError .sequence 0x40000000 s)))

/-- ENC_SYM appends the codeword of its symbol; it raises SEQUENCE without another effect, and UNKNOWN_SYMBOL and
CAPACITY with the abort of the encode (44_pack.md rules R191, R195). -/
def Obligations.EncSymAppendsOrAborts : Prop :=
  ∀ (s : State) (sym : Byte), s.cfg.wf = true →
    let e := codeAt s sym.toNat
    let w := encode (.encSym sym)
    (s.phase = .coded → s.enc = .active → sym.toNat < s.cfg.nsym → e.valid = true →
      s.payload.length + e.len.toNat ≤ payloadMax s.cfg →
      ∃ t, exec (.encSym sym) s = .next t ∧
        t.payload = s.payload ++ (List.range e.len.toNat).map (fun k => e.v.getLsbD (e.len.toNat - 1 - k)) ∧
        t.encBits.toNat = t.payload.length ∧
        t = { completed s with payload := t.payload, encBits := t.encBits }) ∧
    (s.err = false →
      (s.phase ≠ .coded ∨ s.enc = .idle →
        exec (.encSym sym) s = .next (completed (withError .sequence w s))) ∧
      (s.phase = .coded → s.enc = .active → s.cfg.nsym ≤ sym.toNat ∨ e.valid = false →
        exec (.encSym sym) s = .next (completed (encodeAborted (withError .unknownSymbol w s)))) ∧
      (s.phase = .coded → s.enc = .active → sym.toNat < s.cfg.nsym → e.valid = true →
        payloadMax s.cfg < s.payload.length + e.len.toNat →
        exec (.encSym sym) s = .next (completed (encodeAborted (withError .capacity w s)))))

/-- ENC_FINISH publishes the padded payload: `0^(pad-1) ++ "1" ++ PAYLOAD`, packed most significant bit first into
PACK[0..N), with N, PAD and PACK_LEN as R192 says; PACK past N and all other state is unchanged. Where no encode is
open it raises SEQUENCE (44_pack.md rules R192, R193, R194). -/
def Obligations.EncFinishPublishesTheStream : Prop :=
  ∀ s : State, s.cfg.wf = true →
    (s.phase = .coded → s.enc = .active → s.payload.length ≤ payloadMax s.cfg →
      ∃ t, exec .encFinish s = .next t ∧
        t = { completed s with
          pack := t.pack, packLen := t.packLen, pad := t.pad, payload := [], enc := .idle } ∧
        t.pad.toNat = 8 - s.payload.length % 8 ∧
        t.packLen.toNat = s.payload.length / 8 + 1 ∧
        (∀ i, i < t.packLen.toNat → ∀ b, b < 8 →
          (packAt t i).getLsbD (7 - b) =
            (List.replicate (t.pad.toNat - 1) false ++ [true] ++ s.payload).getD (8 * i + b) false) ∧
        ∀ i, t.packLen.toNat ≤ i → packAt t i = packAt s i) ∧
    (s.err = false → s.phase ≠ .coded ∨ s.enc = .idle →
      exec .encFinish s = .next (completed (withError .sequence 0x42000000 s)))

/-- The shape of the published stream: the lengths agree, the first 1 is at index PAD - 1, so PACK[0] is not 0 and its
highest set bit is bit 8 - PAD, and the payload follows (44_pack.md rule R196). -/
def Obligations.PublishedStreamIsSelfDescribing : Prop :=
  ∀ s t : State, s.cfg.wf = true → s.phase = .coded → s.enc = .active →
    s.payload.length ≤ payloadMax s.cfg → exec .encFinish s = .next t →
    let stream := streamBits t t.packLen.toNat
    t.packLen.toNat = s.payload.length / 8 + 1 ∧
    8 * t.packLen.toNat = s.payload.length + t.pad.toNat ∧
    1 ≤ t.pad.toNat ∧ t.pad.toNat ≤ 8 ∧
    stream.findIdx? (fun b => b) = some (t.pad.toNat - 1) ∧
    (packAt t 0).getLsbD (8 - t.pad.toNat) = true ∧
    (∀ b, 8 - t.pad.toNat < b → (packAt t 0).getLsbD b = false) ∧
    stream.drop t.pad.toNat = s.payload

/-- Padding removal undoes padding, and a padded string has a length divisible by 8 (45_unpack.md rule R218). -/
def Obligations.PaddingRemovalUndoesPadding : Prop :=
  ∀ p : List Bool,
    let padded := List.replicate (8 - p.length % 8 - 1) false ++ [true] ++ p
    padded.drop (payloadStart padded) = p ∧ payloadStart padded = 8 - p.length % 8 ∧
      padded.length % 8 = 0

end Packer

section Unpacker

/-- DECODE of a payload that is a sequence of paths from ROOT to leaves, at most OUT_DEPTH of them: OUT receives the
leaves' symbols in order, OUT_LEN and PAD are set, and nothing else changes
(45_unpack.md rules R210, R212, R213, R216). -/
def Obligations.DecodeEmitsTheLeavesOfThePaths : Prop :=
  ∀ (s : State) (paths : List (List Bool × Nat)), s.cfg.wf = true →
    s.phase = .built ∨ s.phase = .coded → s.enc = .idle → s.packLen ≠ 0 →
    (∀ e ∈ paths, leadsTo s e.1 e.2) → payloadBits s = (paths.map Prod.fst).flatten →
    paths.length ≤ outDepth s.cfg →
    ∃ t, exec .decode s = .next t ∧
      t.outLen.toNat = paths.length ∧
      (∀ k e, paths[k]? = some e → outAt t k = (nodeAt s e.2).sym) ∧
      (∀ k, paths.length ≤ k → outAt t k = outAt s k) ∧
      t.pad.toNat = payloadStart (streamBits s s.packLen.toNat) ∧
      t = { completed s with out := t.out, outLen := t.outLen, pad := t.pad }

/-- DECODE raises MALFORMED_BITSTREAM when PACK_LEN = 0 or the payload ends inside a codeword, and CAPACITY when more
than OUT_DEPTH symbols are to be emitted; OUT_LEN becomes 0, PAD is unchanged and every byte of OUT is a fresh draw
(45_unpack.md rules R214, R215, R216; the draw stands for "unspecified", log entry 2). -/
def Obligations.DecodeFlagsMalformedAndOverlong : Prop :=
  ∀ s : State, s.err = false → s.phase = .built ∨ s.phase = .coded → s.enc = .idle →
    (s.packLen = 0 →
      exec .decode s = .next (completed (outputFailed (withError .malformedBitstream 0x50000000 s)))) ∧
    (∀ (paths : List (List Bool × Nat)) (rest : List Bool), s.packLen ≠ 0 →
      (∀ e ∈ paths, leadsTo s e.1 e.2) → payloadBits s = (paths.map Prod.fst).flatten ++ rest →
      (∀ j, paths.length ≤ outDepth s.cfg → follow (nodeAt s) s.root.toNat rest = some j →
        (nodeAt s j).leaf = false → j ≠ s.root.toNat →
        exec .decode s = .next (completed (outputFailed (withError .malformedBitstream 0x50000000 s)))) ∧
      (paths.length = outDepth s.cfg + 1 →
        exec .decode s = .next (completed (outputFailed (withError .capacity 0x50000000 s))))) ∧
    ∀ i, outAt (outputFailed s) i = Config.freeByte s.draws i

/-- Round trip: when the payload of an open encode is the codewords of a text that OUT can hold, ENC_FINISH and then
DECODE give back the text (45_unpack.md rule R217). -/
def Obligations.EncodeThenDecodeGivesTheText : Prop :=
  ∀ (s : State) (text : List Byte), Inv s → s.phase = .coded → s.enc = .active →
    (∀ x ∈ text, (codeAt s x.toNat).valid = true) →
    s.payload = text.flatMap (fun x => codeword (codeAt s x.toNat)) → text.length ≤ outDepth s.cfg →
    ∃ t u, exec .encFinish s = .next t ∧ exec .decode t = .next u ∧ u.err = s.err ∧
      u.outLen.toNat = text.length ∧ u.pad = t.pad ∧
      ∀ k x, text[k]? = some x → outAt u k = x

end Unpacker

section HostPrograms

/-- A command on its own line of a host program (30_encoding.md rule R107) is three steps: the CMD write, the command,
and the end of the WAIT, after which no command is pending; a program that ends there has ended, and so has one whose
last step is a raw write (70_reset_and_hazards.md rule R270). That these are three turns is DESIGN CHOICE, log
entry 5. -/
def Obligations.CommandLinesRunTheirCommands : Prop :=
  (∀ (s : State) (i : Instr) (rest : List Input), busy s = false → s.err = false → s.script = command i ++ rest →
    ∃ a t, step s = .next a ∧ step a = .next t ∧
      exec i { s with pending := some (encode i), done := false, script := .wait :: rest } = .next t ∧
      step t = .next { t with script := rest } ∧ t.pending = none ∧ t.ended = false ∧
      State.ended { t with script := [] } = true) ∧
  ∀ (s t : State) (off : Offset) (v : Word), s.script = wr off v → s.ended = false ∧
    (step s = .next t → t.ended = true)

end HostPrograms

section Invariants

/-- Every step keeps the machine's invariant: canonical memories, the control state, and each pipeline stage's memories
as its command left them (10_state.md rule R53 and the ranges of R22). -/
def Obligations.StepKeepsTheInvariant : Prop :=
  ∀ s t : State, Inv s → step s = .next t → Inv t

/-- The facts of 10_state.md rule R53 hold in every state of the invariant. -/
def Obligations.InvariantGivesTheFactsBetweenCommands : Prop :=
  ∀ s : State, Inv s →
    (s.phase = .opened → openFacts s) ∧
    (s.phase ≠ .opened → sortedFacts s) ∧
    (s.phase = .built ∨ s.phase = .coded → builtFacts s) ∧
    (s.phase = .coded → codedFacts s) ∧
    (s.enc = .active → s.phase = .coded ∧ s.encBits.toNat = s.payload.length)

end Invariants
end

