-- ==== Sys2Proof/Laws/Memory.lean ====
section
/-! SUPPORT. The laws of the memories: a read after a write, and that every memory operation keeps the canonical
form. -/

namespace Sys2Proof.Machine.Memory
variable {α : Type}

theorem find_put_same (m : Memory α) (i : Nat) (x : α) : find (put m i x) i = some x := by
  induction m with
  | nil => simp [put, find]
  | cons e m ih =>
    obtain ⟨k, y⟩ := e
    simp only [put]
    split
    · simp [find]
    · split
      · simp [find]
      · rename_i h; simp [find, Ne.symm h, ih]

theorem find_put_other (m : Memory α) {i j : Nat} (x : α) (h : j ≠ i) :
    find (put m i x) j = find m j := by
  induction m with
  | nil => simp [put, find, Ne.symm h]
  | cons e m ih =>
    obtain ⟨k, y⟩ := e
    simp only [put]
    split
    · simp [find, Ne.symm h]
    · split
      · rename_i hk; subst hk; simp [find, Ne.symm h]
      · simp [find, ih]

theorem find_erase_same (m : Memory α) (i : Nat) : find (erase m i) i = none := by
  induction m with
  | nil => rfl
  | cons e m ih =>
    obtain ⟨k, y⟩ := e
    by_cases hk : k = i
    · subst hk; simpa [erase] using ih
    · have : erase ((k, y) :: m) i = (k, y) :: erase m i := by simp [erase, hk]
      simp [this, find, hk, ih]

theorem find_erase_other (m : Memory α) {i j : Nat} (h : j ≠ i) : find (erase m i) j = find m j := by
  induction m with
  | nil => rfl
  | cons e m ih =>
    obtain ⟨k, y⟩ := e
    by_cases hk : k = i
    · subst hk
      have : erase ((k, y) :: m) k = erase m k := by simp [erase]
      simp [this, ih, find, Ne.symm h]
    · have : erase ((k, y) :: m) i = (k, y) :: erase m i := by simp [erase, hk]
      simp [this, find, ih]

/-- A read after a write to the same entry gives the value written. -/
theorem get_set_same [DecidableEq α] (zero : α) (m : Memory α) (i : Nat) (x : α) :
    get zero (set zero m i x) i = x := by
  unfold get set
  split
  · simp [find_erase_same, *]
  · simp [find_put_same]

/-- A write leaves every other entry alone. -/
theorem get_set_other [DecidableEq α] (zero : α) (m : Memory α) {i j : Nat} (x : α) (h : j ≠ i) :
    get zero (set zero m i x) j = get zero m j := by
  unfold get set
  split
  · simp [find_erase_other m h]
  · simp [find_put_other m x h]

/-- `rising`, said of all the entries at once. -/
theorem rising_iff (depth : Nat) (m : Memory α) :
    rising depth m = true ↔ (m.map Prod.fst).Pairwise (· < ·) ∧ ∀ e ∈ m, e.1 < depth := by
  induction m with
  | nil => simp [rising]
  | cons e m ih =>
    cases m with
    | nil => simp [rising]
    | cons f m =>
      simp only [rising, Bool.and_eq_true, decide_eq_true_eq, ih]
      simp only [List.map_cons, List.pairwise_cons, List.mem_cons, List.mem_map, forall_eq_or_imp,
        forall_exists_index, and_imp, forall_apply_eq_imp_iff₂]
      constructor
      · rintro ⟨hef, ⟨hf, hp⟩, hd, hdm⟩
        exact ⟨⟨⟨hef, fun a ha => lt_trans hef (hf a ha)⟩, hf, hp⟩, by omega, hd, hdm⟩
      · rintro ⟨⟨⟨hef, -⟩, hf, hp⟩, -, hd, hdm⟩
        exact ⟨hef, ⟨hf, hp⟩, hd, hdm⟩

theorem mem_put {m : Memory α} {i : Nat} {x : α} {e : Nat × α} (h : e ∈ put m i x) :
    e = (i, x) ∨ e ∈ m := by
  induction m with
  | nil => simpa [put] using h
  | cons f m ih =>
    obtain ⟨k, y⟩ := f
    simp only [put] at h
    split at h
    · simpa using h
    · split at h
      · simp only [List.mem_cons] at h ⊢; tauto
      · simp only [List.mem_cons] at h ⊢; tauto

theorem rising_put (depth : Nat) {m : Memory α} {i : Nat} (x : α) (hm : rising depth m = true)
    (hi : i < depth) : rising depth (put m i x) = true := by
  rw [rising_iff] at hm ⊢
  refine ⟨?_, fun e he => ?_⟩
  · replace hm := hm.1
    induction m with
    | nil => simp [put]
    | cons f m ih =>
      obtain ⟨k, y⟩ := f
      simp only [List.map_cons, List.pairwise_cons] at hm
      simp only [put]
      split
      · rename_i hik
        simp only [List.map_cons, List.pairwise_cons, List.mem_cons, forall_eq_or_imp]
        exact ⟨⟨hik, fun a ha => lt_trans hik (hm.1 a ha)⟩, hm⟩
      · split
        · rename_i hik; subst hik
          simpa only [List.map_cons, List.pairwise_cons] using hm
        · simp only [List.map_cons, List.pairwise_cons]
          refine ⟨fun a ha => ?_, ih hm.2⟩
          obtain ⟨e, he, rfl⟩ := List.mem_map.1 ha
          rcases mem_put he with rfl | he
          · simp only; omega
          · exact hm.1 _ (List.mem_map.2 ⟨e, he, rfl⟩)
  · rcases mem_put he with rfl | he
    · exact hi
    · exact hm.2 e he

theorem rising_filter (depth : Nat) {m : Memory α} (p : Nat × α → Bool) (hm : rising depth m = true) :
    rising depth (m.filter p) = true := by
  rw [rising_iff] at hm ⊢
  exact ⟨hm.1.sublist (List.filter_sublist.map _), fun e he => hm.2 e (List.mem_filter.1 he).1⟩

theorem rising_erase (depth : Nat) {m : Memory α} (i : Nat) (hm : rising depth m = true) :
    rising depth (erase m i) = true := rising_filter depth _ hm

/-- Storing a non-zero entry keeps the canonical form. -/
theorem wf_put [DecidableEq α] (zero : α) (depth : Nat) {m : Memory α} {i : Nat} {x : α}
    (hm : wf zero depth m = true) (hi : i < depth) (hx : x ≠ zero) : wf zero depth (put m i x) = true := by
  simp only [wf, Bool.and_eq_true, List.all_eq_true, bne_iff_ne] at hm ⊢
  refine ⟨rising_put depth x hm.1 hi, fun e he => ?_⟩
  rcases mem_put he with rfl | he
  · exact hx
  · exact hm.2 e he

/-- Storing any entry keeps the canonical form. -/
theorem wf_set [DecidableEq α] (zero : α) (depth : Nat) {m : Memory α} {i : Nat} (x : α)
    (hm : wf zero depth m = true) (hi : i < depth) : wf zero depth (set zero m i x) = true := by
  unfold set
  split
  · simp only [wf, Bool.and_eq_true, List.all_eq_true] at hm ⊢
    exact ⟨rising_erase depth i hm.1, fun e he => hm.2 e (List.mem_filter.1 he).1⟩
  · exact wf_put zero depth hm hi ‹_›

theorem map_fst_indexed (l : List α) (k : Nat) :
    ((l.zipIdx k).map fun e => (e.2, e.1)).map Prod.fst = List.range' k l.length := by
  simp [List.map_map, Function.comp_def]

theorem rising_indexed {depth : Nat} {l : List α} (h : l.length ≤ depth) :
    rising depth (l.zipIdx.map fun e => (e.2, e.1)) = true := by
  rw [rising_iff, map_fst_indexed]
  refine ⟨List.pairwise_lt_range', fun e he => ?_⟩
  have : e.1 ∈ List.range' 0 l.length := by
    rw [← map_fst_indexed l 0]; exact List.mem_map.2 ⟨e, he, rfl⟩
  have := List.mem_range'_1.1 this
  omega

/-- A memory written whole is in canonical form. -/
theorem wf_ofList [DecidableEq α] (zero : α) {depth : Nat} {l : List α} (h : l.length ≤ depth) :
    wf zero depth (ofList zero l) = true := by
  simp only [wf, Bool.and_eq_true, List.all_eq_true]
  exact ⟨rising_filter depth _ (rising_indexed h), fun e he => (List.mem_filter.1 he).2⟩

/-- Overwriting the entries from index 0 on keeps the canonical form. -/
theorem rising_overwrite {depth : Nat} {m : Memory α} {l : List α} (hm : rising depth m = true)
    (h : l.length ≤ depth) : rising depth (overwrite m l) = true := by
  have hl := (rising_iff depth _).1 (rising_indexed h)
  have hf := (rising_iff depth _).1 (rising_filter depth (fun e => decide (l.length ≤ e.1)) hm)
  rw [rising_iff, overwrite, List.map_append, List.pairwise_append]
  refine ⟨⟨hl.1, hf.1, fun a ha b hb => ?_⟩, fun e he => ?_⟩
  · rw [map_fst_indexed, List.mem_range'_1] at ha
    obtain ⟨e, he, rfl⟩ := List.mem_map.1 hb
    have := of_decide_eq_true (List.mem_filter.1 he).2
    omega
  · rcases List.mem_append.1 he with he | he
    · exact hl.2 e he
    · exact hf.2 e he

theorem find_append (m m' : Memory α) (i : Nat) :
    find (m ++ m') i = (find m i).or (find m' i) := by
  induction m with
  | nil => simp [find]
  | cons e m ih =>
    obtain ⟨k, y⟩ := e
    simp only [List.cons_append, find]
    split <;> simp [ih]

theorem find_indexed (l : List α) (k i : Nat) :
    find ((l.zipIdx k).map fun e => (e.2, e.1)) i = if k ≤ i then l[i - k]? else none := by
  induction l generalizing k with
  | nil => simp [find]
  | cons x l ih =>
    simp only [List.zipIdx_cons, List.map_cons, find, ih]
    by_cases hk : k = i
    · subst hk; simp
    · by_cases hki : k ≤ i
      · have h1 : k + 1 ≤ i := by omega
        have h2 : i - k = (i - (k + 1)) + 1 := by omega
        simp [hk, hki, h1, h2]
      · have h1 : ¬ k + 1 ≤ i := by omega
        simp [hk, hki, h1]

theorem find_filter_index (m : Memory α) (p : Nat → Bool) (i : Nat) :
    find (m.filter fun e => p e.1) i = if p i then find m i else none := by
  induction m with
  | nil => simp [find]
  | cons e m ih =>
    obtain ⟨k, y⟩ := e
    by_cases hk : k = i
    · subst hk
      by_cases hp : p k
      · simp [hp, find]
      · simp [hp, ih]
    · by_cases hp : p k
      · simp [hp, find, hk, ih]
      · simp [hp, find, hk, ih]

/-- What an overwritten memory holds. -/
theorem find_overwrite (m : Memory α) (l : List α) (i : Nat) :
    find (overwrite m l) i = if i < l.length then l[i]? else find m i := by
  rw [overwrite, find_append, find_indexed, find_filter_index m (fun k => decide (l.length ≤ k))]
  by_cases hi : i < l.length
  · have : ¬ l.length ≤ i := by omega
    simp [hi, this]
  · have : l.length ≤ i := by omega
    simp [hi, this]

theorem find_eq_none {m : Memory α} {i : Nat} (h : i ∉ m.map Prod.fst) : find m i = none := by
  induction m with
  | nil => rfl
  | cons e m ih =>
    obtain ⟨k, y⟩ := e
    simp only [List.map_cons, List.mem_cons, not_or] at h
    simp [find, Ne.symm h.1, ih h.2]

theorem find_filter_ne [DecidableEq α] (zero : α) (m : Memory α) (hm : (m.map Prod.fst).Nodup) (i : Nat) :
    (find (m.filter fun e => e.2 != zero) i).getD zero = (find m i).getD zero := by
  induction m with
  | nil => rfl
  | cons e m ih =>
    obtain ⟨k, y⟩ := e
    simp only [List.map_cons, List.nodup_cons] at hm
    have ih := ih hm.2
    by_cases hy : y = zero
    · subst hy
      by_cases hk : k = i
      · subst hk
        simp [ih, find, find_eq_none hm.1]
      · simp [find, hk, ih]
    · by_cases hk : k = i
      · simp [hy, find, hk]
      · simp [hy, find, hk, ih]

/-- What a memory written whole holds: entry `i` of the list, and zero past it. -/
theorem get_ofList [DecidableEq α] (zero : α) (l : List α) (i : Nat) :
    get zero (ofList zero l) i = l.getD i zero := by
  have hnd : ((l.zipIdx.map fun e => (e.2, e.1)).map Prod.fst).Nodup := by
    rw [map_fst_indexed]; exact List.nodup_range'
  rw [get, ofList, find_filter_ne zero _ hnd, find_indexed]
  simp [List.getD]

end Sys2Proof.Machine.Memory
end

