-- ==== Sys2Proof/Laws/State.lean ====
section
/-! SUPPORT. One lemma per field per update of the state. -/

namespace Sys2Proof.Machine
variable (s : State)

@[simp] theorem record_pending (e : ErrCode) (i : Word) : (record e i s).pending = s.pending := rfl
@[simp] theorem record_done (e : ErrCode) (i : Word) : (record e i s).done = s.done := rfl
@[simp] theorem record_err (e : ErrCode) (i : Word) : (record e i s).err = true := rfl
@[simp] theorem record_phase (e : ErrCode) (i : Word) : (record e i s).phase = s.phase := rfl
@[simp] theorem record_enc (e : ErrCode) (i : Word) : (record e i s).enc = s.enc := rfl
@[simp] theorem record_inj (e : ErrCode) (i : Word) : (record e i s).inj = s.inj := rfl
@[simp] theorem record_errcode (e : ErrCode) (i : Word) : (record e i s).errcode = if s.err then s.errcode else e := rfl
@[simp] theorem record_errinfo (e : ErrCode) (i : Word) : (record e i s).errinfo = if s.err then s.errinfo else i := rfl
@[simp] theorem record_inten (e : ErrCode) (i : Word) : (record e i s).inten = s.inten := rfl
@[simp] theorem record_ndist (e : ErrCode) (i : Word) : (record e i s).ndist = s.ndist := rfl
@[simp] theorem record_total (e : ErrCode) (i : Word) : (record e i s).total = s.total := rfl
@[simp] theorem record_nnodes (e : ErrCode) (i : Word) : (record e i s).nnodes = s.nnodes := rfl
@[simp] theorem record_root (e : ErrCode) (i : Word) : (record e i s).root = s.root := rfl
@[simp] theorem record_maxlen (e : ErrCode) (i : Word) : (record e i s).maxlen = s.maxlen := rfl
@[simp] theorem record_encBits (e : ErrCode) (i : Word) : (record e i s).encBits = s.encBits := rfl
@[simp] theorem record_pad (e : ErrCode) (i : Word) : (record e i s).pad = s.pad := rfl
@[simp] theorem record_packLen (e : ErrCode) (i : Word) : (record e i s).packLen = s.packLen := rfl
@[simp] theorem record_outLen (e : ErrCode) (i : Word) : (record e i s).outLen = s.outLen := rfl
@[simp] theorem record_freq (e : ErrCode) (i : Word) : (record e i s).freq = s.freq := rfl
@[simp] theorem record_slist (e : ErrCode) (i : Word) : (record e i s).slist = s.slist := rfl
@[simp] theorem record_node (e : ErrCode) (i : Word) : (record e i s).node = s.node := rfl
@[simp] theorem record_code (e : ErrCode) (i : Word) : (record e i s).code = s.code := rfl
@[simp] theorem record_pack (e : ErrCode) (i : Word) : (record e i s).pack = s.pack := rfl
@[simp] theorem record_out (e : ErrCode) (i : Word) : (record e i s).out = s.out := rfl
@[simp] theorem record_payload (e : ErrCode) (i : Word) : (record e i s).payload = s.payload := rfl
@[simp] theorem record_cfg (e : ErrCode) (i : Word) : (record e i s).cfg = s.cfg := rfl
@[simp] theorem record_packDraw (e : ErrCode) (i : Word) : (record e i s).packDraw = s.packDraw := rfl
@[simp] theorem record_outDraw (e : ErrCode) (i : Word) : (record e i s).outDraw = s.outDraw := rfl
@[simp] theorem record_draws (e : ErrCode) (i : Word) : (record e i s).draws = s.draws := rfl
@[simp] theorem record_script (e : ErrCode) (i : Word) : (record e i s).script = s.script := rfl
@[simp] theorem record_noted (e : ErrCode) (i : Word) : (record e i s).noted = s.noted := rfl

@[simp] theorem clearRecord_pending : (clearRecord s).pending = s.pending := rfl
@[simp] theorem clearRecord_done : (clearRecord s).done = s.done := rfl
@[simp] theorem clearRecord_err : (clearRecord s).err = false := rfl
@[simp] theorem clearRecord_phase : (clearRecord s).phase = s.phase := rfl
@[simp] theorem clearRecord_enc : (clearRecord s).enc = s.enc := rfl
@[simp] theorem clearRecord_inj : (clearRecord s).inj = s.inj := rfl
@[simp] theorem clearRecord_errcode : (clearRecord s).errcode = .noError := rfl
@[simp] theorem clearRecord_errinfo : (clearRecord s).errinfo = 0 := rfl
@[simp] theorem clearRecord_inten : (clearRecord s).inten = s.inten := rfl
@[simp] theorem clearRecord_ndist : (clearRecord s).ndist = s.ndist := rfl
@[simp] theorem clearRecord_total : (clearRecord s).total = s.total := rfl
@[simp] theorem clearRecord_nnodes : (clearRecord s).nnodes = s.nnodes := rfl
@[simp] theorem clearRecord_root : (clearRecord s).root = s.root := rfl
@[simp] theorem clearRecord_maxlen : (clearRecord s).maxlen = s.maxlen := rfl
@[simp] theorem clearRecord_encBits : (clearRecord s).encBits = s.encBits := rfl
@[simp] theorem clearRecord_pad : (clearRecord s).pad = s.pad := rfl
@[simp] theorem clearRecord_packLen : (clearRecord s).packLen = s.packLen := rfl
@[simp] theorem clearRecord_outLen : (clearRecord s).outLen = s.outLen := rfl
@[simp] theorem clearRecord_freq : (clearRecord s).freq = s.freq := rfl
@[simp] theorem clearRecord_slist : (clearRecord s).slist = s.slist := rfl
@[simp] theorem clearRecord_node : (clearRecord s).node = s.node := rfl
@[simp] theorem clearRecord_code : (clearRecord s).code = s.code := rfl
@[simp] theorem clearRecord_pack : (clearRecord s).pack = s.pack := rfl
@[simp] theorem clearRecord_out : (clearRecord s).out = s.out := rfl
@[simp] theorem clearRecord_payload : (clearRecord s).payload = s.payload := rfl
@[simp] theorem clearRecord_cfg : (clearRecord s).cfg = s.cfg := rfl
@[simp] theorem clearRecord_packDraw : (clearRecord s).packDraw = s.packDraw := rfl
@[simp] theorem clearRecord_outDraw : (clearRecord s).outDraw = s.outDraw := rfl
@[simp] theorem clearRecord_draws : (clearRecord s).draws = s.draws := rfl
@[simp] theorem clearRecord_script : (clearRecord s).script = s.script := rfl
@[simp] theorem clearRecord_noted : (clearRecord s).noted = s.noted := rfl

@[simp] theorem complete_pending : (complete s).pending = none := rfl
@[simp] theorem complete_done : (complete s).done = true := rfl
@[simp] theorem complete_err : (complete s).err = s.err := rfl
@[simp] theorem complete_phase : (complete s).phase = s.phase := rfl
@[simp] theorem complete_enc : (complete s).enc = s.enc := rfl
@[simp] theorem complete_inj : (complete s).inj = s.inj := rfl
@[simp] theorem complete_errcode : (complete s).errcode = s.errcode := rfl
@[simp] theorem complete_errinfo : (complete s).errinfo = s.errinfo := rfl
@[simp] theorem complete_inten : (complete s).inten = s.inten := rfl
@[simp] theorem complete_ndist : (complete s).ndist = s.ndist := rfl
@[simp] theorem complete_total : (complete s).total = s.total := rfl
@[simp] theorem complete_nnodes : (complete s).nnodes = s.nnodes := rfl
@[simp] theorem complete_root : (complete s).root = s.root := rfl
@[simp] theorem complete_maxlen : (complete s).maxlen = s.maxlen := rfl
@[simp] theorem complete_encBits : (complete s).encBits = s.encBits := rfl
@[simp] theorem complete_pad : (complete s).pad = s.pad := rfl
@[simp] theorem complete_packLen : (complete s).packLen = s.packLen := rfl
@[simp] theorem complete_outLen : (complete s).outLen = s.outLen := rfl
@[simp] theorem complete_freq : (complete s).freq = s.freq := rfl
@[simp] theorem complete_slist : (complete s).slist = s.slist := rfl
@[simp] theorem complete_node : (complete s).node = s.node := rfl
@[simp] theorem complete_code : (complete s).code = s.code := rfl
@[simp] theorem complete_pack : (complete s).pack = s.pack := rfl
@[simp] theorem complete_out : (complete s).out = s.out := rfl
@[simp] theorem complete_payload : (complete s).payload = s.payload := rfl
@[simp] theorem complete_cfg : (complete s).cfg = s.cfg := rfl
@[simp] theorem complete_packDraw : (complete s).packDraw = s.packDraw := rfl
@[simp] theorem complete_outDraw : (complete s).outDraw = s.outDraw := rfl
@[simp] theorem complete_draws : (complete s).draws = s.draws := rfl
@[simp] theorem complete_script : (complete s).script = s.script := rfl
@[simp] theorem complete_noted : (complete s).noted = s.noted := rfl

@[simp] theorem emptyPipeline_pending : (emptyPipeline s).pending = s.pending := rfl
@[simp] theorem emptyPipeline_done : (emptyPipeline s).done = s.done := rfl
@[simp] theorem emptyPipeline_err : (emptyPipeline s).err = s.err := rfl
@[simp] theorem emptyPipeline_phase : (emptyPipeline s).phase = .opened := rfl
@[simp] theorem emptyPipeline_enc : (emptyPipeline s).enc = .idle := rfl
@[simp] theorem emptyPipeline_inj : (emptyPipeline s).inj = false := rfl
@[simp] theorem emptyPipeline_errcode : (emptyPipeline s).errcode = s.errcode := rfl
@[simp] theorem emptyPipeline_errinfo : (emptyPipeline s).errinfo = s.errinfo := rfl
@[simp] theorem emptyPipeline_inten : (emptyPipeline s).inten = s.inten := rfl
@[simp] theorem emptyPipeline_ndist : (emptyPipeline s).ndist = 0 := rfl
@[simp] theorem emptyPipeline_total : (emptyPipeline s).total = 0 := rfl
@[simp] theorem emptyPipeline_nnodes : (emptyPipeline s).nnodes = 0 := rfl
@[simp] theorem emptyPipeline_root : (emptyPipeline s).root = 0 := rfl
@[simp] theorem emptyPipeline_maxlen : (emptyPipeline s).maxlen = 0 := rfl
@[simp] theorem emptyPipeline_encBits : (emptyPipeline s).encBits = 0 := rfl
@[simp] theorem emptyPipeline_pad : (emptyPipeline s).pad = 0 := rfl
@[simp] theorem emptyPipeline_packLen : (emptyPipeline s).packLen = 0 := rfl
@[simp] theorem emptyPipeline_outLen : (emptyPipeline s).outLen = 0 := rfl
@[simp] theorem emptyPipeline_freq : (emptyPipeline s).freq = [] := rfl
@[simp] theorem emptyPipeline_slist : (emptyPipeline s).slist = [] := rfl
@[simp] theorem emptyPipeline_node : (emptyPipeline s).node = [] := rfl
@[simp] theorem emptyPipeline_code : (emptyPipeline s).code = [] := rfl
@[simp] theorem emptyPipeline_pack : (emptyPipeline s).pack = s.pack := rfl
@[simp] theorem emptyPipeline_out : (emptyPipeline s).out = s.out := rfl
@[simp] theorem emptyPipeline_payload : (emptyPipeline s).payload = [] := rfl
@[simp] theorem emptyPipeline_cfg : (emptyPipeline s).cfg = s.cfg := rfl
@[simp] theorem emptyPipeline_packDraw : (emptyPipeline s).packDraw = s.packDraw := rfl
@[simp] theorem emptyPipeline_outDraw : (emptyPipeline s).outDraw = s.outDraw := rfl
@[simp] theorem emptyPipeline_draws : (emptyPipeline s).draws = s.draws := rfl
@[simp] theorem emptyPipeline_script : (emptyPipeline s).script = s.script := rfl
@[simp] theorem emptyPipeline_noted : (emptyPipeline s).noted = s.noted := rfl

@[simp] theorem abortEncode_pending : (abortEncode s).pending = s.pending := rfl
@[simp] theorem abortEncode_done : (abortEncode s).done = s.done := rfl
@[simp] theorem abortEncode_err : (abortEncode s).err = s.err := rfl
@[simp] theorem abortEncode_phase : (abortEncode s).phase = s.phase := rfl
@[simp] theorem abortEncode_enc : (abortEncode s).enc = .idle := rfl
@[simp] theorem abortEncode_inj : (abortEncode s).inj = s.inj := rfl
@[simp] theorem abortEncode_errcode : (abortEncode s).errcode = s.errcode := rfl
@[simp] theorem abortEncode_errinfo : (abortEncode s).errinfo = s.errinfo := rfl
@[simp] theorem abortEncode_inten : (abortEncode s).inten = s.inten := rfl
@[simp] theorem abortEncode_ndist : (abortEncode s).ndist = s.ndist := rfl
@[simp] theorem abortEncode_total : (abortEncode s).total = s.total := rfl
@[simp] theorem abortEncode_nnodes : (abortEncode s).nnodes = s.nnodes := rfl
@[simp] theorem abortEncode_root : (abortEncode s).root = s.root := rfl
@[simp] theorem abortEncode_maxlen : (abortEncode s).maxlen = s.maxlen := rfl
@[simp] theorem abortEncode_encBits : (abortEncode s).encBits = 0 := rfl
@[simp] theorem abortEncode_pad : (abortEncode s).pad = s.pad := rfl
@[simp] theorem abortEncode_packLen : (abortEncode s).packLen = s.packLen := rfl
@[simp] theorem abortEncode_outLen : (abortEncode s).outLen = s.outLen := rfl
@[simp] theorem abortEncode_freq : (abortEncode s).freq = s.freq := rfl
@[simp] theorem abortEncode_slist : (abortEncode s).slist = s.slist := rfl
@[simp] theorem abortEncode_node : (abortEncode s).node = s.node := rfl
@[simp] theorem abortEncode_code : (abortEncode s).code = s.code := rfl
@[simp] theorem abortEncode_pack : (abortEncode s).pack = s.pack := rfl
@[simp] theorem abortEncode_out : (abortEncode s).out = s.out := rfl
@[simp] theorem abortEncode_payload : (abortEncode s).payload = [] := rfl
@[simp] theorem abortEncode_cfg : (abortEncode s).cfg = s.cfg := rfl
@[simp] theorem abortEncode_packDraw : (abortEncode s).packDraw = s.packDraw := rfl
@[simp] theorem abortEncode_outDraw : (abortEncode s).outDraw = s.outDraw := rfl
@[simp] theorem abortEncode_draws : (abortEncode s).draws = s.draws := rfl
@[simp] theorem abortEncode_script : (abortEncode s).script = s.script := rfl
@[simp] theorem abortEncode_noted : (abortEncode s).noted = s.noted := rfl

@[simp] theorem failDecode_pending : (failDecode s).pending = s.pending := rfl
@[simp] theorem failDecode_done : (failDecode s).done = s.done := rfl
@[simp] theorem failDecode_err : (failDecode s).err = s.err := rfl
@[simp] theorem failDecode_phase : (failDecode s).phase = s.phase := rfl
@[simp] theorem failDecode_enc : (failDecode s).enc = s.enc := rfl
@[simp] theorem failDecode_inj : (failDecode s).inj = s.inj := rfl
@[simp] theorem failDecode_errcode : (failDecode s).errcode = s.errcode := rfl
@[simp] theorem failDecode_errinfo : (failDecode s).errinfo = s.errinfo := rfl
@[simp] theorem failDecode_inten : (failDecode s).inten = s.inten := rfl
@[simp] theorem failDecode_ndist : (failDecode s).ndist = s.ndist := rfl
@[simp] theorem failDecode_total : (failDecode s).total = s.total := rfl
@[simp] theorem failDecode_nnodes : (failDecode s).nnodes = s.nnodes := rfl
@[simp] theorem failDecode_root : (failDecode s).root = s.root := rfl
@[simp] theorem failDecode_maxlen : (failDecode s).maxlen = s.maxlen := rfl
@[simp] theorem failDecode_encBits : (failDecode s).encBits = s.encBits := rfl
@[simp] theorem failDecode_pad : (failDecode s).pad = s.pad := rfl
@[simp] theorem failDecode_packLen : (failDecode s).packLen = s.packLen := rfl
@[simp] theorem failDecode_outLen : (failDecode s).outLen = 0 := rfl
@[simp] theorem failDecode_freq : (failDecode s).freq = s.freq := rfl
@[simp] theorem failDecode_slist : (failDecode s).slist = s.slist := rfl
@[simp] theorem failDecode_node : (failDecode s).node = s.node := rfl
@[simp] theorem failDecode_code : (failDecode s).code = s.code := rfl
@[simp] theorem failDecode_pack : (failDecode s).pack = s.pack := rfl
@[simp] theorem failDecode_out : (failDecode s).out = [] := rfl
@[simp] theorem failDecode_payload : (failDecode s).payload = s.payload := rfl
@[simp] theorem failDecode_cfg : (failDecode s).cfg = s.cfg := rfl
@[simp] theorem failDecode_packDraw : (failDecode s).packDraw = s.packDraw := rfl
@[simp] theorem failDecode_outDraw : (failDecode s).outDraw = s.draws := rfl
@[simp] theorem failDecode_draws : (failDecode s).draws = s.draws + 1 := rfl
@[simp] theorem failDecode_script : (failDecode s).script = s.script := rfl
@[simp] theorem failDecode_noted : (failDecode s).noted = s.noted := rfl

@[simp] theorem issue_pending (w : Word) : (issue w s).pending = some w := rfl
@[simp] theorem issue_done (w : Word) : (issue w s).done = false := rfl
@[simp] theorem issue_err (w : Word) : (issue w s).err = s.err := rfl
@[simp] theorem issue_phase (w : Word) : (issue w s).phase = s.phase := rfl
@[simp] theorem issue_enc (w : Word) : (issue w s).enc = s.enc := rfl
@[simp] theorem issue_inj (w : Word) : (issue w s).inj = s.inj := rfl
@[simp] theorem issue_errcode (w : Word) : (issue w s).errcode = s.errcode := rfl
@[simp] theorem issue_errinfo (w : Word) : (issue w s).errinfo = s.errinfo := rfl
@[simp] theorem issue_inten (w : Word) : (issue w s).inten = s.inten := rfl
@[simp] theorem issue_ndist (w : Word) : (issue w s).ndist = s.ndist := rfl
@[simp] theorem issue_total (w : Word) : (issue w s).total = s.total := rfl
@[simp] theorem issue_nnodes (w : Word) : (issue w s).nnodes = s.nnodes := rfl
@[simp] theorem issue_root (w : Word) : (issue w s).root = s.root := rfl
@[simp] theorem issue_maxlen (w : Word) : (issue w s).maxlen = s.maxlen := rfl
@[simp] theorem issue_encBits (w : Word) : (issue w s).encBits = s.encBits := rfl
@[simp] theorem issue_pad (w : Word) : (issue w s).pad = s.pad := rfl
@[simp] theorem issue_packLen (w : Word) : (issue w s).packLen = s.packLen := rfl
@[simp] theorem issue_outLen (w : Word) : (issue w s).outLen = s.outLen := rfl
@[simp] theorem issue_freq (w : Word) : (issue w s).freq = s.freq := rfl
@[simp] theorem issue_slist (w : Word) : (issue w s).slist = s.slist := rfl
@[simp] theorem issue_node (w : Word) : (issue w s).node = s.node := rfl
@[simp] theorem issue_code (w : Word) : (issue w s).code = s.code := rfl
@[simp] theorem issue_pack (w : Word) : (issue w s).pack = s.pack := rfl
@[simp] theorem issue_out (w : Word) : (issue w s).out = s.out := rfl
@[simp] theorem issue_payload (w : Word) : (issue w s).payload = s.payload := rfl
@[simp] theorem issue_cfg (w : Word) : (issue w s).cfg = s.cfg := rfl
@[simp] theorem issue_packDraw (w : Word) : (issue w s).packDraw = s.packDraw := rfl
@[simp] theorem issue_outDraw (w : Word) : (issue w s).outDraw = s.outDraw := rfl
@[simp] theorem issue_draws (w : Word) : (issue w s).draws = s.draws := rfl
@[simp] theorem issue_script (w : Word) : (issue w s).script = s.script := rfl
@[simp] theorem issue_noted (w : Word) : (issue w s).noted = s.noted := rfl

@[simp] theorem dropTurn_pending : (dropTurn s).pending = s.pending := rfl
@[simp] theorem dropTurn_done : (dropTurn s).done = s.done := rfl
@[simp] theorem dropTurn_err : (dropTurn s).err = s.err := rfl
@[simp] theorem dropTurn_phase : (dropTurn s).phase = s.phase := rfl
@[simp] theorem dropTurn_enc : (dropTurn s).enc = s.enc := rfl
@[simp] theorem dropTurn_inj : (dropTurn s).inj = s.inj := rfl
@[simp] theorem dropTurn_errcode : (dropTurn s).errcode = s.errcode := rfl
@[simp] theorem dropTurn_errinfo : (dropTurn s).errinfo = s.errinfo := rfl
@[simp] theorem dropTurn_inten : (dropTurn s).inten = s.inten := rfl
@[simp] theorem dropTurn_ndist : (dropTurn s).ndist = s.ndist := rfl
@[simp] theorem dropTurn_total : (dropTurn s).total = s.total := rfl
@[simp] theorem dropTurn_nnodes : (dropTurn s).nnodes = s.nnodes := rfl
@[simp] theorem dropTurn_root : (dropTurn s).root = s.root := rfl
@[simp] theorem dropTurn_maxlen : (dropTurn s).maxlen = s.maxlen := rfl
@[simp] theorem dropTurn_encBits : (dropTurn s).encBits = s.encBits := rfl
@[simp] theorem dropTurn_pad : (dropTurn s).pad = s.pad := rfl
@[simp] theorem dropTurn_packLen : (dropTurn s).packLen = s.packLen := rfl
@[simp] theorem dropTurn_outLen : (dropTurn s).outLen = s.outLen := rfl
@[simp] theorem dropTurn_freq : (dropTurn s).freq = s.freq := rfl
@[simp] theorem dropTurn_slist : (dropTurn s).slist = s.slist := rfl
@[simp] theorem dropTurn_node : (dropTurn s).node = s.node := rfl
@[simp] theorem dropTurn_code : (dropTurn s).code = s.code := rfl
@[simp] theorem dropTurn_pack : (dropTurn s).pack = s.pack := rfl
@[simp] theorem dropTurn_out : (dropTurn s).out = s.out := rfl
@[simp] theorem dropTurn_payload : (dropTurn s).payload = s.payload := rfl
@[simp] theorem dropTurn_cfg : (dropTurn s).cfg = s.cfg := rfl
@[simp] theorem dropTurn_packDraw : (dropTurn s).packDraw = s.packDraw := rfl
@[simp] theorem dropTurn_outDraw : (dropTurn s).outDraw = s.outDraw := rfl
@[simp] theorem dropTurn_draws : (dropTurn s).draws = s.draws := rfl
@[simp] theorem dropTurn_script : (dropTurn s).script = s.script.tail := rfl
@[simp] theorem dropTurn_noted : (dropTurn s).noted = s.noted := rfl

@[simp] theorem hostRead_pending (off : Offset) : (hostRead off s).pending = s.pending := rfl
@[simp] theorem hostRead_done (off : Offset) : (hostRead off s).done = s.done := rfl
@[simp] theorem hostRead_err (off : Offset) : (hostRead off s).err = s.err := rfl
@[simp] theorem hostRead_phase (off : Offset) : (hostRead off s).phase = s.phase := rfl
@[simp] theorem hostRead_enc (off : Offset) : (hostRead off s).enc = s.enc := rfl
@[simp] theorem hostRead_inj (off : Offset) : (hostRead off s).inj = s.inj := rfl
@[simp] theorem hostRead_errcode (off : Offset) : (hostRead off s).errcode = s.errcode := rfl
@[simp] theorem hostRead_errinfo (off : Offset) : (hostRead off s).errinfo = s.errinfo := rfl
@[simp] theorem hostRead_inten (off : Offset) : (hostRead off s).inten = s.inten := rfl
@[simp] theorem hostRead_ndist (off : Offset) : (hostRead off s).ndist = s.ndist := rfl
@[simp] theorem hostRead_total (off : Offset) : (hostRead off s).total = s.total := rfl
@[simp] theorem hostRead_nnodes (off : Offset) : (hostRead off s).nnodes = s.nnodes := rfl
@[simp] theorem hostRead_root (off : Offset) : (hostRead off s).root = s.root := rfl
@[simp] theorem hostRead_maxlen (off : Offset) : (hostRead off s).maxlen = s.maxlen := rfl
@[simp] theorem hostRead_encBits (off : Offset) : (hostRead off s).encBits = s.encBits := rfl
@[simp] theorem hostRead_pad (off : Offset) : (hostRead off s).pad = s.pad := rfl
@[simp] theorem hostRead_packLen (off : Offset) : (hostRead off s).packLen = s.packLen := rfl
@[simp] theorem hostRead_outLen (off : Offset) : (hostRead off s).outLen = s.outLen := rfl
@[simp] theorem hostRead_freq (off : Offset) : (hostRead off s).freq = s.freq := rfl
@[simp] theorem hostRead_slist (off : Offset) : (hostRead off s).slist = s.slist := rfl
@[simp] theorem hostRead_node (off : Offset) : (hostRead off s).node = s.node := rfl
@[simp] theorem hostRead_code (off : Offset) : (hostRead off s).code = s.code := rfl
@[simp] theorem hostRead_pack (off : Offset) : (hostRead off s).pack = s.pack := rfl
@[simp] theorem hostRead_out (off : Offset) : (hostRead off s).out = s.out := rfl
@[simp] theorem hostRead_payload (off : Offset) : (hostRead off s).payload = s.payload := rfl
@[simp] theorem hostRead_cfg (off : Offset) : (hostRead off s).cfg = s.cfg := rfl
@[simp] theorem hostRead_packDraw (off : Offset) : (hostRead off s).packDraw = s.packDraw := rfl
@[simp] theorem hostRead_outDraw (off : Offset) : (hostRead off s).outDraw = s.outDraw := rfl
@[simp] theorem hostRead_draws (off : Offset) : (hostRead off s).draws = if unspecifiedRead s (decodeOffset off) then s.draws + 1 else s.draws := rfl
@[simp] theorem hostRead_script (off : Offset) : (hostRead off s).script = s.script := rfl
@[simp] theorem hostRead_noted (off : Offset) : (hostRead off s).noted = memRead s off :: s.noted := rfl

end Sys2Proof.Machine
end

