-- ==== Sys2Proof/Laws/Ops.lean ====
section
/-! SUPPORT. What each shared operation can do, said once: recording and raising an error, a command, a turn and a
step. -/

namespace Sys2Proof.Machine

section Errors

theorem record_of_unrecorded {s : State} (e : ErrCode) (info : Word) (h : s.err = false) :
    record e info s = withError e info s := by
  simp [record, withError, h]

/-- The first error stays (60_exceptions.md rule R234). -/
theorem record_of_recorded {s : State} (e : ErrCode) (info : Word) (h : s.err = true) :
    record e info s = s := by
  cases s; simp_all [record]

@[simp] theorem raise_eq (e : ErrCode) (info : Word) (s : State) :
    raise e info s = complete (record e info s) := rfl

@[simp] theorem raiseWith_eq (e : ErrCode) (info : Word) (f : State → State) (s : State) :
    raiseWith e info f s = complete (f (record e info s)) := rfl

theorem complete_eq_completed (s : State) : complete s = completed s := rfl

end Errors

section Commands

/-- Every command completes, whether by `complete` or by `raise` (40_control.md rules R122, R123). -/
theorem exec_completes (i : Instr) (s : State) : ∃ u, exec i s = .next (complete u) := by
  cases i with
  | nop => exact ⟨_, rfl⟩
  | clear => exact ⟨_, rfl⟩
  | ack => exact ⟨_, rfl⟩
  | count sym =>
    simp only [exec, execCount, raise_eq]
    split_ifs <;> exact ⟨_, rfl⟩
  | analyze =>
    simp only [exec, execAnalyze, raise_eq]
    split_ifs <;> exact ⟨_, rfl⟩
  | build =>
    simp only [exec, execBuild, raise_eq]
    split_ifs <;> exact ⟨_, rfl⟩
  | gencode =>
    simp only [exec, execGencode, raise_eq]
    split_ifs <;> exact ⟨_, rfl⟩
  | encStart =>
    simp only [exec, execEncStart, raise_eq]
    split_ifs <;> exact ⟨_, rfl⟩
  | encSym sym =>
    simp only [exec, execEncSym, raise_eq, raiseWith_eq]
    split_ifs <;> exact ⟨_, rfl⟩
  | encFinish =>
    simp only [exec, execEncFinish, raise_eq]
    split_ifs <;> exact ⟨_, rfl⟩
  | decode =>
    simp only [exec, execDecode, raise_eq, raiseWith_eq]
    split_ifs
    · exact ⟨_, rfl⟩
    · exact ⟨_, rfl⟩
    · split
      · exact ⟨_, rfl⟩
      · split_ifs <;> exact ⟨_, rfl⟩

/-- No command changes INTEN, the configuration, the script or the noted reads. -/
theorem exec_untouched {i : Instr} {s t : State} (h : exec i s = .next t) :
    t.inten = s.inten ∧ t.cfg = s.cfg ∧ t.script = s.script ∧ t.noted = s.noted := by
  cases i with
  | nop => cases h; exact ⟨rfl, rfl, rfl, rfl⟩
  | clear => cases h; exact ⟨rfl, rfl, rfl, rfl⟩
  | ack => cases h; exact ⟨rfl, rfl, rfl, rfl⟩
  | count sym =>
    simp only [exec, execCount, raise_eq] at h
    split_ifs at h <;> cases h <;> exact ⟨rfl, rfl, rfl, rfl⟩
  | analyze =>
    simp only [exec, execAnalyze, raise_eq] at h
    split_ifs at h <;> cases h <;> exact ⟨rfl, rfl, rfl, rfl⟩
  | build =>
    simp only [exec, execBuild, raise_eq] at h
    split_ifs at h <;> cases h <;> exact ⟨rfl, rfl, rfl, rfl⟩
  | gencode =>
    simp only [exec, execGencode, raise_eq] at h
    split_ifs at h <;> cases h <;> exact ⟨rfl, rfl, rfl, rfl⟩
  | encStart =>
    simp only [exec, execEncStart, raise_eq] at h
    split_ifs at h <;> cases h <;> exact ⟨rfl, rfl, rfl, rfl⟩
  | encSym sym =>
    simp only [exec, execEncSym, raise_eq, raiseWith_eq] at h
    split_ifs at h <;> cases h <;> exact ⟨rfl, rfl, rfl, rfl⟩
  | encFinish =>
    simp only [exec, execEncFinish, raise_eq] at h
    split_ifs at h <;> cases h <;> exact ⟨rfl, rfl, rfl, rfl⟩
  | decode =>
    simp only [exec, execDecode, raise_eq, raiseWith_eq] at h
    split_ifs at h
    · cases h; exact ⟨rfl, rfl, rfl, rfl⟩
    · cases h; exact ⟨rfl, rfl, rfl, rfl⟩
    · split at h
      · cases h; exact ⟨rfl, rfl, rfl, rfl⟩
      · split_ifs at h <;> cases h <;> exact ⟨rfl, rfl, rfl, rfl⟩

end Commands

section ClaimTerms

/-- T0 as ANALYZE computes it. -/
theorem countedTotal_eq (s : State) : countedTotal s = (freqCounts s.cfg s.freq).sum := rfl

/-- D0 as ANALYZE computes it. -/
theorem countedSymbols_eq (s : State) : countedSymbols s = distinctCount (freqCounts s.cfg s.freq) := by
  simp only [countedSymbols, distinctCount, freqCounts, List.countP_map]
  rfl

/-- The injection condition as ANALYZE computes it. -/
theorem injectionDue_eq (s : State) : injectionDue s = injects s.cfg (freqCounts s.cfg s.freq) := by
  simp only [injectionDue, injects, countedTotal_eq, countedSymbols_eq]
  cases s.cfg.trigger <;> exact Bool.eq_iff_iff.2 (decide_eq_true_iff.trans beq_iff_eq.symm)

/-- The key as BUILD computes it. -/
theorem mergeKey_eq (s : State) (j : Nat) : mergeKey s j = nodeKey s.cfg (nodeAt s j) := rfl

/-- An unmapped offset has no register and no slot. -/
theorem decodeOffset_unmapped {off : Offset} (h : unmappedOffset (wordOffset off)) :
    decodeOffset off = .unmapped := by
  simp only [unmappedOffset, wordOffset] at h
  simp only [decodeOffset]
  generalize off.toNat / 4 * 4 = a at h ⊢
  obtain h | h | h | h | h := h <;> simp (disch := omega) only [if_neg, if_pos]

end ClaimTerms

section Steps

/-- What a step can do when it goes on: the engine's step, nothing (an idle engine, or a wait that is over), a host
read, a host write, or a reset event. -/
theorem step_cases {s t : State} (h : step s = .next t) :
    (enginesTurn s = true ∧ ∃ w, s.pending = some w ∧ engineStep w (turnTaken s) = .next t) ∨
    (s.pending = none ∧ t = turnTaken s) ∨
    (t = dropTurn s) ∨
    (∃ off rest, s.script = .read .word off :: rest ∧ off.toNat % 4 = 0 ∧ t = hostRead off (dropTurn s)) ∨
    (∃ off v rest, s.script = .write .word off v :: rest ∧ off.toNat % 4 = 0 ∧
      t = hostWrite off v (dropTurn s)) ∨
    (∃ rest, s.script = .reset :: rest ∧ t = resetEvent (dropTurn s)) := by
  have engine : ∀ u : State, u.pending = s.pending → u = turnTaken s → enginesTurn s = true →
      engineTurn u = .next t →
      (enginesTurn s = true ∧ ∃ w, s.pending = some w ∧ engineStep w (turnTaken s) = .next t) ∨
      (s.pending = none ∧ t = turnTaken s) := by
    rintro u hp rfl ht hu
    unfold engineTurn at hu
    rw [hp] at hu
    cases hs : s.pending with
    | none => rw [hs] at hu; cases hu; exact .inr ⟨rfl, rfl⟩
    | some w => rw [hs] at hu; exact .inl ⟨ht, w, rfl, hu⟩
  unfold step nextTurn at h
  cases hs : s.script with
  | nil =>
    rw [hs] at h
    exact (engine s rfl (by simp [turnTaken, hs]) (by simp [enginesTurn, hs]) h).imp_right .inl
  | cons i rest =>
    rw [hs] at h
    cases i with
    | read width off =>
      simp only [turn, access] at h
      split_ifs at h with hw ho
      cases h
      simp only [ne_eq, not_not] at hw ho
      subst hw
      exact .inr (.inr (.inr (.inl ⟨off, rest, rfl, ho, rfl⟩)))
    | write width off v =>
      simp only [turn, access] at h
      split_ifs at h with hw ho
      cases h
      simp only [ne_eq, not_not] at hw ho
      subst hw
      exact .inr (.inr (.inr (.inr (.inl ⟨off, v, rest, rfl, ho, rfl⟩))))
    | wait =>
      simp only [turn] at h
      split_ifs at h with hb
      · exact (engine s rfl (by simp [turnTaken, hs]) (by simp [enginesTurn, hs]) h).imp_right .inl
      · cases h; exact .inr (.inr (.inl rfl))
    | waitIrq =>
      simp only [turn] at h
      split_ifs at h with hb
      · cases h; exact .inr (.inr (.inl rfl))
      · exact (engine s rfl (by simp [turnTaken, hs]) (by simp [enginesTurn, hs, hb]) h).imp_right .inl
    | engine =>
      simp only [turn] at h
      exact (engine (dropTurn s) rfl (by simp [turnTaken, dropTurn, hs]) (by simp [enginesTurn, hs]) h).imp_right .inl
    | reset =>
      simp only [turn] at h
      cases h
      exact .inr (.inr (.inr (.inr (.inr ⟨rest, rfl, rfl⟩))))

end Steps

end Sys2Proof.Machine
end

