-- ==== Sys2Proof/Laws/PerInstr.lean ====
section
/-! SUPPORT. Statements about every command as syntax, one lemma per constructor. -/

namespace Sys2Proof.Laws

/-- The fields of the encoded word: OP of the mnemonic, RSV 0, and SYM the operand or 0
(30_encoding.md rules R100, R103). -/
def EncodedFields.Statement (i : Instr) : Prop :=
  opField (encode i) = i.mnemonic.op ∧ rsvField (encode i) = 0 ∧ symField (encode i) = i.symOperand

theorem opField_word (op sym : BitVec 8) : opField (op ++ (0 : BitVec 16) ++ sym) = op := by
  ext k hk
  simp only [opField, BitVec.getElem_extractLsb', BitVec.getLsbD_append]
  have h : ¬ 24 + k < 8 ∧ ¬ 24 + k - 8 < 16 ∧ 24 + k - 8 - 16 = k := by omega
  simp [h.1, h.2.1, h.2.2, BitVec.getLsbD_eq_getElem hk]

theorem rsvField_word (op sym : BitVec 8) : rsvField (op ++ (0 : BitVec 16) ++ sym) = 0 := by
  ext k hk
  simp only [rsvField, BitVec.getElem_extractLsb', BitVec.getLsbD_append]
  have h : ¬ 8 + k < 8 ∧ ¬ 16 ≤ k := by omega
  simp [h.1, h.2]

theorem symField_word (op sym : BitVec 8) : symField (op ++ (0 : BitVec 16) ++ sym) = sym := by
  ext k hk
  simp only [symField, BitVec.getElem_extractLsb', BitVec.getLsbD_append]
  simp [hk]

theorem EncodedFields.nop : EncodedFields.Statement .nop :=
  ⟨opField_word _ _, rsvField_word _ _, symField_word _ _⟩
theorem EncodedFields.clear : EncodedFields.Statement .clear :=
  ⟨opField_word _ _, rsvField_word _ _, symField_word _ _⟩
theorem EncodedFields.ack : EncodedFields.Statement .ack :=
  ⟨opField_word _ _, rsvField_word _ _, symField_word _ _⟩
theorem EncodedFields.count (sym : Byte) : EncodedFields.Statement (.count sym) :=
  ⟨opField_word _ _, rsvField_word _ _, symField_word _ _⟩
theorem EncodedFields.analyze : EncodedFields.Statement .analyze :=
  ⟨opField_word _ _, rsvField_word _ _, symField_word _ _⟩
theorem EncodedFields.build : EncodedFields.Statement .build :=
  ⟨opField_word _ _, rsvField_word _ _, symField_word _ _⟩
theorem EncodedFields.gencode : EncodedFields.Statement .gencode :=
  ⟨opField_word _ _, rsvField_word _ _, symField_word _ _⟩
theorem EncodedFields.encStart : EncodedFields.Statement .encStart :=
  ⟨opField_word _ _, rsvField_word _ _, symField_word _ _⟩
theorem EncodedFields.encSym (sym : Byte) : EncodedFields.Statement (.encSym sym) :=
  ⟨opField_word _ _, rsvField_word _ _, symField_word _ _⟩
theorem EncodedFields.encFinish : EncodedFields.Statement .encFinish :=
  ⟨opField_word _ _, rsvField_word _ _, symField_word _ _⟩
theorem EncodedFields.decode : EncodedFields.Statement .decode :=
  ⟨opField_word _ _, rsvField_word _ _, symField_word _ _⟩

end Sys2Proof.Laws
end

