-- ==== Sys2Proof/Tests/Slice0.lean ====
section
/-! SUPPORT. Small tests of one step each, and for every statement with hypotheses a witness that meets them.
Expected results are those of 95_test_vectors.md (the vector is named) or worked out by hand from the rule named. -/

namespace Sys2Proof.Tests
open Sys2Proof Sys2Proof.Machine

section Helpers

/-- The state after one command, for building test states. -/
def after (i : Instr) (s : State) : State :=
  match exec i s with
  | .next t => t
  | .fault _ => s
  | .refused _ => s

/-- Reset with the counts of the text "aabc" (vector V-A1). -/
def aabcOpen : State := { State.reset with freq := [(0x61, 2), (0x62, 1), (0x63, 1)] }
def aabcSorted : State := after .analyze aabcOpen
def aabcBuilt : State := after .build aabcSorted
def aabcCoded : State := after .gencode aabcBuilt
def aabcActive : State := after .encStart aabcCoded
/-- The encode of "aabc" before its ENC_FINISH. -/
def aabcEncoded : State :=
  after (.encSym 0x63) (after (.encSym 0x62) (after (.encSym 0x61) (after (.encSym 0x61) aabcActive)))
def aabcPublished : State := after .encFinish aabcEncoded
/-- A state with an error recorded. -/
def errored : State := { State.reset with err := true, errcode := .illegalCommand, errinfo := 1 }
/-- A state with a command pending. -/
def pendingWith (w : Word) : State := { State.reset with pending := some w }
/-- The configuration with CW = 16. -/
def narrow : Config := { Config.default with cw := 16 }
/-- The configuration with PLACEHOLDER_TRIGGER = TOTAL_ONE. -/
def totalOne : Config := { Config.default with trigger := .totalOne }
/-- The configuration with PACK_DEPTH = OUT_DEPTH = 1. -/
def tiny : Config := { Config.default with packLog2 := 0, outLog2 := 0 }

end Helpers

section Decoding
/-! Words written bit by bit from the fields OP[31:24], RSV[23:8], SYM[7:0] of R100 and the OP values of R101. -/

theorem test_decode_nop : decodeWord 0b00000000_0000000000000000_00000000 = some .nop := by decide
theorem test_decode_clear : decodeWord 0b00000001_0000000000000000_00000000 = some .clear := by decide
theorem test_decode_ack : decodeWord 0b00000010_0000000000000000_00000000 = some .ack := by decide
theorem test_decode_count : decodeWord 0b00010000_0000000000000000_11000101 = some (.count 0xC5) := by decide
theorem test_decode_analyze : decodeWord 0b00010001_0000000000000000_00000000 = some .analyze := by decide
theorem test_decode_build : decodeWord 0b00100000_0000000000000000_00000000 = some .build := by decide
theorem test_decode_gencode : decodeWord 0b00110000_0000000000000000_00000000 = some .gencode := by decide
theorem test_decode_enc_start : decodeWord 0b01000000_0000000000000000_00000000 = some .encStart := by decide
theorem test_decode_enc_sym : decodeWord 0b01000001_0000000000000000_01111010 = some (.encSym 0x7A) := by decide
theorem test_decode_enc_finish : decodeWord 0b01000010_0000000000000000_00000000 = some .encFinish := by decide
theorem test_decode_decode : decodeWord 0b01010000_0000000000000000_00000000 = some .decode := by decide
/-- V-K2, V-K3, V-K4, V-K6, V-K11. -/
theorem test_decode_illegal :
    [0x00000001, 0xFFFFFFFF, 0x10000100, 0x01000001, 0x03000000].map decodeWord =
      ([none, none, none, none, none] : List (Option Instr)) := by decide
/-- R106: `COUNT 'a'`, `ENC_SYM 0x63`, `DECODE`. -/
theorem test_assemble :
    (AsmLine.assemble ⟨.count, some (.chr 'a')⟩).map encode = some 0x10000061 ∧
    (AsmLine.assemble ⟨.encSym, some (.hex 0x63)⟩).map encode = some 0x41000063 ∧
    (AsmLine.assemble ⟨.decode, none⟩).map encode = some 0x50000000 := by decide

end Decoding

section WellFormed

theorem test_wf_default : Config.default.wf = true := by decide
theorem test_wf_nsym : { Config.default with nsym := 200 }.wf = false := by decide
theorem test_wf_cw_low : { Config.default with cw := 15 }.wf = false := by decide
theorem test_wf_cw_high : { Config.default with cw := 33 }.wf = false := by decide
theorem test_wf_pack : { Config.default with packLog2 := 19 }.wf = false := by decide
theorem test_wf_out : { Config.default with outLog2 := 19 }.wf = false := by decide
theorem test_wf_missing_operand : (AsmLine.mk .count none).wf = false := by decide
theorem test_wf_extra_operand : (AsmLine.mk .nop (some (.dec 0))).wf = false := by decide
theorem test_wf_dec_range : (AsmLine.mk .count (some (.dec 256))).wf = false := by decide
theorem test_wf_hex_range : (AsmLine.mk .encSym (some (.hex 0x100))).wf = false := by decide
theorem test_wf_chr_range : (AsmLine.mk .encSym (some (.chr 'é'))).wf = false := by decide

end WellFormed

section Commands

/-- V-K1: NOP after reset gives STATUS = 0x02. -/
theorem test_nop : statusWord (after .nop State.reset) = 0x02 := by decide
/-- V-K8. -/
theorem test_clear : (after .clear { aabcOpen with packLen := 1, pack := [(0, 0x4B)] }).freq = [] ∧
    (after .clear { aabcOpen with packLen := 1, pack := [(0, 0x4B)] }).packLen = 0 ∧
    packAt (after .clear { aabcOpen with packLen := 1, pack := [(0, 0x4B)] }) 0 = 0x4B := by decide
/-- V-K7. -/
theorem test_ack : statusWord (after .ack errored) = 0x02 ∧ (after .ack errored).errinfo = 0 := by decide
/-- R141's example. -/
theorem test_count : freqAt (after (.count 0x61) { State.reset with freq := [(0x61, 1)] }) 0x61 = 2 := by decide
/-- V-A7: SYMBOL_RANGE. -/
theorem test_count_range : (after (.count 0x80) State.reset).errcode = .symbolRange ∧
    (after (.count 0x80) State.reset).errinfo = 0x10000080 := by decide
/-- V-A1 step 2. -/
theorem test_analyze : aabcSorted.slist =
    [(0, ⟨0x62, 1, 0x3FD0000000000000⟩), (1, ⟨0x63, 1, 0x3FD0000000000000⟩),
      (2, ⟨0x61, 2, 0x3FE0000000000000⟩)] ∧ statusWord aabcSorted = 0x12 := by decide +kernel
/-- V-A3: placeholders injected, and two rounded probabilities. -/
theorem test_analyze_injects : (after .analyze { State.reset with freq := [(0x61, 4)] }).slist =
    [(0, ⟨0x62, 1, 0x3FC5555555555555⟩), (1, ⟨0x61, 5, 0x3FEAAAAAAAAAAAAB⟩)] ∧
    (after .analyze { State.reset with freq := [(0x61, 4)] }).inj = true := by decide +kernel
/-- V-A1 step 3. -/
theorem test_build : nodeAt aabcBuilt 3 = ⟨false, 0, 0, 1, 2, 0x3FE0000000000000⟩ ∧
    nodeAt aabcBuilt 4 = ⟨false, 0, 2, 3, 4, 0x3FF0000000000000⟩ ∧ aabcBuilt.root = 4 := by decide +kernel
/-- V-B7: counts 1, 2, 3, 11 in BINARY64 mode; the target wins although 1 + 2 = 3. -/
theorem test_build_rounded : nodeAt (after .build (after .analyze
    { State.reset with freq := [(0x61, 1), (0x62, 2), (0x63, 3), (0x64, 11)] })) 5 =
    ⟨false, 0, 4, 2, 6, 0x3FD6969696969696⟩ := by decide +kernel
/-- V-A1 step 4. -/
theorem test_gencode : (codeAt aabcCoded 0x62).word 0 = 0x80000002 ∧ (codeAt aabcCoded 0x62).word 1 = 2 ∧
    codeword (codeAt aabcCoded 0x63) = [true, true] ∧ aabcCoded.maxlen = 2 := by decide +kernel
/-- V-D13. -/
theorem test_enc_start : statusWord (after .encStart { aabcCoded with packLen := 1, pad := 2 }) = 0x72 ∧
    (after .encStart { aabcCoded with packLen := 1, pad := 2 }).packLen = 0 := by decide +kernel
/-- R191's example: PAYLOAD = "00", `ENC_SYM 'b'`. -/
theorem test_enc_sym : (after (.encSym 0x62) { aabcActive with payload := [false, false] }).payload =
    [false, false, true, false] := by decide +kernel
/-- V-D6: UNKNOWN_SYMBOL aborts. -/
theorem test_enc_sym_unknown : statusWord (after (.encSym 0x7A) aabcActive) = 0x36 ∧
    (after (.encSym 0x7A) aabcActive).errinfo = 0x4100007A := by decide +kernel
/-- V-A1 step 5. -/
theorem test_enc_finish : packAt aabcPublished 0 = 0x4B ∧ aabcPublished.packLen = 1 ∧ aabcPublished.pad = 2 ∧
    aabcPublished.encBits = 6 := by decide +kernel
/-- V-D3: 8 payload bits give a whole byte of padding. -/
theorem test_enc_finish_full : (after .encFinish { aabcActive with
    payload := [false, true, false, true, false, true, false, true] }).pack = [(0, 0x01), (1, 0x55)] := by
  decide +kernel
/-- V-E1. -/
theorem test_decode : (after .decode aabcPublished).out = [(0, 0x61), (1, 0x61), (2, 0x62), (3, 0x63)] ∧
    (after .decode aabcPublished).outLen = 4 := by decide +kernel
/-- V-E2: the payload ends inside a codeword. -/
theorem test_decode_malformed :
    (after .decode { aabcBuilt with pack := [(0, 0x03)], packLen := 1 }).errcode = .malformedBitstream := by
  decide +kernel

end Commands

section HostAccesses

/-- V-M1: ID's bytes in little-endian lanes. -/
theorem test_byte_lanes : [0, 1, 2, 3].map (byteLane (memRead State.reset 0x000)) = [0x31, 0x53, 0x46, 0x48] := by
  decide
/-- V-M7 and V-M8. -/
theorem test_freq_window : freqAt (hostWrite 0x001184 7 State.reset) 0x61 = 7 ∧
    (hostWrite 0x001184 7 aabcSorted).errcode = .access ∧
    (hostWrite 0x001184 7 aabcSorted).errinfo = 0x1184 := by decide +kernel
/-- V-M4 and R83, with a command pending: an unmapped offset reads 0, twice. -/
theorem test_unmapped_busy : memRead (pendingWith 0) 0x040 = 0 ∧
    memRead (hostRead 0x040 (pendingWith 0)) 0x040 = 0 ∧ (hostRead 0x040 (pendingWith 0)).draws = 2 := by decide

/-- R270: a program whose last step is a raw CMD write has ended with the command pending. -/
theorem test_ended : (match step { State.reset with script := wr 0x008 0x11000000 } with
    | .next t => t.ended && busy t | .fault _ => false | .refused _ => false) = true := by decide

/-- R107, R70: the last slot of LOADPACK in the region, and the first past it. -/
theorem test_load_slot : loadSlot 0xBFFFF 7 = [.write .word 0x3FFFFC 7] ∧ loadSlot 0xC0000 7 = [] := by decide

/-- V-M10. -/
theorem test_pack_window : memRead (hostWrite 0x100004 0x1FF State.reset) 0x100004 = 0xFF := by decide
/-- V-M11 and V-M12. -/
theorem test_pack_len : (hostWrite 0x038 0x10001 State.reset).errcode = .access ∧
    (hostWrite 0x038 0x10000 State.reset).packLen = 0x10000 := by decide
/-- V-M16. -/
theorem test_node_window : memRead aabcBuilt (0x004000 + 32 * 4 + 0x14) = 0x3FF00000 := by decide +kernel
/-- V-M14, the second write. -/
theorem test_busy_violation : (hostWrite 0x008 0 (pendingWith 0x11000000)).errcode = .busyViolation ∧
    (hostWrite 0x008 0 (pendingWith 0x11000000)).pending = some 0x11000000 := by decide
/-- V-K10. -/
theorem test_irq : statusWord (after .nop (hostWrite 0x018 1 State.reset)) = 0x0A := by decide
/-- A first instruction placed after reset runs (V-A6: ANALYZE raises EMPTY_INPUT). -/
theorem test_fetch : (match step (State.reset.withFetchWord 32 0x11000000) with
    | .next t => t.errcode | .fault _ => .noError | .refused _ => .noError) = .emptyInput := by decide +kernel

end HostAccesses

section Witnesses

/-- DecodedWordsEncodeToThemselves and DecoderFollowsTheOpcodeMap (a row selected, and none), ParamReportsTheConfiguration,
and ReadsHaveNoSideEffect (the last offset readable while busy, and one other than CMD). -/
theorem witness_encoding_and_reads :
    decodeWord 0x410000FF = some (.encSym 0xFF) ∧ (OpcodeRow.mk .encSym 0x41000000 0xFFFFFF00) ∈ opcodeMap ∧
    (OpcodeRow.mk .encSym 0x41000000 0xFFFFFF00).selects 0x410000FF = true ∧
    (opcodeMap.all fun r => r.selects 0x41000100 == false) = true ∧
    State.reset.cfg.wf = true ∧ busy State.reset = false ∧ wordOffset 0x01B < 0x01C ∧
    wordOffset 0x00C ≠ 0x008 := by decide

/-- StepRunsTheDecodedCommand, EveryPendingCommandCompletes and EngineStepGatesThenRuns: open gate, ACK through the
closed gate, a dropped word, an illegal word, and no pending word. -/
theorem witness_engine_turn :
    (enginesTurn (pendingWith 0x20000000) = true ∧ decodeWord 0x20000000 = some .build ∧
      (pendingWith 0x20000000).err = false) ∧
    (enginesTurn { errored with pending := some 0x02000000, script := [.wait] } = true ∧
      decodeWord 0x02000000 = some .ack ∧ errored.err = true) ∧
    (enginesTurn { errored with pending := some 0x20000000, script := [.engine] } = true) ∧
    (enginesTurn { pendingWith 0x03000000 with script := [.waitIrq] } = true ∧ decodeWord 0x03000000 = none) ∧
    (enginesTurn State.reset = true ∧ State.reset.pending = none) ∧
    decodeTableWord 32 0x10000061 = some (.count 0x61) ∧ State.reset.err = false := by decide

/-- StepStopsOnlyAtForbiddenAccesses: both refusals, at their boundaries. -/
theorem witness_refused_accesses :
    (match step { State.reset with script := [.read .half 0x000] } with
      | .refused r => some r | .next _ => none | .fault _ => none) = some .narrowAccess ∧
    (match step { State.reset with script := [.write .word 0x001 0] } with
      | .refused r => some r | .next _ => none | .fault _ => none) = some .misalignedAccess ∧
    (0x000 : Offset).toNat / 4 = (0x003 : Offset).toNat / 4 := by decide

/-- StepPerformsHostAccesses (the waits that are over), and CommandLinesRunTheirCommands. -/
theorem witness_host_steps :
    (busy State.reset = false ∧ State.reset.err = false) ∧
    ({ State.reset with script := [.wait] }.script = [.wait]) ∧
    (irq { State.reset with done := true, inten := 1, script := [.waitIrq] } = true) ∧
    { State.reset with script := command .analyze }.script = command .analyze ++ [] ∧
    { State.reset with script := wr 0x008 0x11000000 }.ended = false := by decide

/-- StepPerformsHostAccesses, ConformingScriptsRunSafely and ConfigurationIsConstant. -/
theorem witness_conforming :
    conforming [.write .word 0x018 3, .read .word 0x018, .wait, .engine, .reset] = true ∧
    (0x018 : Offset).toNat % 4 = 0 ∧
    (match step { State.reset with script := [.write .word 0x018 3] } with
      | .next t => t.cfg == Config.default | .fault _ => false | .refused _ => false) = true := by decide

/-- CmdWriteIssuesOrIsRefused, BusyReadsAreControlRegistersOrDraws, RegistersReadAtTheirOffsets. -/
theorem witness_busy_and_idle : busy State.reset = false ∧ busy (pendingWith 0) = true ∧
    wordOffset 0x018 < 0x01C ∧ 0x01C ≤ wordOffset 0x01C ∧ wordOffset 0x00E = 0x00C ∧
    ¬ unmappedOffset (wordOffset 0x03F) ∧ unmappedOffset (wordOffset 0x040) ∧
    ¬ unmappedOffset (wordOffset 0x2FFFFF) ∧ unmappedOffset (wordOffset 0x300000) := by decide

/-- BusyWritesAreRefused: the guarded slots at their bounds, INTEN, and the first offset past each window's used part. -/
theorem witness_busy_writes : Config.default.wf = true ∧ busy (pendingWith 0) = true ∧
    wordOffset 0x008 = 0x008 ∧ wordOffset 0x03B = 0x038 ∧ wordOffset 0x0011FC = 0x1000 + 4 * 127 ∧
    wordOffset 0x001200 = 0x1000 + 4 * 128 ∧ wordOffset 0x13FFFC = 0x100000 + 4 * (packDepth Config.default - 1) ∧
    wordOffset 0x140000 = 0x100000 + 4 * packDepth Config.default ∧ wordOffset 0x018 = 0x018 := by decide

/-- FreqWindowReadsAndWrites: each clause, at slots 127 and 128 and at values 2^16 - 1 and 2^16. -/
theorem witness_freq_window : narrow.wf = true ∧ (127 : Nat) < narrow.nsym ∧ narrow.nsym ≤ 128 ∧
    busy (State.resetWith narrow) = false ∧ (State.resetWith narrow).phase = .opened ∧
    (0xFFFF : Word).toNat < 2 ^ narrow.cw ∧ 2 ^ narrow.cw ≤ (0x10000 : Word).toNat ∧
    aabcSorted.phase ≠ .opened ∧ busy aabcSorted = false ∧ busy (pendingWith 0) = true := by decide +kernel

/-- PackWindowReadsAndWrites: each clause, at slots 0 and 1 of a PACK of one entry. -/
theorem witness_pack_window : tiny.wf = true ∧ (0 : Nat) < packDepth tiny ∧ packDepth tiny ≤ 1 ∧
    busy (State.resetWith tiny) = false ∧ (State.resetWith tiny).enc = .idle ∧
    (1 : Word).toNat ≤ packDepth tiny ∧ packDepth tiny < (2 : Word).toNat ∧
    aabcActive.enc = .active ∧ busy aabcActive = false ∧ aabcActive.cfg.wf = true := by decide +kernel

/-- ReadOnlyWindowsShowTheMemories and ReadOnlyAndUnmappedWritesAreIgnored: the edges of the map (R73). -/
theorem witness_address_map : aabcCoded.cfg.wf = true ∧ busy aabcCoded = false ∧
    decodeOffset 0x002FFC = .slist 255 3 ∧ decodeOffset 0x003000 = .unmapped ∧ decodeOffset 0x007FFC = .node 511 7 ∧
    decodeOffset 0x008000 = .code 0 0 ∧ decodeOffset 0x00BFFC = .code 255 15 ∧ decodeOffset 0x00C000 = .unmapped ∧
    decodeOffset 0x1FFFFC = .pack (2 ^ 18 - 1) ∧ decodeOffset 0x200000 = .out 0 ∧
    decodeOffset 0x2FFFFC = .out (2 ^ 18 - 1) ∧ decodeOffset 0x300000 = .unmapped ∧
    decodeOffset 0x03C = .reg .outLen ∧ decodeOffset 0x040 = .unmapped ∧ decodeOffset 0x0013FC = .freq 255 ∧
    decodeOffset 0x001400 = .unmapped ∧ decodeOffset 0x000FFC = .unmapped := by decide +kernel

/-- EarlyCmdWriteLosesBothCommands (V-M14). -/
theorem witness_early_write :
    (pendingWith 0x11000000).pending = some 0x11000000 ∧ (pendingWith 0x11000000).err = false ∧
    { pendingWith 0x11000000 with script := [.write .word 0x008 0, .engine] }.script =
      [.write .word 0x008 0, .engine] ∧
    (0x11000000 : Word) ≠ 0 ∧ (0x11000000 : Word) ≠ 0x01000000 ∧ (0x11000000 : Word) ≠ 0x02000000 := by decide

/-- FirstErrorStaysUntilCleared: a dropped command, ACK, and reset from a state with an error. -/
theorem witness_recorded_error : errored.err = true ∧
    (match step { errored with pending := some 0x20000000 } with
      | .next t => t.err | .fault _ => false | .refused _ => false) = true ∧
    (match step { errored with pending := some 0x02000000 } with
      | .next t => t.err | .fault _ => true | .refused _ => true) = false ∧
    (match step { errored with script := [.reset] } with
      | .next t => t.err | .fault _ => true | .refused _ => true) = false := by decide

/-- ErrorsArePrecise, OnlyListedErrorsAreRaised and CommandsFollowThePhaseTable: a plain error, an abort, a failed
DECODE, a refused access, and a success. -/
theorem witness_errors : (after .build State.reset).err = true ∧ State.reset.err = false ∧
    (after (.encSym 0x7A) aabcActive).err = true ∧ aabcActive.err = false ∧
    (after .decode aabcBuilt).err = true ∧ aabcBuilt.err = false ∧
    (hostWrite 0x038 0x10001 State.reset).err = true ∧ aabcSorted.err = false := by decide +kernel

/-- PipelineMemoriesAreWriteOnce: a step of BUILD, of GENCODE, and of NOP in CODED. -/
theorem witness_pipeline : aabcSorted.phase = .sorted ∧ aabcBuilt.phase = .built ∧ aabcCoded.phase = .coded ∧
    (match step { aabcCoded with pending := some 0 } with
      | .next t => t.phase | .fault _ => .opened | .refused _ => .opened) = .coded := by decide +kernel

/-- ResetEventSetsEveryValue. -/
theorem witness_reset_event : { aabcOpen with script := [.reset] }.script = .reset :: [] := by decide

/-- CountAddsOneOrRaises: each clause, at symbols 127 and 128 and at counts 2^16 - 2 and 2^16 - 1. -/
theorem witness_count : narrow.wf = true ∧ (0x7F : Byte).toNat < narrow.nsym ∧ narrow.nsym ≤ (0x80 : Byte).toNat ∧
    (freqAt { State.resetWith narrow with freq := [(0x7F, 0xFFFE)] } 0x7F).toNat < 2 ^ narrow.cw - 1 ∧
    (freqAt { State.resetWith narrow with freq := [(0x7F, 0xFFFF)] } 0x7F).toNat = 2 ^ narrow.cw - 1 ∧
    (State.resetWith narrow).phase = .opened ∧ aabcSorted.phase ≠ .opened ∧ aabcSorted.err = false := by
  decide +kernel

/-- AnalyzeSortsTheCounts, AnalyzeRejectsEmptyAndOverflow and AnalyzeIsDeterminedByFreq: V-A1, V-A6, V-A11, V-A12. -/
theorem witness_analyze : aabcOpen.cfg.wf = true ∧ aabcOpen.phase = .opened ∧
    countedTotal aabcOpen = 4 ∧ analysedTotal aabcOpen = 4 ∧ 4 ≤ 2 ^ aabcOpen.cfg.cw - 1 ∧
    (List.range 128).all (fun i => freqAt State.reset i == 0) = true ∧
    narrow.wf = true ∧
    2 ^ narrow.cw - 1 < analysedTotal { State.resetWith narrow with freq := [(0x78, 0xFFFE)] } ∧
    analysedTotal { State.resetWith narrow with freq := [(0x78, 0xFFFD)] } ≤ 2 ^ narrow.cw - 1 ∧
    aabcSorted.phase = .sorted := by decide +kernel

/-- PlaceholdersGiveTwoLeaves: x = 'a' and x = 'x' under DISTINCT_ONE, two symbols under it, and a total of 1 and of
2 under TOTAL_ONE. -/
theorem witness_placeholders : Config.default.trigger = .distinctOne ∧ totalOne.wf = true ∧
    (after .analyze { State.reset with freq := [(0x61, 1), (0x78, 1)] }).inj = false ∧
    (after .analyze { State.resetWith totalOne with freq := [(0x78, 1)] }).inj = true ∧
    (after .analyze { State.resetWith totalOne with freq := [(0x78, 2)] }).phase = .sorted ∧
    (after .analyze { State.resetWith totalOne with freq := [(0x78, 2)] }).inj = false ∧
    1 ≤ (freqAt { State.reset with freq := [(0x61, 4)] } 0x61).toNat ∧
    (List.range 128).all (fun i => i == 0x61 || freqAt { State.reset with freq := [(0x61, 4)] } i == 0) = true ∧
    1 ≤ (freqAt { State.reset with freq := [(0x78, 1)] } 0x78).toNat ∧
    (List.range 128).all (fun i => i == 0x78 || freqAt { State.reset with freq := [(0x78, 1)] } i == 0) = true := by
  decide +kernel

/-- WeightOrderIsCountOrder, ProbabilitiesLieInTheUnitInterval and Fl64IsNearestTiesToEven: V-A16 and the ends of the
range. -/
theorem witness_weights : weightOfCount 3 17 = 0x3FC6969696969697 ∧ weightOfCount 1 (2 ^ 32 - 1) = 0x3DF0000000100000 ∧
    weightOfCount 7 7 = 0x3FF0000000000000 ∧ weightUnits 0x3FF0000000000000 = 2 ^ 1074 ∧
    weightUnits 0x7FEFFFFFFFFFFFFF ≤ 1 * weightUnits 0x7FEFFFFFFFFFFFFF := by decide +kernel

/-- BuildMakesAStrictBinaryTree, BuildMergesTheFrontsOfTheQueues and BuildRejectsASingleEntry (V-A14). -/
theorem witness_build : aabcSorted.cfg.wf = true ∧ aabcSorted.phase = .sorted ∧ 2 ≤ aabcSorted.ndist.toNat ∧
    aabcSorted.ndist.toNat ≤ aabcSorted.cfg.nsym ∧
    (after .analyze { State.resetWith totalOne with freq := [(0x61, 4)] }).ndist = 1 := by decide +kernel

/-- EncStartOpensAnEncode, EncSymAppendsOrAborts and EncFinishPublishesTheStream: V-D8 and V-D9, at PAYLOAD_MAX = 7. -/
theorem witness_encode : aabcCoded.phase = .coded ∧ aabcCoded.enc = .idle ∧ aabcCoded.err = false ∧
    aabcActive.phase = .coded ∧ aabcActive.enc = .active ∧ aabcActive.err = false ∧ aabcActive.cfg.wf = true ∧
    (codeAt aabcActive 0x61).valid = true ∧ (codeAt aabcActive 0x7A).valid = false ∧
    6 + (codeAt aabcActive 0x61).len.toNat ≤ payloadMax tiny ∧
    payloadMax tiny < 6 + (codeAt aabcActive 0x62).len.toNat ∧
    aabcEncoded.payload.length ≤ payloadMax aabcEncoded.cfg ∧ aabcBuilt.phase ≠ .coded := by decide +kernel

/-- DecodeEmitsTheLeavesOfThePaths: V-E1, the four paths a, a, b, c. -/
theorem witness_decode_paths : aabcPublished.phase = .coded ∧ aabcPublished.enc = .idle ∧
    aabcPublished.packLen ≠ 0 ∧ aabcPublished.cfg.wf = true ∧ 4 ≤ outDepth aabcPublished.cfg ∧
    payloadBits aabcPublished = [[false], [false], [true, false], [true, true]].flatten ∧
    follow (nodeAt aabcPublished) aabcPublished.root.toNat [false] = some 2 ∧ (nodeAt aabcPublished 2).leaf = true ∧
    follow (nodeAt aabcPublished) aabcPublished.root.toNat [true, false] = some 0 ∧
    (nodeAt aabcPublished 0).leaf = true ∧
    follow (nodeAt aabcPublished) aabcPublished.root.toNat [true, true] = some 1 ∧
    (nodeAt aabcPublished 1).leaf = true := by decide +kernel

/-- DecodeFlagsMalformedAndOverlong: V-E5, V-E2 (the rest "1" ends at node 3), and two symbols for an OUT of one. -/
theorem witness_decode_errors : aabcBuilt.packLen = 0 ∧ aabcBuilt.enc = .idle ∧ aabcBuilt.err = false ∧
    payloadBits { aabcBuilt with pack := [(0, 0x03)], packLen := 1 } = [true] ∧
    follow (nodeAt aabcBuilt) aabcBuilt.root.toNat [true] = some 3 ∧ (nodeAt aabcBuilt 3).leaf = false ∧
    3 ≠ aabcBuilt.root.toNat ∧
    payloadBits { aabcBuilt with cfg := tiny, pack := [(0, 0x04)], packLen := 1 } = [[false], [false]].flatten ∧
    2 = outDepth tiny + 1 := by decide +kernel

/-- The invariant holds in SORTED (StepKeepsTheInvariant, InvariantGivesTheFactsBetweenCommands, the exact sums of
BuildMakesAStrictBinaryTree). -/
theorem witness_inv_sorted : Inv aabcSorted := by
  refine ⟨by decide +kernel, ?_, ?_⟩ <;> constructor <;> decide +kernel

/-- The invariant holds in BUILT (GencodeRecordsThePaths, InternalKeysNeverDecrease, BuildMergesTheFrontsOfTheQueues). -/
theorem witness_inv_built : Inv aabcBuilt ∧ aabcBuilt.phase = .built := by
  refine ⟨⟨by decide +kernel, ?_, ?_⟩, by decide +kernel⟩ <;> constructor <;> decide +kernel

/-- The invariant holds in CODED with the encode of "aabc" open (CodebookIsPrefixFree, EncodeThenDecodeGivesTheText,
PublishedStreamIsSelfDescribing, the bits above MAXLEN of ReadOnlyWindowsShowTheMemories). -/
theorem witness_inv_encoding : Inv aabcEncoded ∧ aabcEncoded.phase = .coded ∧ aabcEncoded.enc = .active ∧
    [0x61, 0x61, 0x62, 0x63].all (fun x : Byte => (codeAt aabcEncoded x.toNat).valid) = true ∧
    aabcEncoded.payload = [0x61, 0x61, 0x62, 0x63].flatMap (fun x : Byte => codeword (codeAt aabcEncoded x.toNat)) := by
  refine ⟨⟨by decide +kernel, ?_, ?_⟩, by decide +kernel⟩ <;> constructor <;> decide +kernel

end Witnesses

end Sys2Proof.Tests
end

section
/-! PROOFS. Binary64: the values of the patterns, the rounding of `fl64` (00_scope.md rule R13), and the range of the
probabilities (41_analyze.md rule R145). -/

namespace Sys2Proof.Machine

section Patterns

theorem exponentField_toNat (w : Binary64) : (w.extractLsb' 52 11).toNat = w.toNat / 2 ^ 52 % 2 ^ 11 := by
  rw [BitVec.extractLsb'_toNat, Nat.shiftRight_eq_div_pow]

theorem fractionField_toNat (w : Binary64) : (w.extractLsb' 0 52).toNat = w.toNat % 2 ^ 52 := by
  rw [BitVec.extractLsb'_toNat, Nat.shiftRight_zero]

/-- `k` and `q` are the quantum's exponent and the significand of a finite value `q * 2^k`, by which its pattern is
`k * 2^52 + q`; a significand of `2^53` is one that has just been rounded up. -/
structure Scaled (k q : Nat) : Prop where
  finite : k * 2 ^ 52 + q < 0x7FF0000000000000
  significand : q ≤ 2 ^ 53
  normal : k = 0 ∨ 2 ^ 52 ≤ q

/-- Every finite non-negative pattern has a quantum and a significand below `2^53`. -/
theorem exists_scaled {p : Nat} (hp : p < 0x7FF0000000000000) :
    ∃ k q, p = k * 2 ^ 52 + q ∧ q < 2 ^ 53 ∧ Scaled k q :=
  ⟨p / 2 ^ 52 - 1, p - (p / 2 ^ 52 - 1) * 2 ^ 52, by omega, by omega, by omega, by omega, by omega⟩

/-- The value of a pattern is its significand times its quantum. -/
theorem Scaled.weightUnits_eq {k q : Nat} {w : Binary64} (h : Scaled k q) (hw : w.toNat = k * 2 ^ 52 + q) :
    weightUnits w = q * 2 ^ k := by
  obtain ⟨hfin, hq, hk⟩ := h
  simp only [weightUnits, exponentField_toNat, fractionField_toNat, hw]
  rcases Nat.lt_or_ge q (2 ^ 52) with hlt | hge
  · obtain rfl : k = 0 := by omega
    rw [if_pos (by omega)]
    omega
  rcases Nat.lt_or_ge q (2 ^ 53) with hlt | hge'
  · have he : (k * 2 ^ 52 + q) / 2 ^ 52 % 2 ^ 11 = k + 1 := by omega
    have hf : 2 ^ 52 + (k * 2 ^ 52 + q) % 2 ^ 52 = q := by omega
    rw [he, hf, if_neg (by omega), Nat.add_sub_cancel]
  · have he : (k * 2 ^ 52 + q) / 2 ^ 52 % 2 ^ 11 = k + 2 := by omega
    have hf : q = (2 ^ 52 + (k * 2 ^ 52 + q) % 2 ^ 52) * 2 := by omega
    rw [he, if_neg (by omega), show k + 2 - 1 = k + 1 from rfl, Nat.pow_succ (m := k), ← Nat.mul_assoc,
      Nat.mul_right_comm, ← hf]

/-- A significand below `2^53` is outweighed by `2^52` of any greater quantum. -/
theorem significand_lt {q j k : Nat} (hq : q < 2 ^ 53) (h : j < k) : q * 2 ^ j < 2 ^ 52 * 2 ^ k :=
  calc q * 2 ^ j < 2 ^ 53 * 2 ^ j := Nat.mul_lt_mul_of_pos_right hq (Nat.two_pow_pos j)
    _ = 2 ^ 52 * 2 ^ (j + 1) := by ring
    _ ≤ 2 ^ 52 * 2 ^ k := Nat.mul_le_mul_left _ (Nat.pow_le_pow_right Nat.two_pos h)

/-- A greater finite pattern has a greater value. -/
theorem weightUnits_lt_of_toNat_lt {x y : Binary64} (hy : y.toNat < 0x7FF0000000000000)
    (h : x.toNat < y.toNat) : weightUnits x < weightUnits y := by
  obtain ⟨k, q, hx, hq, hs⟩ := exists_scaled (show x.toNat < 0x7FF0000000000000 by omega)
  obtain ⟨k', q', hy, hq', hs'⟩ := exists_scaled hy
  rw [hs.weightUnits_eq hx, hs'.weightUnits_eq hy]
  have hlex : k < k' ∨ k = k' ∧ q < q' := by have := hs.normal; omega
  rcases hlex with hk | ⟨rfl, hlt⟩
  · have hq52 : 2 ^ 52 ≤ q' := by have := hs'.normal; omega
    exact (significand_lt hq hk).trans_le (Nat.mul_le_mul_right _ hq52)
  · exact Nat.mul_lt_mul_of_pos_right hlt (Nat.two_pow_pos k)

/-- On finite non-negative patterns the order of the values is the order of the patterns. -/
theorem weightUnits_le_iff {x y : Binary64} (hx : x.toNat < 0x7FF0000000000000)
    (hy : y.toNat < 0x7FF0000000000000) : weightUnits x ≤ weightUnits y ↔ x.toNat ≤ y.toNat := by
  refine ⟨fun h => ?_, fun h => ?_⟩
  · by_contra hlt
    exact (weightUnits_lt_of_toNat_lt hx (not_le.1 hlt)).not_ge h
  · rcases h.eq_or_lt with heq | hlt
    · rw [BitVec.eq_of_toNat_eq heq]
    · exact (weightUnits_lt_of_toNat_lt hy hlt).le

theorem weightUnits_inj {x y : Binary64} (hx : x.toNat < 0x7FF0000000000000)
    (hy : y.toNat < 0x7FF0000000000000) (h : weightUnits x = weightUnits y) : x = y :=
  BitVec.eq_of_toNat_eq
    (((weightUnits_le_iff hx hy).1 h.le).antisymm ((weightUnits_le_iff hy hx).1 h.ge))

/-- The largest finite value. -/
theorem weightUnits_max : weightUnits 0x7FEFFFFFFFFFFFFF = (2 ^ 53 - 1) * 2 ^ 2045 :=
  Scaled.weightUnits_eq ⟨by omega, by omega, by omega⟩ (by decide)

end Patterns

section Rounding

/-- `roundToEven` rounds down or up: to the quotient when the remainder is at most half, and to the next
integer when it is at least half; an exact half gives an even integer. -/
theorem roundToEven_cases (n d : Nat) :
    (roundToEven n d = n / d ∧ 2 * (n % d) ≤ d ∨ roundToEven n d = n / d + 1 ∧ d ≤ 2 * (n % d)) ∧
      (2 * (n % d) = d → roundToEven n d % 2 = 0) := by
  simp only [roundToEven]
  split_ifs <;> omega

/-- The distance of `n` from `m` quanta of `d`. -/
def gap (n d m : Nat) : Nat := ((n : Int) - d * m).natAbs

theorem gap_eq (n d m : Nat) : gap n d m = (n - d * m) + (d * m - n) := by
  rw [gap, ← Nat.cast_mul]
  omega

/-- The rounded quotient is the nearest integer, and even where another integer is as near. -/
theorem roundToEven_nearest (n m : Nat) {d : Nat} (hd : 0 < d) :
    gap n d (roundToEven n d) ≤ gap n d m ∧
      (gap n d (roundToEven n d) = gap n d m → m ≠ roundToEven n d → roundToEven n d % 2 = 0) := by
  obtain ⟨hround, htie⟩ := roundToEven_cases n d
  have hn := Nat.div_add_mod n d
  have hr := Nat.mod_lt n hd
  have hup : d * (n / d + 1) = d * (n / d) + d := Nat.mul_succ ..
  have hm : d * m + d ≤ d * (n / d) ∨ m = n / d ∨ m = n / d + 1 ∨ d * (n / d + 1) + d ≤ d * m := by
    rw [← Nat.mul_succ, ← Nat.mul_succ, Nat.mul_le_mul_left_iff hd, Nat.mul_le_mul_left_iff hd]
    omega
  simp only [gap_eq]
  rcases hround with ⟨h, hhalf⟩ | ⟨h, hhalf⟩
  · rw [h] at htie ⊢
    rcases hm with hm | rfl | rfl | hm <;> omega
  · rw [h] at htie ⊢
    rcases hm with hm | rfl | rfl | hm <;> omega

theorem le_roundToEven {n d m : Nat} (hd : 0 < d) (h : d * m ≤ n) : m ≤ roundToEven n d := by
  have hm : m ≤ n / d := (Nat.le_div_iff_mul_le hd).2 (by rwa [Nat.mul_comm])
  have := (roundToEven_cases n d).1
  omega

theorem roundToEven_le {n d m : Nat} (hd : 0 < d) (h : n ≤ d * m) : roundToEven n d ≤ m := by
  have hn := Nat.div_add_mod n d
  have hm : n / d ≤ m := Nat.div_le_of_le_mul h
  have := (roundToEven_cases n d).1
  rcases Nat.eq_or_lt_of_le hm with rfl | hlt <;> omega

end Rounding

section NearestValue
variable {n d : Nat}

/-- The exponent of the quantum that `fl64` rounds `n / d` to (R13). -/
def quantum (n d : Nat) : Nat := (n / d).log2 - 52

/-- The quantum is the smallest one, or the real number needs all 53 bits. -/
theorem quantum_low (hd : 0 < d) : quantum n d = 0 ∨ d * 2 ^ quantum n d * 2 ^ 52 ≤ n := by
  refine or_iff_not_imp_left.2 fun hk => ?_
  have hpos : n / d ≠ 0 := fun h => hk (by rw [quantum, h]; rfl)
  rw [Nat.mul_assoc, ← Nat.pow_add, Nat.mul_comm, ← Nat.le_div_iff_mul_le hd]
  refine (Nat.le_log2 hpos).1 ?_
  rw [quantum] at hk ⊢
  omega

/-- 53 bits are enough. -/
theorem quantum_high (hd : 0 < d) : n ≤ d * 2 ^ quantum n d * 2 ^ 53 := by
  have hlog : n / d < 2 ^ (quantum n d + 53) :=
    Nat.lt_log2_self.trans_le (Nat.pow_le_pow_right Nat.two_pos (by rw [quantum]; omega))
  rw [Nat.mul_assoc, ← Nat.pow_add]
  exact ((Nat.div_lt_iff_lt_mul hd).1 hlog).le.trans_eq (Nat.mul_comm _ _)

/-- A number below `2^53` quanta of `2^top` has no greater quantum. -/
theorem quantum_le (hd : 0 < d) {top : Nat} (hn : n ≤ d * ((2 ^ 53 - 1) * 2 ^ top)) : quantum n d ≤ top := by
  by_contra hgt
  have hlow := (quantum_low hd).resolve_left (show quantum n d ≠ 0 by omega)
  rw [Nat.mul_assoc] at hlow
  have hle : 2 ^ quantum n d * 2 ^ 52 ≤ (2 ^ 53 - 1) * 2 ^ top := Nat.le_of_mul_le_mul_left (hlow.trans hn) hd
  have hpow : 2 ^ (top + 1) ≤ 2 ^ quantum n d := Nat.pow_le_pow_right Nat.two_pos (by omega)
  have := Nat.two_pow_pos top
  rw [Nat.pow_succ] at hpow
  omega

/-- The rounded significand of a number in the range of the finite values, in its quantum. -/
theorem scaled_roundToEven (hd : 0 < d) {top : Nat} (htop : top = 2045) (hn : n ≤ d * ((2 ^ 53 - 1) * 2 ^ top)) :
    Scaled (quantum n d) (roundToEven n (d * 2 ^ quantum n d)) := by
  have hD : 0 < d * 2 ^ quantum n d := Nat.mul_pos hd (Nat.two_pow_pos _)
  have hk := quantum_le hd hn
  have hq : roundToEven n (d * 2 ^ quantum n d) ≤ 2 ^ 53 := roundToEven_le hD (quantum_high hd)
  have hq_top : quantum n d = top → roundToEven n (d * 2 ^ quantum n d) ≤ 2 ^ 53 - 1 := fun h =>
    roundToEven_le hD (by rwa [h, Nat.mul_assoc, Nat.mul_comm (2 ^ top)])
  exact ⟨by omega, hq, (quantum_low hd).imp_right (le_roundToEven hD)⟩

/-- `fl64` (R13), quantum by quantum: in the range of the finite values the result is the nearest multiple of a quantum
that is the smallest one, or at which the real number needs all 53 bits. -/
theorem fl64_scaled (hd : 0 < d) (hn : n ≤ d * weightUnits 0x7FEFFFFFFFFFFFFF) :
    ∃ k, (k = 0 ∨ d * 2 ^ k * 2 ^ 52 ≤ n) ∧ Scaled k (roundToEven n (d * 2 ^ k)) ∧
      (fl64 n d).toNat = k * 2 ^ 52 + roundToEven n (d * 2 ^ k) := by
  rw [weightUnits_max] at hn
  have hs := scaled_roundToEven hd rfl hn
  have hfin := hs.finite
  refine ⟨quantum n d, quantum_low hd, hs, ?_⟩
  rw [quantum] at hfin ⊢
  simp only [fl64, BitVec.toNat_ofNat]
  omega

/-- In the range of the finite values the result is finite (R13). -/
theorem fl64_finite (hd : 0 < d) (hn : n ≤ d * weightUnits 0x7FEFFFFFFFFFFFFF) :
    (fl64 n d).toNat < 0x7FF0000000000000 := by
  obtain ⟨k, -, hs, hx⟩ := fl64_scaled hd hn
  exact hx ▸ hs.finite

/-- Counting `m` units of `c` each is counting `m * c` units. -/
theorem gap_mul (n d c m : Nat) : gap n (d * c) m = gap n d (m * c) := by
  rw [gap_eq, gap_eq, Nat.mul_comm m c, Nat.mul_assoc]

/-- Below `n` a greater value is nearer. -/
theorem gap_lt_of_lt {m m' : Nat} (hd : 0 < d) (hm : m < m') (hn : d * m' ≤ n) : gap n d m' < gap n d m := by
  have : d * m < d * m' := Nat.mul_lt_mul_of_pos_left hm hd
  rw [gap_eq, gap_eq]
  omega

/-- A finite value is a multiple of the quantum `2^k`, or is below `2^52` quanta. -/
theorem value_multiple_or_lt (k : Nat) {y : Binary64} (hy : y.toNat < 0x7FF0000000000000) :
    (∃ m, weightUnits y = m * 2 ^ k) ∨ weightUnits y < 2 ^ 52 * 2 ^ k ∧ k ≠ 0 := by
  obtain ⟨j, q, hyq, hq, hs⟩ := exists_scaled hy
  rw [hs.weightUnits_eq hyq]
  rcases Nat.lt_or_ge j k with hlt | hge
  · exact .inr ⟨significand_lt hq hlt, by omega⟩
  · exact .inl ⟨q * 2 ^ (j - k), by rw [Nat.mul_assoc, ← Nat.pow_add, Nat.sub_add_cancel hge]⟩

/-- No finite value is nearer than `fl64`, and where another is as near the result is even (R13). -/
theorem fl64_nearest (hd : 0 < d) (hn : n ≤ d * weightUnits 0x7FEFFFFFFFFFFFFF) {y : Binary64}
    (hy : y.toNat < 0x7FF0000000000000) :
    gap n d (weightUnits (fl64 n d)) ≤ gap n d (weightUnits y) ∧
      (gap n d (weightUnits (fl64 n d)) = gap n d (weightUnits y) → y ≠ fl64 n d →
        (fl64 n d).getLsbD 0 = false) := by
  obtain ⟨k, hlow, hs, hx⟩ := fl64_scaled hd hn
  have hD : 0 < d * 2 ^ k := Nat.mul_pos hd (Nat.two_pow_pos k)
  have hvx := hs.weightUnits_eq hx
  rcases value_multiple_or_lt k hy with ⟨m, hvy⟩ | ⟨hvy, hk⟩
  · rw [hvx, hvy, ← gap_mul, ← gap_mul]
    obtain ⟨hle, htie⟩ := roundToEven_nearest n m hD
    refine ⟨hle, fun heq hne => ?_⟩
    have hm : m ≠ roundToEven n (d * 2 ^ k) := by
      rintro rfl
      exact hne (weightUnits_inj hy (fl64_finite hd hn) (hvy.trans hvx.symm))
    have heven := htie heq hm
    rw [BitVec.getLsbD, hx, Nat.testBit_zero, decide_eq_false_iff_not]
    omega
  · have hlt : gap n d (weightUnits (fl64 n d)) < gap n d (weightUnits y) := by
      have hn52 : d * (2 ^ 52 * 2 ^ k) ≤ n := by
        rw [Nat.mul_comm (2 ^ 52), ← Nat.mul_assoc]
        exact hlow.resolve_left hk
      calc gap n d (weightUnits (fl64 n d)) = gap n (d * 2 ^ k) (roundToEven n (d * 2 ^ k)) := by rw [hvx, gap_mul]
        _ ≤ gap n (d * 2 ^ k) (2 ^ 52) := (roundToEven_nearest n _ hD).1
        _ = gap n d (2 ^ 52 * 2 ^ k) := gap_mul ..
        _ < gap n d (weightUnits y) := gap_lt_of_lt hd hvy hn52
    exact ⟨hlt.le, fun heq => absurd heq hlt.ne⟩

end NearestValue

/-- Settles O41, by the nearest multiple of the result's quantum. -/
theorem fl64IsNearestTiesToEven : Obligations.Fl64IsNearestTiesToEven := by
  intro n d hd hn
  exact ⟨fl64_finite hd hn, fun y hy => fl64_nearest hd hn hy⟩

section Probabilities
variable {n d : Nat}

/-- Above `n` a smaller value is nearer. -/
theorem gap_lt_of_gt {m m' : Nat} (hd : 0 < d) (hm : m' < m) (hn : n ≤ d * m') : gap n d m' < gap n d m := by
  have : d * m' < d * m := Nat.mul_lt_mul_of_pos_left hm hd
  rw [gap_eq, gap_eq]
  omega

/-- A real number that is at least a finite value is not rounded below it. -/
theorem weightUnits_le_fl64 (hd : 0 < d) (hn : n ≤ d * weightUnits 0x7FEFFFFFFFFFFFFF) {y : Binary64}
    (hy : y.toNat < 0x7FF0000000000000) (h : d * weightUnits y ≤ n) : weightUnits y ≤ weightUnits (fl64 n d) := by
  by_contra hlt
  exact (gap_lt_of_lt hd (not_le.1 hlt) h).not_ge (fl64_nearest hd hn hy).1

/-- A real number that is at most a finite value is not rounded above it. -/
theorem weightUnits_fl64_le (hd : 0 < d) (hn : n ≤ d * weightUnits 0x7FEFFFFFFFFFFFFF) {y : Binary64}
    (hy : y.toNat < 0x7FF0000000000000) (h : n ≤ d * weightUnits y) : weightUnits (fl64 n d) ≤ weightUnits y := by
  by_contra hlt
  exact (gap_lt_of_gt hd (not_le.1 hlt) h).not_ge (fl64_nearest hd hn hy).1

/-- A power of two has the significand `2^52`. -/
theorem weightUnits_eq_two_pow {w : Binary64} {e : Nat} (he : 52 ≤ e) (hw : w.toNat = (e - 52) * 2 ^ 52 + 2 ^ 52)
    (hfin : w.toNat < 0x7FF0000000000000) : weightUnits w = 2 ^ e := by
  rw [Scaled.weightUnits_eq ⟨hw ▸ hfin, by decide, .inr le_rfl⟩ hw, ← Nat.pow_add, Nat.add_sub_cancel' he]

theorem weightUnits_one : weightUnits 0x3FF0000000000000 = 2 ^ 1074 :=
  weightUnits_eq_two_pow (by omega) (by decide) (by decide)

theorem weightUnits_two_pow_neg_32 : weightUnits 0x3DF0000000000000 = 2 ^ 1042 :=
  weightUnits_eq_two_pow (by omega) (by decide) (by decide)

/-- The largest value below 1. -/
theorem weightUnits_below_one : weightUnits 0x3FEFFFFFFFFFFFFF = (2 ^ 53 - 1) * 2 ^ 1021 :=
  Scaled.weightUnits_eq ⟨by omega, by omega, by omega⟩ (by decide)

variable {c total : Nat}

/-- A count is at most its total, so the probability is in the range of the finite values. -/
theorem count_in_range (hc : c ≤ total) : c * 2 ^ 1074 ≤ total * weightUnits 0x7FEFFFFFFFFFFFFF := by
  rw [← weightUnits_one]
  exact Nat.mul_le_mul hc ((weightUnits_le_iff (by decide) (by decide)).2 (by decide))

theorem weightOfCount_le_one (h1 : 1 ≤ c) (hc : c ≤ total) : weightUnits (weightOfCount c total) ≤ 2 ^ 1074 := by
  rw [← weightUnits_one]
  refine weightUnits_fl64_le (by omega) (count_in_range hc) (by decide) ?_
  rw [weightUnits_one]
  exact Nat.mul_le_mul_right _ hc

theorem total_mul_le {a b : Nat} (h1 : 1 ≤ c) (ht : total < 2 ^ 32) (hab : a = 32 + b) :
    total * 2 ^ b ≤ c * 2 ^ a := by
  rw [hab, Nat.pow_add, ← Nat.mul_assoc]
  exact Nat.mul_le_mul_right _ (by omega)

theorem le_weightOfCount (h1 : 1 ≤ c) (hc : c ≤ total) (ht : total < 2 ^ 32) :
    2 ^ 1042 ≤ weightUnits (weightOfCount c total) := by
  rw [← weightUnits_two_pow_neg_32]
  refine weightUnits_le_fl64 (by omega) (count_in_range hc) (by decide) ?_
  rw [weightUnits_two_pow_neg_32]
  exact total_mul_le h1 ht rfl

/-- A count below a total of 32 bits has a probability of at most `1 - 2^-53`, and so rounds to a value below 1. -/
theorem weightOfCount_lt_one (h1 : 1 ≤ c) (hc : c < total) (ht : total < 2 ^ 32) :
    weightUnits (weightOfCount c total) ≤ weightUnits 0x3FEFFFFFFFFFFFFF := by
  refine weightUnits_fl64_le (by omega) (count_in_range hc.le) (by decide) ?_
  have hle : c * 2 ^ 53 ≤ total * (2 ^ 53 - 1) := by omega
  calc c * 2 ^ 1074 = c * 2 ^ 53 * 2 ^ 1021 := by rw [Nat.mul_assoc, ← Nat.pow_add]
    _ ≤ total * (2 ^ 53 - 1) * 2 ^ 1021 := Nat.mul_le_mul_right _ hle
    _ = total * weightUnits 0x3FEFFFFFFFFFFFFF := by rw [weightUnits_below_one, Nat.mul_assoc]

theorem weightOfCount_self (h1 : 1 ≤ c) : weightOfCount c c = 0x3FF0000000000000 := by
  refine weightUnits_inj (fl64_finite h1 (count_in_range le_rfl)) (by decide) (le_antisymm ?_ ?_)
  · exact (weightOfCount_le_one h1 le_rfl).trans_eq weightUnits_one.symm
  · exact weightUnits_le_fl64 h1 (count_in_range le_rfl) (by decide) (by rw [weightUnits_one])

theorem weightOfCount_eq_one_iff (h1 : 1 ≤ c) (hc : c ≤ total) (ht : total < 2 ^ 32) :
    weightOfCount c total = 0x3FF0000000000000 ↔ c = total := by
  refine ⟨fun h => ?_, fun h => h ▸ weightOfCount_self h1⟩
  by_contra hne
  have hle := weightOfCount_lt_one h1 (by omega) ht
  rw [h, weightUnits_le_iff (by decide) (by decide)] at hle
  exact absurd hle (by decide)

/-- The pattern of a probability lies between those of `2^-32` and 1. -/
theorem weightOfCount_toNat (h1 : 1 ≤ c) (hc : c ≤ total) (ht : total < 2 ^ 32) :
    0x3DF0000000000000 ≤ (weightOfCount c total).toNat ∧ (weightOfCount c total).toNat ≤ 0x3FF0000000000000 := by
  have hfin := fl64_finite (by omega) (count_in_range hc)
  have hlow := le_weightOfCount h1 hc ht
  have hhigh := weightOfCount_le_one h1 hc
  rw [← weightUnits_two_pow_neg_32] at hlow
  rw [← weightUnits_one] at hhigh
  exact ⟨(weightUnits_le_iff (by decide) hfin).1 hlow, (weightUnits_le_iff hfin (by decide)).1 hhigh⟩

end Probabilities

/-- Settles O40: the pattern lies between those of `2^-32` and 1, which gives the sign and the exponent field. -/
theorem probabilitiesLieInTheUnitInterval : Obligations.ProbabilitiesLieInTheUnitInterval := by
  intro c total h1 hc ht w
  have hbounds : 0x3DF0000000000000 ≤ w.toNat ∧ w.toNat ≤ 0x3FF0000000000000 := weightOfCount_toNat h1 hc ht
  have hexp : (w.extractLsb' 52 11).toNat = w.toNat / 2 ^ 52 := by
    rw [exponentField_toNat]
    omega
  refine ⟨?_, by omega, by omega, le_weightOfCount h1 hc ht, weightOfCount_le_one h1 hc,
    weightOfCount_eq_one_iff h1 hc ht⟩
  rw [BitVec.getLsbD, Nat.testBit_lt_two_pow (by omega)]

end Sys2Proof.Machine
end

section
/-! PROOFS. ANALYZE: its outcome, and the symbols counted before and after the injection of the placeholders
(41_analyze.md rules R142-R144). -/

namespace Sys2Proof.Machine

section Configurations
variable {c : Config}

theorem nsym_of_wf (h : c.wf = true) : c.nsym = 128 ∨ c.nsym = 256 := by
  simp only [Config.wf, Bool.and_eq_true, Bool.or_eq_true, beq_iff_eq] at h
  obtain ⟨⟨⟨⟨hnsym, -⟩, -⟩, -⟩, -⟩ := h
  exact hnsym

theorem cw_le_of_wf (h : c.wf = true) : c.cw ≤ 32 := by
  simp only [Config.wf, Bool.and_eq_true, decide_eq_true_eq] at h
  obtain ⟨⟨⟨-, hcw⟩, -⟩, -⟩ := h
  exact hcw

/-- A count that fits its counter is stored exactly (R4, R144). -/
theorem toCount_toNat (h : c.wf = true) {n : Nat} (hn : n ≤ countMax c) : (toCount c n).toNat = n := by
  have hpos := Nat.two_pow_pos c.cw
  have hle : 2 ^ c.cw ≤ 2 ^ 32 := Nat.pow_le_pow_right Nat.two_pos (cw_le_of_wf h)
  rw [countMax] at hn
  rw [toCount, BitVec.toNat_ofNat, Nat.mod_eq_of_lt (show n < 2 ^ c.cw by omega), Nat.mod_eq_of_lt (by omega)]

end Configurations

section Counts

/-- The sorter lists the symbols with a non-zero count (R142). -/
theorem sortedTallies_length (f : List Nat) : (sortedTallies f).length = distinctCount f := by
  rw [sortedTallies, List.length_insertionSort, ← List.countP_eq_length_filter, List.countP_map, distinctCount]
  conv_rhs => rw [← List.zipIdx_map_fst 0 f, List.countP_map]
  rfl

theorem sum_modify_succ (f : List Nat) {i : Nat} (hi : i < f.length) : (f.modify i (· + 1)).sum = f.sum + 1 := by
  induction f generalizing i with
  | nil => simp at hi
  | cons x f ih =>
    cases i with
    | zero => rw [List.modify_zero_cons, List.sum_cons, List.sum_cons, Nat.add_right_comm]
    | succ i =>
      rw [List.modify_succ_cons, List.sum_cons, List.sum_cons, ih (Nat.lt_of_succ_lt_succ hi), Nat.add_assoc]

theorem modify_map_range (g : Nat → Nat) (n i : Nat) :
    ((List.range n).map g).modify i (· + 1) = (List.range n).map fun j => g j + if j = i then 1 else 0 := by
  refine List.ext_getElem (by simp) fun j hj hj' => ?_
  by_cases h : i = j
  · simp [h]
  · simp [h, Ne.symm h]

/-- The counts ANALYZE sorts: each placeholder's count rises by one when they are injected (R143). -/
theorem injected_freqCounts (c : Config) (freq : Memory Word) :
    injected c (freqCounts c freq) = (List.range c.nsym).map fun i => (Memory.get 0 freq i).toNat +
      if injects c (freqCounts c freq) = true ∧ (i = placeholderA ∨ i = placeholderB) then 1 else 0 := by
  cases h : injects c (freqCounts c freq)
  · rw [injected, if_neg (by simp [h])]
    exact List.map_congr_left fun i _ => by simp
  · rw [injected, if_pos h, freqCounts, modify_map_range, modify_map_range]
    refine List.map_congr_left fun i _ => ?_
    have hne : placeholderA ≠ placeholderB := by decide
    by_cases ha : i = placeholderA
    · simp [ha, hne]
    · simp [ha]

end Counts

section CountedSymbols
variable (s : State)

/-- T0 as a sum over the symbols. -/
theorem countedTotal_eq_sum : countedTotal s = ∑ i ∈ Finset.range s.cfg.nsym, (freqAt s i).toNat := rfl

/-- D0 is the size of the set of the counted symbols. -/
theorem countedSymbols_eq_card :
    countedSymbols s = {i ∈ Finset.range s.cfg.nsym | freqAt s i ≠ 0}.card := by
  rw [countedSymbols, ← Nat.count_eq_card_filter_range, Nat.count]
  refine List.countP_congr fun i _ => ?_
  rw [decide_eq_true_iff, decide_eq_true_iff, Nat.pos_iff_ne_zero, ne_eq, ne_eq, BitVec.toNat_eq]
  rfl

theorem countedSymbols_eq_one_iff : countedSymbols s = 1 ↔
    ∃ x, x < s.cfg.nsym ∧ freqAt s x ≠ 0 ∧ ∀ i, i < s.cfg.nsym → i ≠ x → freqAt s i = 0 := by
  rw [countedSymbols_eq_card, Finset.card_eq_one]
  refine exists_congr fun x => ?_
  rw [Finset.eq_singleton_iff_unique_mem, Finset.mem_filter, Finset.mem_range, and_assoc]
  refine and_congr_right fun _ => and_congr_right fun _ => ⟨fun h i hi hne => ?_, fun h i hi => ?_⟩
  · by_contra h0
    exact hne (h i (Finset.mem_filter.2 ⟨Finset.mem_range.2 hi, h0⟩))
  · rw [Finset.mem_filter, Finset.mem_range] at hi
    by_contra hne
    exact hi.2 (h i hi.1 hne)

theorem countedSymbols_eq_zero (h : countedSymbols s = 0) : countedTotal s = 0 := by
  rw [countedSymbols_eq_card, Finset.card_eq_zero, Finset.filter_eq_empty_iff] at h
  rw [countedTotal_eq_sum]
  refine Finset.sum_eq_zero fun i hi => ?_
  rw [not_not.1 (h hi)]
  rfl

variable {s}

theorem countedTotal_of_unique {x : Nat} (hx : x < s.cfg.nsym)
    (h : ∀ i, i < s.cfg.nsym → i ≠ x → freqAt s i = 0) : countedTotal s = (freqAt s x).toNat := by
  rw [countedTotal_eq_sum]
  refine Finset.sum_eq_single_of_mem x (Finset.mem_range.2 hx) fun i hi hne => ?_
  rw [h i (Finset.mem_range.1 hi) hne]
  rfl

theorem freqAt_le_countedTotal {i : Nat} (hi : i < s.cfg.nsym) : (freqAt s i).toNat ≤ countedTotal s :=
  Finset.single_le_sum (f := fun i => (freqAt s i).toNat) (fun _ _ => Nat.zero_le _) (Finset.mem_range.2 hi)

theorem injectionDue_totalOne (h : s.cfg.trigger = .totalOne) : injectionDue s = true ↔ countedTotal s = 1 := by
  simp [injectionDue, h]

theorem injectionDue_distinctOne (h : s.cfg.trigger = .distinctOne) :
    injectionDue s = true ↔ countedSymbols s = 1 := by
  simp [injectionDue, h]

end CountedSymbols

section Analyze
variable {s : State}

/-- A successful ANALYZE (R142). -/
def analyzedState (s : State) : State :=
  let f0 := freqCounts s.cfg s.freq
  let f := injected s.cfg f0
  completed { s with
    slist := sortedList s.cfg f
    freq := if injects s.cfg f0 then writeBack s.cfg s.freq f else s.freq
    ndist := BitVec.ofNat 32 (sortedTallies f).length
    total := BitVec.ofNat 32 f.sum
    inj := injects s.cfg f0
    phase := .sorted }

theorem analyzedState_inj (s : State) : (analyzedState s).inj = injectionDue s := (injectionDue_eq s).symm

/-- The total after injection (R143). -/
theorem injected_sum (hwf : s.cfg.wf = true) : (injected s.cfg (freqCounts s.cfg s.freq)).sum = analysedTotal s := by
  have hns := nsym_of_wf hwf
  have hlen : (freqCounts s.cfg s.freq).length = s.cfg.nsym := by simp [freqCounts]
  rw [analysedTotal, countedTotal_eq, injectionDue_eq, injected]
  split_ifs
  · rw [sum_modify_succ _ (by simp only [List.length_modify, placeholderB]; omega),
      sum_modify_succ _ (by simp only [placeholderA]; omega)]
  · rfl

/-- ANALYZE succeeds on a total that is not 0 and fits its counter (R142, R144). -/
theorem exec_analyze_of_fits (hwf : s.cfg.wf = true) (hp : s.phase = .opened) (h0 : countedTotal s ≠ 0)
    (hfit : analysedTotal s ≤ countMax s.cfg) : exec .analyze s = .next (analyzedState s) := by
  rw [countedTotal_eq] at h0
  rw [← injected_sum hwf] at hfit
  simp only [exec, execAnalyze]
  rw [if_neg (not_not.2 hp), if_neg h0, if_neg (not_lt.2 hfit)]
  rfl

/-- An ANALYZE that leaves SORTED has succeeded. -/
theorem exec_analyze_sorted (hwf : s.cfg.wf = true) (hp : s.phase = .opened) {t : State}
    (ht : exec .analyze s = .next t) (hsorted : t.phase = .sorted) :
    countedTotal s ≠ 0 ∧ analysedTotal s ≤ countMax s.cfg ∧ t = analyzedState s := by
  have hraise (e : ErrCode) (info : Word) : raise e info s ≠ t := by
    rintro rfl
    simp [hp] at hsorted
  have h0 : countedTotal s ≠ 0 := by
    intro h0
    simp only [exec, execAnalyze] at ht
    rw [if_neg (not_not.2 hp), if_pos ((countedTotal_eq s).symm.trans h0)] at ht
    exact hraise _ _ (Host.Outcome.next.inj ht)
  have hfit : analysedTotal s ≤ countMax s.cfg := by
    by_contra hover
    rw [← injected_sum hwf, not_le] at hover
    simp only [exec, execAnalyze] at ht
    rw [if_neg (not_not.2 hp), if_neg ((countedTotal_eq s).symm.trans_ne h0), if_pos hover] at ht
    exact hraise _ _ (Host.Outcome.next.inj ht)
  exact ⟨h0, hfit, Host.Outcome.next.inj (ht.symm.trans (exec_analyze_of_fits hwf hp h0 hfit))⟩

/-- The placeholders' counts after injection fit their counters (R143, R144). -/
theorem toCount_injected (hwf : s.cfg.wf = true) (hfit : analysedTotal s ≤ countMax s.cfg)
    (hinj : injectionDue s = true) {i : Nat} (hi : i = placeholderA ∨ i = placeholderB) :
    (toCount s.cfg ((injected s.cfg (freqCounts s.cfg s.freq)).getD i 0)).toNat = (freqAt s i).toNat + 1 := by
  have hlt : i < s.cfg.nsym := by
    have := nsym_of_wf hwf
    simp only [placeholderA, placeholderB] at hi
    omega
  have hget : (injected s.cfg (freqCounts s.cfg s.freq)).getD i 0 = (freqAt s i).toNat + 1 := by
    rw [injected_freqCounts, ← injectionDue_eq, List.getD_eq_getElem _ _ (by simpa using hlt)]
    simp [hinj, hi, freqAt]
  have hle := freqAt_le_countedTotal hlt
  rw [analysedTotal, if_pos hinj] at hfit
  rw [hget, toCount_toNat hwf (by omega)]

theorem freqAt_analyzedState_of_not_due (hinj : injectionDue s = false) (i : Nat) :
    freqAt (analyzedState s) i = freqAt s i := by
  rw [injectionDue_eq] at hinj
  simp [freqAt, analyzedState, completed, hinj]

/-- FREQ after a successful ANALYZE: each placeholder's counter rises by one when they are injected (R143). -/
theorem freqAt_analyzedState (hwf : s.cfg.wf = true) (hfit : analysedTotal s ≤ countMax s.cfg) (i : Nat) :
    (freqAt (analyzedState s) i).toNat =
      (freqAt s i).toNat + if injectionDue s = true ∧ (i = 0x61 ∨ i = 0x62) then 1 else 0 := by
  change _ = _ + if _ ∧ (i = placeholderA ∨ i = placeholderB) then 1 else 0
  cases hinj : injectionDue s with
  | false =>
    rw [freqAt_analyzedState_of_not_due hinj]
    simp
  | true =>
    have hfreq : (analyzedState s).freq = writeBack s.cfg s.freq (injected s.cfg (freqCounts s.cfg s.freq)) :=
      if_pos ((injectionDue_eq s).symm.trans hinj)
    rw [freqAt, hfreq, writeBack]
    by_cases hb : i = placeholderB
    · subst hb
      rw [Memory.get_set_same, toCount_injected hwf hfit hinj (.inr rfl)]
      simp
    · rw [Memory.get_set_other _ _ _ hb]
      by_cases ha : i = placeholderA
      · subst ha
        rw [Memory.get_set_same, toCount_injected hwf hfit hinj (.inl rfl)]
        simp
      · rw [Memory.get_set_other _ _ _ ha]
        simp [ha, hb, freqAt]

/-- The counts ANALYZE sorts are those it leaves in FREQ. -/
theorem freqCounts_analyzedState (hwf : s.cfg.wf = true) (hfit : analysedTotal s ≤ countMax s.cfg) :
    freqCounts s.cfg (analyzedState s).freq = injected s.cfg (freqCounts s.cfg s.freq) := by
  rw [injected_freqCounts, ← injectionDue_eq]
  exact List.map_congr_left fun i _ => freqAt_analyzedState hwf hfit i

/-- NDIST is the number of the symbols counted after injection (R36). -/
theorem ndist_analyzedState (hwf : s.cfg.wf = true) (hfit : analysedTotal s ≤ countMax s.cfg) :
    (analyzedState s).ndist.toNat = countedSymbols (analyzedState s) := by
  have hns := nsym_of_wf hwf
  have hle : countedSymbols (analyzedState s) ≤ s.cfg.nsym :=
    List.countP_le_length.trans_eq List.length_range
  have hlen : (sortedTallies (injected s.cfg (freqCounts s.cfg s.freq))).length =
      countedSymbols (analyzedState s) := by
    rw [sortedTallies_length, ← freqCounts_analyzedState hwf hfit, countedSymbols_eq]
    rfl
  rw [show (analyzedState s).ndist = BitVec.ofNat 32 _ from rfl, hlen, BitVec.toNat_ofNat, Nat.mod_eq_of_lt (by omega)]

end Analyze

section Placeholders
variable {s : State}

theorem countedSymbols_analyzedState_of_not_due (hinj : injectionDue s = false) :
    countedSymbols (analyzedState s) = countedSymbols s := by
  simp only [countedSymbols, freqAt_analyzedState_of_not_due hinj]
  rfl

/-- A placeholder is counted after injection (R143). -/
theorem freqAt_analyzedState_ne_zero (hwf : s.cfg.wf = true) (hfit : analysedTotal s ≤ countMax s.cfg)
    (hinj : injectionDue s = true) (i : Nat) :
    freqAt (analyzedState s) i ≠ 0 ↔ i = 0x61 ∨ i = 0x62 ∨ freqAt s i ≠ 0 := by
  have hi := freqAt_analyzedState hwf hfit i
  simp only [hinj, true_and] at hi
  rw [← or_assoc]
  by_cases hab : i = 0x61 ∨ i = 0x62
  · rw [if_pos hab] at hi
    exact iff_of_true (fun h => by simp [h] at hi) (.inl hab)
  · rw [if_neg hab, Nat.add_zero] at hi
    rw [BitVec.eq_of_toNat_eq hi, or_iff_right hab]

/-- Under DISTINCT_ONE the sorted list never has fewer than two entries (R143). -/
theorem two_le_countedSymbols (hwf : s.cfg.wf = true) (h0 : countedTotal s ≠ 0)
    (hfit : analysedTotal s ≤ countMax s.cfg) (htrigger : s.cfg.trigger = .distinctOne) :
    2 ≤ countedSymbols (analyzedState s) := by
  have hns := nsym_of_wf hwf
  by_cases hinj : injectionDue s = true
  · have hpair : ({0x61, 0x62} : Finset Nat) ⊆
        {i ∈ Finset.range s.cfg.nsym | freqAt (analyzedState s) i ≠ 0} := by
      intro i hi
      rw [Finset.mem_insert, Finset.mem_singleton] at hi
      rw [Finset.mem_filter, Finset.mem_range, freqAt_analyzedState_ne_zero hwf hfit hinj]
      omega
    rw [countedSymbols_eq_card]
    exact Finset.card_le_card hpair
  · rw [countedSymbols_analyzedState_of_not_due (Bool.eq_false_iff.2 hinj)]
    rw [injectionDue_distinctOne htrigger] at hinj
    have hne : countedSymbols s ≠ 0 := fun h => h0 (countedSymbols_eq_zero s h)
    omega

/-- After injection beside a single symbol `x` the counted symbols are `x` and the placeholders (R143). -/
theorem countedSymbols_of_unique (hwf : s.cfg.wf = true) (hfit : analysedTotal s ≤ countMax s.cfg)
    (hinj : injectionDue s = true) {x : Nat} (hx : x < s.cfg.nsym) (hx0 : freqAt s x ≠ 0)
    (h : ∀ i, i < s.cfg.nsym → i ≠ x → freqAt s i = 0) :
    countedSymbols (analyzedState s) = if x = 0x61 ∨ x = 0x62 then 2 else 3 := by
  have hns := nsym_of_wf hwf
  have hset : {i ∈ Finset.range s.cfg.nsym | freqAt (analyzedState s) i ≠ 0} = ({x, 0x61, 0x62} : Finset Nat) := by
    ext i
    rw [Finset.mem_filter, Finset.mem_range, freqAt_analyzedState_ne_zero hwf hfit hinj, Finset.mem_insert,
      Finset.mem_insert, Finset.mem_singleton]
    constructor
    · rintro ⟨hi, hab⟩
      by_contra hne
      exact absurd (h i hi (by omega)) (by tauto)
    · rintro (rfl | hab)
      · exact ⟨hx, .inr (.inr hx0)⟩
      · exact ⟨by omega, by tauto⟩
  rw [countedSymbols_eq_card]
  refine (congrArg Finset.card hset).trans ?_
  split_ifs with hab
  · obtain rfl | rfl := hab <;> rfl
  · rw [Finset.card_insert_of_notMem (by simpa using hab)]
    rfl

end Placeholders

/-- Settles O37, by the symbols that FREQ counts before and after a successful ANALYZE. -/
theorem placeholdersGiveTwoLeaves : Obligations.PlaceholdersGiveTwoLeaves := by
  intro s hwf hp
  refine ⟨fun t ht hsorted => ?_, fun x hx h => ⟨fun htrigger h1 hmax => ?_, fun htrigger h2 hmax => ?_⟩⟩
  · obtain ⟨h0, hfit, rfl⟩ := exec_analyze_sorted hwf hp ht hsorted
    rw [analyzedState_inj]
    refine ⟨?_, freqAt_analyzedState_of_not_due, fun htrigger => ?_⟩
    · cases htrigger : s.cfg.trigger with
      | totalOne => exact injectionDue_totalOne htrigger
      | distinctOne => exact (injectionDue_distinctOne htrigger).trans (countedSymbols_eq_one_iff s)
    · rw [ndist_analyzedState hwf hfit]
      exact two_le_countedSymbols hwf h0 hfit htrigger
  · have hx0 : freqAt s x ≠ 0 := fun h0 => by simp [h0] at h1
    have hinj : injectionDue s = true :=
      (injectionDue_distinctOne htrigger).2 ((countedSymbols_eq_one_iff s).2 ⟨x, hx, hx0, h⟩)
    have htotal := countedTotal_of_unique hx h
    have hfit : analysedTotal s ≤ countMax s.cfg := by
      rw [analysedTotal, if_pos hinj, htotal]
      exact hmax
    refine ⟨_, exec_analyze_of_fits hwf hp (by omega) hfit, ?_, ?_, ?_, ?_⟩
    · rw [analyzedState_inj, hinj]
    · rw [ndist_analyzedState hwf hfit, countedSymbols_of_unique hwf hfit hinj hx hx0 h]
    · rw [freqAt_analyzedState hwf hfit]
      simp [hinj]
    · rw [freqAt_analyzedState hwf hfit]
      simp [hinj]
  · have hx0 : freqAt s x ≠ 0 := fun h0 => by simp [h0] at h2
    have htotal := countedTotal_of_unique hx h
    have hinj : injectionDue s = false := by
      rw [Bool.eq_false_iff, ne_eq, injectionDue_totalOne htrigger, htotal]
      omega
    have hfit : analysedTotal s ≤ countMax s.cfg := by
      rw [analysedTotal, hinj, htotal]
      exact hmax
    refine ⟨_, exec_analyze_of_fits hwf hp (by omega) hfit, (analyzedState_inj s).trans hinj, ?_⟩
    rw [ndist_analyzedState hwf hfit, countedSymbols_analyzedState_of_not_due hinj,
      countedSymbols_eq_one_iff]
    exact ⟨x, hx, hx0, h⟩

end Sys2Proof.Machine
end

section
/-! PROOFS. BUILD: the two queues from merge to merge (42_build.md rules R160-R163). -/

namespace Sys2Proof.Machine

/-- The queues of BUILD after `m` merges of the first `n` entries of `slist` (R160). -/
def mergedQueues (c : Config) (slist : Memory SortEntry) (n m : Nat) : Queues :=
  (Queues.merge c n)^[m] (Queues.start (leavesOf slist n))

section Queues
variable (c : Config) (n : Nat) (q : Queues)

/-- `take()` moves one head (R162). -/
theorem Queues.advance_cases :
    q.sourceFirst c n = true ∧ q.front c n = q.sHead ∧ q.advance c n = { q with sHead := q.sHead + 1 } ∨
    q.sourceFirst c n = false ∧ q.front c n = q.tHead ∧ q.advance c n = { q with tHead := q.tHead + 1 } := by
  unfold Queues.front Queues.advance
  cases q.sourceFirst c n
  · exact .inr ⟨rfl, rfl, rfl⟩
  · exact .inl ⟨rfl, rfl, rfl⟩

@[simp] theorem Queues.advance_pool : (q.advance c n).pool = q.pool := by
  obtain ⟨-, -, h⟩ | ⟨-, -, h⟩ := q.advance_cases c n <;> rw [h]

@[simp] theorem Queues.nodeAt_advance (j : Nat) : (q.advance c n).nodeAt j = q.nodeAt j := by
  rw [Queues.nodeAt, Queues.nodeAt, Queues.advance_pool]

theorem Queues.sourceFirst_iff : q.sourceFirst c n = true ↔
    q.tHead = q.pool.length ∨
      (q.sHead < n ∧ nodeKey c (q.nodeAt q.sHead) ≤ nodeKey c (q.nodeAt q.tHead)) := by
  simp [Queues.sourceFirst]

/-- The heads of the queues are within them, and `waiting` nodes are enqueued. -/
structure Queues.Within (waiting : Nat) : Prop where
  source : q.sHead ≤ n
  target : q.tHead ≤ q.pool.length
  waiting : q.sHead + q.tHead + waiting = n + q.pool.length

variable {c n q}

/-- While a node is waiting `take()` returns one that is in the pool, and keeps the heads within the queues. -/
theorem Queues.Within.advance {k : Nat} (h : q.Within n (k + 1)) (hn : n ≤ q.pool.length) :
    (q.advance c n).Within n k ∧ q.front c n < q.pool.length := by
  obtain ⟨hs, ht, hw⟩ := h
  obtain ⟨hf, hi, ha⟩ | ⟨hf, hi, ha⟩ := q.advance_cases c n
  · rw [Queues.sourceFirst_iff] at hf
    rw [ha, hi]
    exact ⟨⟨by simp only; omega, ht, by simp only; omega⟩, by omega⟩
  · rw [Bool.eq_false_iff, ne_eq, Queues.sourceFirst_iff] at hf
    rw [ha, hi]
    exact ⟨⟨hs, by simp only; omega, by simp only; omega⟩, by omega⟩

/-- While two nodes are waiting a merge takes two and enqueues one. -/
theorem Queues.Within.merge {k : Nat} (h : q.Within n (k + 2)) (hn : n ≤ q.pool.length) :
    (q.merge c n).Within n (k + 1) ∧ (q.merge c n).tHead < (q.merge c n).pool.length := by
  obtain ⟨h₁, -⟩ := h.advance (c := c) hn
  obtain ⟨⟨hs, ht, hw⟩, -⟩ := h₁.advance (c := c) (by rwa [Queues.advance_pool])
  have hlen : (q.merge c n).pool.length = q.pool.length + 1 := by simp [Queues.merge]
  simp only [Queues.advance_pool] at ht hw
  exact ⟨⟨hs, by rw [hlen]; exact Nat.le_succ_of_le ht, by rw [hlen]; exact congrArg (· + 1) hw⟩,
    by rw [hlen]; exact Nat.lt_succ_of_le ht⟩

theorem Queues.Within.unmerged {k : Nat} (h : q.Within n (k + 2)) : q.unmerged n = true := by
  obtain ⟨hs, ht, hw⟩ := h
  simp only [Queues.unmerged, Bool.or_eq_true, decide_eq_true_eq]
  omega

/-- With one node waiting it is the last one enqueued, and the source queue is empty. -/
theorem Queues.Within.heads_eq (h : q.Within n 1) (ht : q.tHead < q.pool.length) :
    q.sHead = n ∧ q.tHead = q.pool.length - 1 := by
  obtain ⟨hs, -, hw⟩ := h
  omega

/-- The loop runs the merges its condition lets run, when its bound is no smaller (R163). -/
theorem Queues.mergeLoop_eq_iterate {m : Nat} (hrun : ∀ j, j < m → ((Queues.merge c n)^[j] q).unmerged n = true)
    (hstop : ((Queues.merge c n)^[m] q).unmerged n = false) {k : Nat} (hk : m ≤ k) :
    Queues.mergeLoop c n k q = (Queues.merge c n)^[m] q := by
  induction m generalizing q k with
  | zero =>
    cases k with
    | zero => rfl
    | succ k => rw [Queues.mergeLoop, if_neg (by simpa using hstop)]; rfl
  | succ m ih =>
    obtain ⟨k, rfl⟩ : ∃ j, k = j + 1 := ⟨k - 1, by omega⟩
    rw [Queues.mergeLoop, if_pos (show q.unmerged n = true from hrun 0 (Nat.succ_pos m))]
    exact ih (fun j hj => hrun (j + 1) (Nat.succ_lt_succ hj)) hstop (Nat.le_of_succ_le_succ hk)

end Queues

section Merges
variable (c : Config) (slist : Memory SortEntry) (n : Nat)

theorem mergedQueues_succ (m : Nat) :
    mergedQueues c slist n (m + 1) = (mergedQueues c slist n m).merge c n :=
  Function.iterate_succ_apply' ..

@[simp] theorem mergedQueues_length (m : Nat) : (mergedQueues c slist n m).pool.length = n + m := by
  induction m with
  | zero => simp [mergedQueues, Queues.start, leavesOf]
  | succ m ih => simp [mergedQueues_succ, Queues.merge, ih, Nat.add_assoc]

/-- The heads at the start: both queues are whole (R161). -/
theorem mergedQueues_zero_heads :
    (mergedQueues c slist n 0).sHead = 0 ∧ (mergedQueues c slist n 0).tHead = n := by
  simp [mergedQueues, Queues.start, leavesOf]

/-- After `m` of the `n - 1` merges `n - m` nodes are waiting (R163). -/
theorem mergedQueues_within {m : Nat} (hm : m < n) : (mergedQueues c slist n m).Within n (n - m) := by
  induction m with
  | zero =>
    obtain ⟨hs, ht⟩ := mergedQueues_zero_heads c slist n
    exact ⟨by omega, by rw [mergedQueues_length]; omega, by rw [mergedQueues_length]; omega⟩
  | succ m ih =>
    obtain ⟨k, hk⟩ : ∃ k, n - m = k + 2 := ⟨n - m - 2, by omega⟩
    have hw := ih (by omega)
    rw [hk] at hw
    rw [mergedQueues_succ, show n - (m + 1) = k + 1 by omega]
    exact (hw.merge (by rw [mergedQueues_length]; omega)).1

/-- After the last merge only ROOT is waiting (R163). -/
theorem mergedQueues_last_heads (hn : 2 ≤ n) :
    (mergedQueues c slist n (n - 1)).sHead = n ∧ (mergedQueues c slist n (n - 1)).tHead = 2 * n - 2 := by
  obtain ⟨m, rfl⟩ : ∃ m, n = m + 2 := ⟨n - 2, by omega⟩
  have hw := mergedQueues_within c slist (m + 2) (m := m) (by omega)
  rw [show m + 2 - m = 0 + 2 by omega] at hw
  obtain ⟨hw', ht⟩ := hw.merge (c := c) (by rw [mergedQueues_length]; omega)
  rw [← mergedQueues_succ] at hw' ht
  obtain ⟨hs, ht⟩ := hw'.heads_eq ht
  rw [mergedQueues_length] at ht
  exact ⟨hs, ht.trans (by omega)⟩

/-- BUILD makes `n - 1` merges (R163). -/
theorem builtPool_eq (hn : 2 ≤ n) : builtPool c slist n = (mergedQueues c slist n (n - 1)).pool := by
  have hrun : ∀ j, j < n - 1 → (mergedQueues c slist n j).unmerged n = true := by
    intro j hj
    have hw := mergedQueues_within c slist n (m := j) (by omega)
    obtain ⟨k, hk⟩ : ∃ k, n - j = k + 2 := ⟨n - j - 2, by omega⟩
    exact (hk ▸ hw).unmerged
  have hstop : (mergedQueues c slist n (n - 1)).unmerged n = false := by
    obtain ⟨hs, ht⟩ := mergedQueues_last_heads c slist n hn
    simp only [Queues.unmerged, hs, ht, mergedQueues_length, Bool.or_eq_false_iff, decide_eq_false_iff_not]
    omega
  exact congrArg Queues.pool (Queues.mergeLoop_eq_iterate hrun hstop (by omega))

/-- A merge changes no node that is in the pool already. -/
theorem mergedQueues_nodeAt {m m' j : Nat} (hm : m ≤ m') (hj : j < n + m) :
    (mergedQueues c slist n m').nodeAt j = (mergedQueues c slist n m).nodeAt j := by
  induction m', hm using Nat.le_induction with
  | base => rfl
  | succ m' hm ih =>
    rw [← ih, mergedQueues_succ, Queues.nodeAt, Queues.nodeAt, Queues.merge, Queues.advance_pool,
      Queues.advance_pool]
    exact List.getD_append _ _ _ _ (by rw [mergedQueues_length]; omega)

/-- The node a merge enqueues: the parent of the nodes that the two `take()` return (R160, R164). -/
theorem mergedQueues_nodeAt_new (m : Nat) :
    let q := mergedQueues c slist n m
    (mergedQueues c slist n (m + 1)).nodeAt (n + m) =
      ((q.advance c n).advance c n).internal c (q.front c n) ((q.advance c n).front c n) := by
  simp [mergedQueues_succ, Queues.merge, Queues.nodeAt, List.getD]

end Merges

section Build
variable {s : State}

/-- BUILD of two or more entries (R160). -/
def builtState (s : State) : State :=
  completed { s with
    node := Memory.ofList .zero ((builtPool s.cfg s.slist s.ndist.toNat).take (nodeDepth s.cfg))
    nnodes := BitVec.ofNat 32 (builtPool s.cfg s.slist s.ndist.toNat).length
    root := BitVec.ofNat 32 ((builtPool s.cfg s.slist s.ndist.toNat).length - 1)
    phase := .built }

theorem exec_build_of_sorted (hp : s.phase = .sorted) (hn : 2 ≤ s.ndist.toNat) :
    exec .build s = .next (builtState s) := by
  simp only [exec, execBuild]
  rw [if_neg (by simp [hp]), if_neg (by omega)]
  rfl

/-- Every node of the pool fits in NODE (R48). -/
theorem nodeAt_builtState (hn : 2 ≤ s.ndist.toNat) (hns : s.ndist.toNat ≤ s.cfg.nsym) (j : Nat) :
    nodeAt (builtState s) j = (mergedQueues s.cfg s.slist s.ndist.toNat (s.ndist.toNat - 1)).nodeAt j := by
  have hlen : (mergedQueues s.cfg s.slist s.ndist.toNat (s.ndist.toNat - 1)).pool.length ≤ nodeDepth s.cfg := by
    rw [mergedQueues_length, nodeDepth]
    omega
  rw [nodeAt, Queues.nodeAt, ← Memory.get_ofList, ← List.take_of_length_le hlen, ← builtPool_eq _ _ _ hn]
  rfl

/-- One call of `take()`, as BUILD makes it and as the claims state it (R162): a state that holds the pool's nodes
gives the same keys. -/
theorem takes_front {t : State} {q : Queues} {n k : Nat} (hq : q.Within n (k + 1)) (hn : n ≤ q.pool.length)
    (hnode : ∀ j, j < q.pool.length → nodeAt t j = q.nodeAt j) :
    takes t n q.pool.length (q.sHead, q.tHead) ((q.advance t.cfg n).sHead, (q.advance t.cfg n).tHead)
      (q.front t.cfg n) := by
  obtain ⟨hs, ht, hw⟩ := hq
  have hguard : q.sourceFirst t.cfg n = true ↔
      q.tHead = q.pool.length ∨ (q.sHead < n ∧ mergeKey t q.sHead ≤ mergeKey t q.tHead) := by
    rw [Queues.sourceFirst_iff]
    refine or_congr_right' fun hne => and_congr_right fun hlt => ?_
    rw [mergeKey_eq, mergeKey_eq, hnode _ (by omega), hnode _ (by omega)]
  obtain ⟨hf, hi, ha⟩ | ⟨hf, hi, ha⟩ := q.advance_cases t.cfg n
  · rw [takes, if_pos (hguard.1 hf), ha]
    exact ⟨hi, rfl⟩
  · rw [takes, if_neg (fun h => by simp [hguard.2 h] at hf), ha]
    exact ⟨hi, rfl⟩

/-- The queues' heads after `k` calls of `take()`, two calls a merge. -/
def headsAfter (c : Config) (slist : Memory SortEntry) (n k : Nat) : Nat × Nat :=
  let q := mergedQueues c slist n (k / 2)
  if k % 2 = 0 then (q.sHead, q.tHead) else ((q.advance c n).sHead, (q.advance c n).tHead)

theorem headsAfter_even (c : Config) (slist : Memory SortEntry) (n m : Nat) :
    headsAfter c slist n (2 * m) = ((mergedQueues c slist n m).sHead, (mergedQueues c slist n m).tHead) := by
  simp [headsAfter]

theorem headsAfter_odd (c : Config) (slist : Memory SortEntry) (n m : Nat) :
    headsAfter c slist n (2 * m + 1) = (((mergedQueues c slist n m).advance c n).sHead,
      ((mergedQueues c slist n m).advance c n).tHead) := by
  rw [headsAfter, if_neg (by omega), show (2 * m + 1) / 2 = m by omega]

/-- The heads after a merge are those after its second `take()`. -/
theorem headsAfter_even_succ (c : Config) (slist : Memory SortEntry) (n m : Nat) :
    headsAfter c slist n (2 * m + 2) = ((((mergedQueues c slist n m).advance c n).advance c n).sHead,
      (((mergedQueues c slist n m).advance c n).advance c n).tHead) := by
  rw [show 2 * m + 2 = 2 * (m + 1) by omega, headsAfter_even, mergedQueues_succ]
  rfl

/-- Before each of the `n - 1` merges two or more nodes are waiting. -/
theorem mergedQueues_within_two (c : Config) (slist : Memory SortEntry) {n m : Nat} (hm : m + 1 < n) :
    (mergedQueues c slist n m).Within n (n - (m + 2) + 2) := by
  rw [show n - (m + 2) + 2 = n - m by omega]
  exact mergedQueues_within _ _ _ (by omega)

/-- The two nodes that a merge takes are in the pool. -/
theorem mergedQueues_front_lt (c : Config) (slist : Memory SortEntry) {n m : Nat} (hm : m + 1 < n) :
    (mergedQueues c slist n m).front c n < n + m ∧
      ((mergedQueues c slist n m).advance c n).front c n < n + m := by
  have hw := mergedQueues_within_two c slist hm
  obtain ⟨hw', hleft⟩ := hw.advance (c := c) (by simp)
  obtain ⟨-, hright⟩ := hw'.advance (c := c) (by simp)
  simp only [Queues.advance_pool, mergedQueues_length] at hleft hright
  exact ⟨hleft, hright⟩

/-- The two calls of `take()` in merge `m`, in a state that holds the nodes of the pool before it. -/
theorem takes_fronts {t : State} {slist : Memory SortEntry} {n m : Nat} (hm : m + 1 < n)
    (hnode : ∀ j, j < n + m → nodeAt t j = (mergedQueues t.cfg slist n m).nodeAt j) :
    let q := mergedQueues t.cfg slist n m
    let heads := headsAfter t.cfg slist n
    takes t n (n + m) (heads (2 * m)) (heads (2 * m + 1)) (q.front t.cfg n) ∧
      takes t n (n + m) (heads (2 * m + 1)) (heads (2 * m + 2)) ((q.advance t.cfg n).front t.cfg n) := by
  intro q heads
  have hlen : q.pool.length = n + m := mergedQueues_length ..
  have hw := mergedQueues_within_two t.cfg slist hm
  obtain ⟨hw', -⟩ := hw.advance (c := t.cfg) (by simp)
  simp only [heads, headsAfter_even, headsAfter_odd, headsAfter_even_succ]
  constructor
  · rw [← hlen]
    exact takes_front hw (by rw [hlen]; omega) (by rwa [hlen])
  · rw [← hlen, ← Queues.advance_pool t.cfg n q]
    exact takes_front hw' (by rw [Queues.advance_pool, hlen]; omega) fun j hj => by
      rw [Queues.nodeAt_advance]
      exact hnode j (by rwa [Queues.advance_pool, hlen] at hj)

/-- The children of the internal node of merge `m` are the nodes that its two calls of `take()` return. -/
theorem builtState_children (hwf : s.cfg.wf = true) (hn : 2 ≤ s.ndist.toNat) (hns : s.ndist.toNat ≤ s.cfg.nsym)
    {m : Nat} (hm : m + 1 < s.ndist.toNat) :
    let n := s.ndist.toNat
    let q := mergedQueues s.cfg s.slist n m
    (nodeAt (builtState s) (n + m)).left.toNat = q.front s.cfg n ∧
      (nodeAt (builtState s) (n + m)).right.toNat = (q.advance s.cfg n).front s.cfg n := by
  intro n q
  have hnew : nodeAt (builtState s) (n + m) =
      ((q.advance s.cfg n).advance s.cfg n).internal s.cfg (q.front s.cfg n) ((q.advance s.cfg n).front s.cfg n) := by
    rw [← mergedQueues_nodeAt_new, ← mergedQueues_nodeAt (m' := n - 1) _ _ _ (by omega) (by omega)]
    exact nodeAt_builtState hn hns _
  obtain ⟨hleft, hright⟩ : q.front s.cfg n < n + m ∧ (q.advance s.cfg n).front s.cfg n < n + m :=
    mergedQueues_front_lt s.cfg s.slist hm
  have h256 := nsym_of_wf hwf
  rw [hnew, Queues.internal, BitVec.toNat_ofNat, BitVec.toNat_ofNat]
  exact ⟨Nat.mod_eq_of_lt (by omega), Nat.mod_eq_of_lt (by omega)⟩

end Build

/-- Settles O57: the queues' heads between the calls of `take()` are the wanted sequence. -/
theorem buildMergesTheFrontsOfTheQueues : Obligations.BuildMergesTheFrontsOfTheQueues := by
  intro s hwf hp hn hns
  refine ⟨_, exec_build_of_sorted hp hn, rfl, headsAfter s.cfg s.slist s.ndist.toNat, ?_, fun m hm => ?_, ?_⟩
  · obtain ⟨hs, ht⟩ := mergedQueues_zero_heads s.cfg s.slist s.ndist.toNat
    exact (headsAfter_even _ _ _ 0).trans (Prod.ext hs ht)
  · obtain ⟨hleft, hright⟩ := builtState_children hwf hn hns hm
    rw [hleft, hright]
    refine takes_fronts hm fun j hj => ?_
    rw [nodeAt_builtState hn hns]
    exact mergedQueues_nodeAt _ _ _ (by omega) hj
  · obtain ⟨hs, ht⟩ := mergedQueues_last_heads s.cfg s.slist s.ndist.toNat hn
    rw [headsAfter_even, hs, ht]

end Sys2Proof.Machine
end

section
/-! PROOFS. What a command, an engine step and a host write can do, said once for all of them. -/

namespace Sys2Proof.Machine

section Commands

/-- A command whose phase and encoder state allow it raises `e`, with the "On error" effects `effects`
(60_exceptions.md rule R233). -/
inductive Raises (s : State) : Instr → ErrCode → (State → State) → Prop
  | symbolRange {sym : Byte} (hsym : s.cfg.nsym ≤ sym.toNat) : Raises s (.count sym) .symbolRange id
  | counterFull {sym : Byte} (hn : (freqAt s sym.toNat).toNat = countMax s.cfg) :
      Raises s (.count sym) .countOverflow id
  | emptyInput (h0 : (freqCounts s.cfg s.freq).sum = 0) : Raises s .analyze .emptyInput id
  | totalOverflow (hover : countMax s.cfg < (injected s.cfg (freqCounts s.cfg s.freq)).sum) :
      Raises s .analyze .countOverflow id
  | degenerateTree (hn : s.ndist.toNat = 1) : Raises s .build .degenerateTree id
  | unknownSymbol {sym : Byte} (hsym : s.cfg.nsym ≤ sym.toNat ∨ (codeAt s sym.toNat).valid = false) :
      Raises s (.encSym sym) .unknownSymbol abortEncode
  | payloadFull {sym : Byte}
      (hlong : payloadMax s.cfg < (s.payload ++ codeword (codeAt s sym.toNat)).length) :
      Raises s (.encSym sym) .capacity abortEncode
  | emptyStream (hlen : s.packLen = 0) : Raises s .decode .malformedBitstream failDecode
  | outputFull (hend : descend (nodeAt s) s.root.toNat (payloadBits s) s.root.toNat (outDepth s.cfg) = .full) :
      Raises s .decode .capacity failDecode
  | truncated {cur : Nat} {out : List Byte} (hcur : cur ≠ s.root.toNat)
      (hend : descend (nodeAt s) s.root.toNat (payloadBits s) s.root.toNat (outDepth s.cfg) = .ended cur out) :
      Raises s .decode .malformedBitstream failDecode

/-- A command whose phase and encoder state allow it succeeds, and leaves the given state. -/
inductive Succeeds (s : State) : Instr → State → Prop
  | nop : Succeeds s .nop (complete s)
  | clear : Succeeds s .clear (complete (clearRecord (emptyPipeline s)))
  | ack : Succeeds s .ack (complete (clearRecord s))
  | count {sym : Byte} (hsym : sym.toNat < s.cfg.nsym) (hn : (freqAt s sym.toNat).toNat ≠ countMax s.cfg) :
      Succeeds s (.count sym) (complete { s with
        freq := Memory.set 0 s.freq sym.toNat (toCount s.cfg ((freqAt s sym.toNat).toNat + 1)) })
  | analyze (h0 : (freqCounts s.cfg s.freq).sum ≠ 0)
      (hfit : (injected s.cfg (freqCounts s.cfg s.freq)).sum ≤ countMax s.cfg) :
      Succeeds s .analyze (analyzedState s)
  | build (hn : s.ndist.toNat ≠ 1) : Succeeds s .build (builtState s)
  | gencode : Succeeds s .gencode (complete { s with
      code := (codebook s.cfg s.node s.root.toNat).code
      maxlen := BitVec.ofNat 32 (codebook s.cfg s.node s.root.toNat).longest
      phase := .coded })
  | encStart : Succeeds s .encStart (complete { s with
      payload := [], encBits := 0, packLen := 0, pad := 0, enc := .active })
  | encSym {sym : Byte} (hsym : sym.toNat < s.cfg.nsym) (hvalid : (codeAt s sym.toNat).valid = true)
      (hroom : (s.payload ++ codeword (codeAt s sym.toNat)).length ≤ payloadMax s.cfg) :
      Succeeds s (.encSym sym) (complete { s with
        payload := s.payload ++ codeword (codeAt s sym.toNat)
        encBits := BitVec.ofNat 32 (s.payload ++ codeword (codeAt s sym.toNat)).length })
  | encFinish : Succeeds s .encFinish (complete { s with
      pack := Memory.overwrite s.pack ((bytesOf (padded s.payload)).take (packDepth s.cfg))
      packLen := BitVec.ofNat 32 ((padded s.payload).length / 8)
      pad := BitVec.ofNat 32 (padCount s.payload.length)
      payload := []
      enc := .idle })
  | decode {out : List Byte} (hlen : s.packLen ≠ 0)
      (hend : descend (nodeAt s) s.root.toNat (payloadBits s) s.root.toNat (outDepth s.cfg) =
        .ended s.root.toNat out) :
      Succeeds s .decode (complete { s with
        out := Memory.overwrite s.out out
        outLen := BitVec.ofNat 32 out.length
        pad := BitVec.ofNat 32 (payloadStart (streamBits s s.packLen.toNat)) })

/-- What a command can do: raise SEQUENCE exactly where its phase or encoder state does not allow it, and otherwise
raise another error or succeed (10_state.md rule R27). -/
theorem exec_cases {i : Instr} {s t : State} (h : exec i s = .next t) :
    phaseAllows s i = false ∧ t = raise .sequence (encode i) s ∨
    phaseAllows s i = true ∧
      ((∃ e effects, Raises s i e effects ∧ t = raiseWith e (encode i) effects s) ∨ Succeeds s i t) := by
  cases i with
  | nop => cases h; exact .inr ⟨rfl, .inr .nop⟩
  | clear => cases h; exact .inr ⟨rfl, .inr .clear⟩
  | ack => cases h; exact .inr ⟨rfl, .inr .ack⟩
  | count sym =>
    simp only [exec, execCount] at h
    split_ifs at h with hp hsym hn <;> cases h
    · exact .inl ⟨by simpa [phaseAllows] using hp, rfl⟩
    · exact .inr ⟨by simpa [phaseAllows] using hp, .inl ⟨_, _, .symbolRange hsym, rfl⟩⟩
    · exact .inr ⟨by simpa [phaseAllows] using hp, .inl ⟨_, _, .counterFull hn, rfl⟩⟩
    · exact .inr ⟨by simpa [phaseAllows] using hp, .inr (.count (not_le.1 hsym) hn)⟩
  | analyze =>
    simp only [exec, execAnalyze] at h
    split at h
    · next hp => cases h; exact .inl ⟨by simpa [phaseAllows] using hp, rfl⟩
    next hp =>
    refine .inr ⟨by simpa [phaseAllows] using hp, ?_⟩
    split at h
    · next h0 => cases h; exact .inl ⟨_, _, .emptyInput h0, rfl⟩
    · next h0 =>
      split at h <;> cases h
      · next hover => exact .inl ⟨_, _, .totalOverflow hover, rfl⟩
      · next hfit => exact .inr (.analyze h0 (not_lt.1 hfit))
  | build =>
    simp only [exec, execBuild] at h
    split_ifs at h with hp hn <;> cases h
    · exact .inl ⟨by simpa [phaseAllows] using hp, rfl⟩
    · exact .inr ⟨by simpa [phaseAllows] using hp, .inl ⟨_, _, .degenerateTree hn, rfl⟩⟩
    · exact .inr ⟨by simpa [phaseAllows] using hp, .inr (.build hn)⟩
  | gencode =>
    simp only [exec, execGencode] at h
    split_ifs at h with hp <;> cases h
    · exact .inl ⟨by simpa [phaseAllows] using hp, rfl⟩
    · exact .inr ⟨by simpa [phaseAllows] using hp, .inr .gencode⟩
  | encStart =>
    simp only [exec, execEncStart] at h
    split_ifs at h with hp <;> cases h
    · exact .inl ⟨by simpa [phaseAllows, ← Bool.not_eq_true, or_iff_not_imp_left] using hp, rfl⟩
    · exact .inr ⟨by simpa [phaseAllows] using hp, .inr .encStart⟩
  | encSym sym =>
    simp only [exec, execEncSym] at h
    split_ifs at h with hp hsym hlong <;> cases h
    · exact .inl ⟨by simpa [phaseAllows, ← Bool.not_eq_true, or_iff_not_imp_left] using hp, rfl⟩
    · exact .inr ⟨by simpa [phaseAllows] using hp, .inl ⟨_, _, .unknownSymbol hsym, rfl⟩⟩
    · exact .inr ⟨by simpa [phaseAllows] using hp, .inl ⟨_, _, .payloadFull hlong, rfl⟩⟩
    · simp only [not_or, not_le, Bool.not_eq_false] at hsym
      exact .inr ⟨by simpa [phaseAllows] using hp, .inr (.encSym hsym.1 hsym.2 (not_lt.1 hlong))⟩
  | encFinish =>
    simp only [exec, execEncFinish] at h
    split_ifs at h with hp <;> cases h
    · exact .inl ⟨by simpa [phaseAllows, ← Bool.not_eq_true, or_iff_not_imp_left] using hp, rfl⟩
    · exact .inr ⟨by simpa [phaseAllows] using hp, .inr .encFinish⟩
  | decode =>
    simp only [exec, execDecode] at h
    split_ifs at h with hp hlen
    · cases h
      exact .inl ⟨by simpa [phaseAllows, ← Bool.not_eq_true, or_iff_not_imp_left] using hp, rfl⟩
    · cases h
      exact .inr ⟨by simpa [phaseAllows, or_iff_not_imp_left] using hp, .inl ⟨_, _, .emptyStream hlen, rfl⟩⟩
    · refine .inr ⟨by simpa [phaseAllows, or_iff_not_imp_left] using hp, ?_⟩
      split at h
      · cases h
        exact .inl ⟨_, _, .outputFull ‹_›, rfl⟩
      · next cur out hend =>
        split_ifs at h with hcur <;> cases h
        · exact .inl ⟨_, _, .truncated hcur hend, rfl⟩
        · rw [not_not.1 hcur] at hend
          exact .inr (.decode hlen hend)

/-- The "On error" effects change neither the record nor the phase (44_pack.md rule R195, 45_unpack.md rule R216). -/
theorem Raises.frame {s : State} {i : Instr} {e : ErrCode} {effects : State → State} (h : Raises s i e effects)
    (u : State) :
    (effects u).err = u.err ∧ (effects u).errcode = u.errcode ∧ (effects u).phase = u.phase := by
  cases h <;> exact ⟨rfl, rfl, rfl⟩

/-- The error of `Raises` is raised past the phase check, and is one of R231 that a command can raise. -/
theorem Raises.code_ne {s : State} {i : Instr} {e : ErrCode} {effects : State → State} (h : Raises s i e effects) :
    e ≠ .sequence ∧ e ≠ .noError ∧ e ≠ .ioFailure := by
  cases h <;> decide

/-- A command that succeeds records no error (R234). -/
theorem Succeeds.err {s t : State} {i : Instr} (h : Succeeds s i t) : t.err = s.err ∨ t.err = false := by
  cases h
  case clear => exact .inr rfl
  case ack => exact .inr rfl
  all_goals exact .inl rfl

/-- A command that succeeds leaves the phase of the command table (10_state.md rule R27). -/
theorem Succeeds.phase {s t : State} {i : Instr} (h : Succeeds s i t) (hp : phaseAllows s i = true) :
    t.phase = phaseAfter s i := by
  cases h
  case count => simpa [phaseAllows, phaseAfter] using hp
  case encStart | encSym | encFinish =>
    simp only [phaseAllows, Bool.and_eq_true, beq_iff_eq] at hp
    exact hp.1
  all_goals rfl

/-- The engine's step drops the word, raises ILLEGAL_COMMAND, or runs the command (40_control.md rule R121). -/
theorem engineStep_cases {w : Word} {s t : State} (h : engineStep w s = .next t) :
    t = complete s ∨ t = raise .illegalCommand w s ∨ ∃ i, decodeWord w = some i ∧ exec i s = .next t := by
  unfold engineStep at h
  split at h
  · cases h
    exact .inl rfl
  · split at h
    · cases h
      exact .inr (.inl rfl)
    · exact .inr (.inr ⟨_, ‹_›, h⟩)

end Commands

section HostWrites

/-- What a host write of `v` can leave: it is ignored or refused, or it is performed (20_memory.md rules R74-R82). -/
inductive HostWrites (s : State) (off : Offset) (v : Word) : State → Prop
  | ignored : HostWrites s off v s
  | refused {e : ErrCode} (he : e = .busyViolation ∨ e = .access) : HostWrites s off v (refuseWrite e off s)
  | issued (hidle : busy s = false) : HostWrites s off v (issue v s)
  | inten : HostWrites s off v (writeInten v s)
  | packLen (hidle : busy s = false) (henc : s.enc ≠ .active) (hv : v.toNat ≤ packDepth s.cfg) :
      HostWrites s off v { s with packLen := v }
  | freq {i : Nat} (hi : i < s.cfg.nsym) (hidle : busy s = false) (hp : s.phase = .opened)
      (hv : v.toNat < 2 ^ s.cfg.cw) : HostWrites s off v { s with freq := Memory.set 0 s.freq i v }
  | pack {i : Nat} (hi : i < packDepth s.cfg) (hidle : busy s = false) (henc : s.enc ≠ .active) :
      HostWrites s off v { s with pack := Memory.put s.pack i (v.extractLsb' 0 8) }

theorem writeCmd_cases (off : Offset) (w : Word) (s : State) : HostWrites s off w (writeCmd off w s) := by
  unfold writeCmd
  split_ifs with hb
  · exact .refused (.inl rfl)
  · exact .issued (Bool.eq_false_iff.2 hb)

theorem writePackLen_cases (off : Offset) (v : Word) (s : State) : HostWrites s off v (writePackLen off v s) := by
  unfold writePackLen
  split_ifs with hb henc hv
  · exact .refused (.inl rfl)
  · exact .refused (.inr rfl)
  · exact .refused (.inr rfl)
  · exact .packLen (Bool.eq_false_iff.2 hb) henc (not_lt.1 hv)

theorem writeFreq_cases (off : Offset) (i : Nat) (v : Word) (s : State) :
    HostWrites s off v (writeFreq off i v s) := by
  unfold writeFreq
  split_ifs with hi hb hp hv
  · exact .ignored
  · exact .refused (.inl rfl)
  · exact .refused (.inr rfl)
  · exact .refused (.inr rfl)
  · exact .freq (not_le.1 hi) (Bool.eq_false_iff.2 hb) (not_not.1 hp) (not_le.1 hv)

theorem writePack_cases (off : Offset) (i : Nat) (v : Word) (s : State) :
    HostWrites s off v (writePack off i v s) := by
  unfold writePack
  split_ifs with hi hb henc
  · exact .ignored
  · exact .refused (.inl rfl)
  · exact .refused (.inr rfl)
  · exact .pack (not_le.1 hi) (Bool.eq_false_iff.2 hb) henc

theorem hostWrite_cases (off : Offset) (v : Word) (s : State) : HostWrites s off v (hostWrite off v s) := by
  unfold hostWrite
  cases decodeOffset off with
  | reg r =>
    cases r
    case cmd => exact writeCmd_cases off v s
    case inten => exact .inten
    case packLen => exact writePackLen_cases off v s
    all_goals exact .ignored
  | freq i => exact writeFreq_cases off i v s
  | pack i => exact writePack_cases off i v s
  | _ => exact .ignored

end HostWrites

/-- Settles O28: SEQUENCE is what a command raises where its phase is not allowed, and only there; an error leaves the
phase and a success leaves the table's. -/
theorem commandsFollowThePhaseTable : Obligations.CommandsFollowThePhaseTable := by
  refine ⟨fun i s t herr h => ?_, rfl⟩
  obtain ⟨hp, rfl⟩ | ⟨hp, ⟨e, effects, he, rfl⟩ | hs⟩ := exec_cases h
  · refine ⟨fun _ => ?_, fun h => by simp [hp] at h, fun h => by simp at h, fun _ => rfl⟩
    rw [raise_eq, record_of_unrecorded _ _ herr, complete_eq_completed]
  · obtain ⟨herr', hcode, hphase⟩ := he.frame (record e (encode i) s)
    refine ⟨fun h => by simp [hp] at h, fun _ _ => ?_, fun h => by simp [herr'] at h, fun _ => hphase⟩
    rw [raiseWith_eq, complete_errcode, hcode, record_errcode, herr]
    exact he.code_ne.1
  · have hterr : t.err = false := hs.err.elim (·.trans herr) id
    exact ⟨fun h => by simp [hp] at h, fun _ h => by simp [hterr] at h, fun _ => hs.phase hp,
      fun h => by simp [hterr] at h⟩

end Sys2Proof.Machine
end

section
/-! PROOFS. What each step keeps of the configuration and of the pipeline's memories, and the step that runs a
command. -/

namespace Sys2Proof.Machine

section Configuration

theorem HostWrites.cfg {s t : State} {off : Offset} {v : Word} (h : HostWrites s off v t) : t.cfg = s.cfg := by
  cases h <;> rfl

theorem engineStep_cfg {w : Word} {s t : State} (h : engineStep w s = .next t) : t.cfg = s.cfg := by
  obtain rfl | rfl | ⟨i, -, hi⟩ := engineStep_cases h
  · rfl
  · rfl
  · obtain ⟨-, hcfg, -⟩ := exec_untouched hi
    exact hcfg

@[simp] theorem turnTaken_cfg (s : State) : (turnTaken s).cfg = s.cfg := by
  unfold turnTaken
  split <;> rfl

/-- Settles O11, over what a step can do. -/
theorem configurationIsConstant : Obligations.ConfigurationIsConstant := by
  intro s t h
  obtain ⟨-, w, -, hw⟩ | ⟨-, rfl⟩ | rfl | ⟨off, rest, -, -, rfl⟩ | ⟨off, v, rest, -, -, rfl⟩ | ⟨rest, -, rfl⟩ :=
    step_cases h
  · exact (engineStep_cfg hw).trans (turnTaken_cfg s)
  · exact turnTaken_cfg s
  · rfl
  · rfl
  · exact (hostWrite_cases off v (dropTurn s)).cfg
  · rfl

end Configuration

section WriteOnce

/-- The pipeline's memories that stand in `s` are those of `t`: FREQ and SLIST from SORTED on, NODE from BUILT on, and
CODE in CODED, each with its registers (10_state.md rule R27). -/
def KeepsStages (s t : State) : Prop :=
  (s.phase ≠ .opened → t.freq = s.freq ∧ t.slist = s.slist ∧ t.ndist = s.ndist ∧ t.total = s.total) ∧
  (s.phase = .built ∨ s.phase = .coded → t.node = s.node ∧ t.nnodes = s.nnodes ∧ t.root = s.root) ∧
  (s.phase = .coded → t.code = s.code ∧ t.maxlen = s.maxlen)

theorem KeepsStages.refl (s : State) : KeepsStages s s :=
  ⟨fun _ => ⟨rfl, rfl, rfl, rfl⟩, fun _ => ⟨rfl, rfl, rfl⟩, fun _ => ⟨rfl, rfl⟩⟩

/-- In OPEN no stage's memories stand yet. -/
theorem KeepsStages.of_opened {s : State} (t : State) (hp : s.phase = .opened) : KeepsStages s t := by
  simp [KeepsStages, hp]

theorem Raises.keepsStages {s : State} {i : Instr} {e : ErrCode} {effects : State → State}
    (h : Raises s i e effects) (info : Word) : KeepsStages s (raiseWith e info effects s) := by
  cases h <;> exact .refl s

/-- A command that succeeds writes the memories of the next stage only, but for CLEAR, which returns to OPEN. -/
theorem Succeeds.keepsStages {s t : State} {i : Instr} (h : Succeeds s i t) (hp : phaseAllows s i = true)
    (ht : t.phase ≠ .opened) : KeepsStages s t := by
  cases h
  case clear => exact absurd rfl ht
  case count | analyze => exact .of_opened _ (by simpa [phaseAllows] using hp)
  case build =>
    replace hp : s.phase = .sorted := by simpa [phaseAllows] using hp
    exact ⟨fun _ => ⟨rfl, rfl, rfl, rfl⟩, fun h => by simp [hp] at h, fun h => by simp [hp] at h⟩
  case gencode =>
    replace hp : s.phase = .built := by simpa [phaseAllows] using hp
    exact ⟨fun _ => ⟨rfl, rfl, rfl, rfl⟩, fun _ => ⟨rfl, rfl, rfl⟩, fun h => by simp [hp] at h⟩
  all_goals exact .refl s

theorem engineStep_keepsStages {w : Word} {s t : State} (h : engineStep w s = .next t) (ht : t.phase ≠ .opened) :
    KeepsStages s t := by
  obtain rfl | rfl | ⟨i, -, hi⟩ := engineStep_cases h
  · exact .refl s
  · exact .refl s
  · obtain ⟨-, rfl⟩ | ⟨hp, ⟨e, effects, he, rfl⟩ | hs⟩ := exec_cases hi
    · exact .refl s
    · exact he.keepsStages _
    · exact hs.keepsStages hp ht

theorem HostWrites.keepsStages {s t : State} {off : Offset} {v : Word} (h : HostWrites s off v t) :
    KeepsStages s t := by
  cases h
  case freq hp _ => exact .of_opened _ hp
  all_goals exact .refl s

/-- Taking the turn changes nothing but the script. -/
theorem turnTaken_eq (s : State) : turnTaken s = { s with script := (turnTaken s).script } := by
  unfold turnTaken
  split <;> rfl

/-- Settles O29, over what a step can do. -/
theorem pipelineMemoriesAreWriteOnce : Obligations.PipelineMemoriesAreWriteOnce := by
  intro s t h ht
  change KeepsStages s t
  obtain ⟨-, w, -, hw⟩ | ⟨-, rfl⟩ | rfl | ⟨off, rest, -, -, rfl⟩ | ⟨off, v, rest, -, -, rfl⟩ | ⟨rest, -, rfl⟩ :=
    step_cases h
  · rw [turnTaken_eq] at hw
    exact (engineStep_keepsStages hw ht :)
  · rw [turnTaken_eq]
    exact .refl s
  · exact .refl s
  · exact .refl s
  · exact (hostWrite_cases off v (dropTurn s)).keepsStages
  · exact absurd rfl ht

end WriteOnce

section CommandStep

/-- At the engine's turn a pending word is the engine's to execute (40_control.md rule R121). -/
theorem step_of_pending {s : State} {w : Word} (hturn : enginesTurn s = true) (hw : s.pending = some w) :
    step s = engineStep w (turnTaken s) := by
  unfold step nextTurn
  cases hs : s.script with
  | nil => simp [engineTurn, turnTaken, hs, hw]
  | cons i rest =>
    cases i with
    | engine => simp [turn, engineTurn, turnTaken, dropTurn, hs, hw]
    | wait => simp [turn, engineTurn, turnTaken, busy, hs, hw]
    | waitIrq =>
      have hirq : irq s = false := by simpa [enginesTurn, hs] using hturn
      simp [turn, engineTurn, turnTaken, hirq, hs, hw]
    | read | write | reset => simp [enginesTurn, hs] at hturn

/-- Past the error gate a word that decodes runs its command (R121). -/
theorem engineStep_of_open {s : State} {w : Word} {i : Instr} (hgate : s.err = false ∨ passesGate w = true)
    (hi : decodeWord w = some i) : engineStep w s = exec i s := by
  have hopen : ¬ (s.err = true ∧ passesGate w = false) := by
    obtain h | h := hgate <;> simp [h]
  rw [engineStep, if_neg hopen, hi]

theorem passesGate_iff (w : Word) : passesGate w = true ↔ w = 0x00000000 ∨ w = 0x01000000 ∨ w = 0x02000000 := by
  simp [passesGate, or_assoc]

/-- Settles O5: the second half applies the first to the word placed by `withFetchWord`. -/
theorem stepRunsTheDecodedCommand : Obligations.StepRunsTheDecodedCommand := by
  have hrun : ∀ (s : State) (w : Word) (i : Instr), enginesTurn s = true → s.pending = some w →
      decodeWord w = some i → (s.err = false ∨ w = 0x00000000 ∨ w = 0x01000000 ∨ w = 0x02000000) →
      step s = exec i (turnTaken s) := by
    intro s w i hturn hw hi hgate
    rw [← passesGate_iff] at hgate
    rw [step_of_pending hturn hw, engineStep_of_open _ hi]
    rwa [turnTaken_eq]
  exact ⟨hrun, fun s nbits w i hi herr => hrun _ _ i rfl rfl hi (.inl herr)⟩

end CommandStep

end Sys2Proof.Machine
end

section
/-! PROOFS. The control registers as the host reads and writes them (10_state.md rules R23-R44). -/

namespace Sys2Proof.Machine

section Registers
variable (s : State)

/-- The control registers read their values busy or not (20_memory.md rule R86). -/
theorem memRead_control {off : Offset} {r : Reg} (hoff : decodeOffset off = .reg r) (hr : r.readableBusy = true) :
    memRead s off = readReg s r := by
  simp [memRead, hoff, unspecifiedRead, hr, readTarget]

/-- Every register reads its value while idle. -/
theorem memRead_idle {off : Offset} {r : Reg} (hoff : decodeOffset off = .reg r) (hidle : busy s = false) :
    memRead s off = readReg s r := by
  simp [memRead, hoff, unspecifiedRead, hidle, readTarget]

/-- Settles O16: each offset decodes to its register. -/
theorem registersReadAtTheirOffsets : Obligations.RegistersReadAtTheirOffsets := by
  intro s
  refine ⟨memRead_control s (r := .id) (by decide) rfl, memRead_control s (r := .cmd) (by decide) rfl, ?_,
    memRead_control s (r := .errinfo) (by decide) rfl, fun hidle => ⟨memRead_idle s (r := .ndist) (by decide) hidle,
      memRead_idle s (r := .total) (by decide) hidle, memRead_idle s (r := .nnodes) (by decide) hidle,
      memRead_idle s (r := .root) (by decide) hidle, memRead_idle s (r := .maxlen) (by decide) hidle,
      memRead_idle s (r := .encBits) (by decide) hidle, memRead_idle s (r := .pad) (by decide) hidle,
      memRead_idle s (r := .packLen) (by decide) hidle, memRead_idle s (r := .outLen) (by decide) hidle⟩⟩
  rw [memRead_control s (r := .errcode) (by decide) rfl, readReg]
  cases s.errcode <;> rfl

end Registers

section Param

theorem log2_le_of_wf {c : Config} (h : c.wf = true) : c.packLog2 ≤ 18 ∧ c.outLog2 ≤ 18 := by
  simp only [Config.wf, Bool.and_eq_true, decide_eq_true_eq] at h
  obtain ⟨⟨-, hpack⟩, hout⟩ := h
  exact ⟨hpack, hout⟩

/-- The parameters' bits and numbers in PARAM (R32). -/
theorem paramWord_fields (c : Config) :
    (paramWord c).getLsbD 0 = (c.nsym == 256) ∧ (paramWord c).getLsbD 1 = (c.weightMode == .count) ∧
    (paramWord c).getLsbD 2 = (c.trigger == .totalOne) ∧
    (paramWord c).extractLsb' 4 5 = BitVec.ofNat 5 (c.cw - 1) ∧
    (paramWord c).extractLsb' 16 5 = BitVec.ofNat 5 c.packLog2 ∧
    (paramWord c).extractLsb' 24 5 = BitVec.ofNat 5 c.outLog2 := by
  refine ⟨?_, ?_, ?_, ?_, ?_, ?_⟩
  all_goals
    simp (disch := decide) only [paramWord, BitVec.extractLsb'_append_eq_of_add_le,
      BitVec.extractLsb'_append_eq_of_le, BitVec.getLsbD_append]
    simp

/-- The reserved bits of PARAM are 0 (R32). -/
theorem paramWord_reserved (c : Config) :
    (paramWord c).extractLsb' 3 1 = 0 ∧ (paramWord c).extractLsb' 9 7 = 0 ∧
    (paramWord c).extractLsb' 21 3 = 0 ∧ (paramWord c).extractLsb' 29 3 = 0 := by
  refine ⟨?_, ?_, ?_, ?_⟩
  all_goals
    simp (disch := decide) only [paramWord, BitVec.extractLsb'_append_eq_of_add_le,
      BitVec.extractLsb'_append_eq_of_le]
    simp

/-- Settles O17: each field is its slice of PARAM. -/
theorem paramReportsTheConfiguration : Obligations.ParamReportsTheConfiguration := by
  refine ⟨fun s hwf => ?_, ?_⟩
  · have hp : memRead s 0x004 = paramWord s.cfg := memRead_control s (r := .param) (by decide) rfl
    obtain ⟨hnsym, hmode, htrigger, hcw, hpack, hout⟩ := paramWord_fields s.cfg
    obtain ⟨h3, h9, h21, h29⟩ := paramWord_reserved s.cfg
    have hcw_le := cw_le_of_wf hwf
    obtain ⟨hpack_le, hout_le⟩ := log2_le_of_wf hwf
    simp only [hp, hcw, hpack, hout, BitVec.toNat_ofNat]
    exact ⟨hnsym, hmode, htrigger, Nat.mod_eq_of_lt (by omega), Nat.mod_eq_of_lt (by omega),
      Nat.mod_eq_of_lt (by omega), h3, h9, h21, h29, fun v => rfl⟩
  · rw [memRead_control State.reset (r := .param) (by decide) rfl]
    decide

end Param

section Status

theorem memRead_status (s : State) : memRead s 0x00C = statusWord s := memRead_control s (r := .status) (by decide) rfl

/-- The fields of STATUS (R25). -/
theorem statusWord_fields (s : State) :
    (statusWord s).getLsbD 0 = busy s ∧ (statusWord s).getLsbD 1 = s.done ∧ (statusWord s).getLsbD 2 = s.err ∧
    (statusWord s).getLsbD 3 = irq s ∧ (statusWord s).extractLsb' 4 2 = s.phase.code ∧
    (statusWord s).getLsbD 6 = s.enc.code.getLsbD 0 ∧ (statusWord s).getLsbD 7 = s.inj ∧
    (statusWord s).extractLsb' 8 24 = 0 := by
  refine ⟨?_, ?_, ?_, ?_, ?_, ?_, ?_, ?_⟩
  all_goals
    simp (disch := decide) only [statusWord, BitVec.extractLsb'_append_eq_of_add_le,
      BitVec.extractLsb'_append_eq_of_le, BitVec.getLsbD_append]
    simp

/-- Settles O18: each field is its slice of STATUS. -/
theorem statusReportsTheState : Obligations.StatusReportsTheState := by
  refine ⟨fun s => ?_, ?_⟩
  · obtain ⟨hbusy, hdone, herr, hirq, hphase, henc, hinj, hrsv⟩ := statusWord_fields s
    simp only [memRead_status]
    refine ⟨?_, hdone, herr, hirq, hirq.symm, ?_, ?_, hinj, hrsv, fun v => rfl⟩
    · rw [hbusy, busy]
      cases s.pending <;> rfl
    · rw [hphase]
      cases s.phase <;> rfl
    · rw [henc]
      cases s.enc <;> rfl
  · rw [memRead_status]
    decide

end Status

section Inten

/-- The two bits kept of a write, read back in 32 bits (10_state.md rule R34). -/
theorem zeroExtend_extract_two (v : Word) : (v.extractLsb' 0 2).zeroExtend 32 = v &&& 3 := by
  rw [← BitVec.toNat_inj]
  have hand : v.toNat &&& 3 = v.toNat % 4 := Nat.and_two_pow_sub_one_eq_mod _ 2
  have hlt : v.toNat % 4 < 2 ^ 32 := by omega
  simpa [hand] using hlt

/-- Settles O19. -/
theorem intenIsAlwaysWritable : Obligations.IntenIsAlwaysWritable := by
  refine ⟨fun s v => ⟨rfl, ?_⟩, fun s t h => ?_, rfl⟩
  · rw [memRead_control _ (r := .inten) (by decide) rfl]
    exact zeroExtend_extract_two v
  · obtain ⟨hinten, -⟩ := exec_untouched h
    exact hinten

end Inten

end Sys2Proof.Machine
end

section
/-! PROOFS. The invariant of the machine: what recording, completion, each command, each host write and a reset keep of
it (10_state.md rule R53). -/

namespace Sys2Proof.Machine

section Memories

/-- `memoriesWf`, memory by memory. -/
structure MemoriesInv (s : State) : Prop where
  freq : Memory.wf 0 s.cfg.nsym s.freq = true
  slist : Memory.wf .zero s.cfg.nsym s.slist = true
  node : Memory.wf .zero (nodeDepth s.cfg) s.node = true
  code : Memory.wf .zero s.cfg.nsym s.code = true
  pack : Memory.rising (packDepth s.cfg) s.pack = true
  out : Memory.rising (outDepth s.cfg) s.out = true

theorem memoriesWf_iff (s : State) : memoriesWf s = true ↔ MemoriesInv s := by
  simp only [memoriesWf, Bool.and_eq_true, and_assoc]
  exact ⟨fun ⟨h1, h2, h3, h4, h5, h6⟩ => ⟨h1, h2, h3, h4, h5, h6⟩,
    fun ⟨h1, h2, h3, h4, h5, h6⟩ => ⟨h1, h2, h3, h4, h5, h6⟩⟩

theorem Inv.memoriesInv {s : State} (h : Inv s) : MemoriesInv s := (memoriesWf_iff s).1 h.memories

/-- The invariant, from its three parts. -/
theorem Inv.of_parts {s : State} (hm : MemoriesInv s) (hc : ControlInv s) (hp : PipelineInv s) : Inv s :=
  ⟨(memoriesWf_iff s).2 hm, hc, hp⟩

theorem Memory.mem_set {α : Type} [DecidableEq α] {zero : α} {m : Memory α} {i : Nat} {x : α} {e : Nat × α}
    (h : e ∈ Memory.set zero m i x) : e = (i, x) ∨ e ∈ m := by
  unfold Memory.set at h
  split at h
  · exact .inr (List.mem_of_mem_filter h)
  · exact Memory.mem_put h

/-- Every counter listed in `freq` has a value of CW bits (R4). -/
def countersFit (c : Config) (freq : Memory Word) : Bool := freq.all fun e => decide (e.2.toNat ≤ countMax c)

theorem countersFit_set {c : Config} {freq : Memory Word} {i : Nat} {x : Word} (h : countersFit c freq = true)
    (hx : x.toNat ≤ countMax c) : countersFit c (Memory.set 0 freq i x) = true := by
  simp only [countersFit, List.all_eq_true, decide_eq_true_eq] at h ⊢
  intro e he
  obtain rfl | he := Memory.mem_set he
  · exact hx
  · exact h e he

theorem toCount_le (c : Config) (n : Nat) : (toCount c n).toNat ≤ countMax c := by
  have hlt := Nat.mod_lt n (Nat.two_pow_pos c.cw)
  have hle := Nat.mod_le (n % 2 ^ c.cw) (2 ^ 32)
  rw [toCount, BitVec.toNat_ofNat, countMax]
  omega

end Memories

section Unchanged
variable {s : State}

theorem Inv.setScript (h : Inv s) (p : List Input) : Inv { s with script := p } :=
  ⟨h.memories, { h.control with }, { h.pipeline with }⟩

protected theorem Inv.turnTaken (h : Inv s) : Inv (turnTaken s) := by
  rw [turnTaken_eq]
  exact h.setScript _

protected theorem Inv.hostRead (h : Inv s) (off : Offset) : Inv (hostRead off s) :=
  ⟨h.memories, { h.control with }, { h.pipeline with }⟩

protected theorem Inv.complete (h : Inv s) : Inv (complete s) :=
  ⟨h.memories, { h.control with busy := by simp }, { h.pipeline with }⟩

protected theorem Inv.record (h : Inv s) {e : ErrCode} (he : e ≠ .noError ∧ e ≠ .ioFailure) (info : Word) :
    Inv (record e info s) := by
  have hcode : (record e info s).errcode ≠ .noError ∧ (record e info s).errcode ≠ .ioFailure := by
    rw [record_errcode]
    split_ifs with herr
    · exact h.control.recorded herr
    · exact he
  exact ⟨h.memories, { h.control with unrecorded := by simp, recorded := fun _ => hcode }, { h.pipeline with }⟩

protected theorem Inv.clearRecord (h : Inv s) : Inv (clearRecord s) :=
  ⟨h.memories, { h.control with unrecorded := fun _ => ⟨rfl, rfl⟩, recorded := by simp }, { h.pipeline with }⟩

protected theorem Inv.abortEncode (h : Inv s) : Inv (abortEncode s) :=
  ⟨h.memories, { h.control with
    active := nofun
    idle := fun _ => rfl
    payload := Nat.zero_le _
    encBits := Nat.zero_le _ }, { h.pipeline with }⟩

protected theorem Inv.failDecode (h : Inv s) : Inv (failDecode s) :=
  .of_parts { h.memoriesInv with out := rfl } { h.control with outLen := Nat.zero_le _ } { h.pipeline with }

/-- Recording an error, its "On error" effects and completion keep the invariant (R234, R235). -/
theorem Raises.inv {i : Instr} {e : ErrCode} {effects : State → State} (h : Raises s i e effects) (hs : Inv s)
    (info : Word) : Inv (raiseWith e info effects s) := by
  have hrecord : Inv (record e info s) := hs.record h.code_ne.2 info
  rw [raiseWith_eq]
  cases h
  case unknownSymbol | payloadFull => exact hrecord.abortEncode.complete
  case emptyStream | outputFull | truncated => exact hrecord.failDecode.complete
  all_goals exact hrecord.complete

end Unchanged

section Opening

/-- The pipeline of OPEN, with nothing listed. -/
theorem PipelineInv.of_empty {s : State} (hp : s.phase = .opened)
    (hsorted : s.ndist = 0 ∧ s.total = 0 ∧ s.inj = false ∧ s.slist = [])
    (hbuilt : s.nnodes = 0 ∧ s.root = 0 ∧ s.node = []) (hcoded : s.maxlen = 0 ∧ s.code = []) : PipelineInv s where
  opened := fun _ => hsorted
  unbuilt := fun _ => hbuilt
  uncoded := fun _ => hcoded
  sorted := fun hne => absurd hp hne
  built := by simp [hp]
  coded := by simp [hp]

theorem inv_resetWith {c : Config} (hwf : c.wf = true) : Inv (State.resetWith c) := by
  refine .of_parts ⟨rfl, rfl, rfl, rfl, rfl, rfl⟩ ?_ (.of_empty rfl ⟨rfl, rfl, rfl, rfl⟩ ⟨rfl, rfl, rfl⟩ ⟨rfl, rfl⟩)
  exact {
    config := hwf
    busy := nofun
    unrecorded := fun _ => ⟨rfl, rfl⟩
    recorded := nofun
    active := nofun
    idle := fun _ => rfl
    payload := Nat.zero_le _
    encBits := Nat.zero_le _
    pad := Nat.zero_le _
    packLen := Nat.zero_le _
    outLen := Nat.zero_le _
    counters := rfl }

/-- Settles O31: the default configuration is an allowed one. -/
theorem resetSatisfiesTheInvariant : Obligations.ResetSatisfiesTheInvariant :=
  inv_resetWith (by decide)

variable {s : State}

protected theorem Inv.resetEvent (h : Inv s) : Inv (resetEvent s) := by
  obtain ⟨hm, hc, hp⟩ := inv_resetWith h.control.config
  exact ⟨hm, { hc with }, { hp with }⟩

protected theorem Inv.emptyPipeline (h : Inv s) : Inv (emptyPipeline s) :=
  .of_parts { h.memoriesInv with freq := rfl, slist := rfl, node := rfl, code := rfl }
    { h.control with
      active := nofun
      idle := fun _ => rfl
      payload := Nat.zero_le _
      encBits := Nat.zero_le _
      pad := Nat.zero_le _
      packLen := Nat.zero_le _
      outLen := Nat.zero_le _
      counters := rfl }
    (.of_empty rfl ⟨rfl, rfl, rfl, rfl⟩ ⟨rfl, rfl, rfl⟩ ⟨rfl, rfl⟩)

end Opening

section HostWrites
variable {s t : State}

/-- A FREQ counter is written in OPEN only, with a value of CW bits. -/
theorem Inv.setFreq (h : Inv s) (hp : s.phase = .opened) {i : Nat} (hi : i < s.cfg.nsym) {v : Word}
    (hv : v.toNat ≤ countMax s.cfg) : Inv { s with freq := Memory.set 0 s.freq i v } :=
  .of_parts { h.memoriesInv with freq := Memory.wf_set 0 _ v h.memoriesInv.freq hi }
    { h.control with counters := countersFit_set h.control.counters hv }
    { h.pipeline with sorted := fun hne => absurd hp hne }

theorem HostWrites.inv {off : Offset} {v : Word} (h : HostWrites s off v t) (hs : Inv s) : Inv t := by
  cases h
  case ignored => exact hs
  case refused e he =>
    exact hs.record (by obtain rfl | rfl := he <;> decide) _
  case issued => exact ⟨hs.memories, { hs.control with busy := fun _ => rfl }, { hs.pipeline with }⟩
  case inten => exact ⟨hs.memories, { hs.control with }, { hs.pipeline with }⟩
  case packLen hv => exact ⟨hs.memories, { hs.control with packLen := hv }, { hs.pipeline with }⟩
  case freq i hi _ hp hv => exact hs.setFreq hp hi (by rw [countMax]; omega)
  case pack i hi _ _ =>
    exact .of_parts { hs.memoriesInv with pack := Memory.rising_put _ _ hs.memoriesInv.pack hi } { hs.control with }
      { hs.pipeline with }

end HostWrites

section Sorting
variable {s : State}

/-- Before CODED no encode is open (R28). -/
theorem Inv.not_active (h : Inv s) (hp : s.phase ≠ .coded) : s.enc ≠ .active := fun henc =>
  hp (h.control.active henc).1

theorem countedSymbols_le (s : State) : countedSymbols s ≤ s.cfg.nsym :=
  List.countP_le_length.trans_eq List.length_range

/-- From SORTED on NDIST is the number of the counted symbols (R53). -/
theorem Inv.ndist_toNat (h : Inv s) (hp : s.phase ≠ .opened) : s.ndist.toNat = countedSymbols s := by
  obtain ⟨-, -, -, hn, -⟩ := h.pipeline.sorted hp
  have hle := countedSymbols_le s
  have hns := nsym_of_wf h.control.config
  rw [hn, sortedTallies_length, ← countedSymbols_eq, BitVec.toNat_ofNat, Nat.mod_eq_of_lt (by omega)]

/-- From SORTED on there is a counted symbol, and NDIST is at most NSYM (R53). -/
theorem Inv.ndist_bounds (h : Inv s) (hp : s.phase ≠ .opened) : 1 ≤ s.ndist.toNat ∧ s.ndist.toNat ≤ s.cfg.nsym := by
  obtain ⟨h0, -⟩ := h.pipeline.sorted hp
  rw [h.ndist_toNat hp]
  refine ⟨Nat.one_le_iff_ne_zero.2 fun hz => h0 ?_, countedSymbols_le s⟩
  rw [← countedTotal_eq]
  exact countedSymbols_eq_zero s hz

/-- SLIST as ANALYZE leaves it is in canonical form. -/
theorem wf_sortedList (c : Config) {f : List Nat} (hf : f.length ≤ c.nsym) :
    Memory.wf .zero c.nsym (sortedList c f) = true := by
  refine Memory.wf_ofList _ ?_
  rw [List.length_map, sortedTallies_length]
  exact List.countP_le_length.trans hf

/-- FREQ as ANALYZE leaves it: with the placeholders' counts written back, or as it was (R143). -/
theorem analyzedState_freq_cases (s : State) :
    (analyzedState s).freq = writeBack s.cfg s.freq (injected s.cfg (freqCounts s.cfg s.freq)) ∨
      (analyzedState s).freq = s.freq :=
  ite_eq_or_eq ..

theorem analyzedState_wf_freq (hwf : s.cfg.wf = true) (h : Memory.wf 0 s.cfg.nsym s.freq = true) :
    Memory.wf 0 s.cfg.nsym (analyzedState s).freq = true := by
  have hns := nsym_of_wf hwf
  have ha : placeholderA < s.cfg.nsym := by simp only [placeholderA]; omega
  have hb : placeholderB < s.cfg.nsym := by simp only [placeholderB]; omega
  obtain hf | hf := analyzedState_freq_cases s
  · rw [hf]
    exact Memory.wf_set _ _ _ (Memory.wf_set _ _ _ h ha) hb
  · rwa [hf]

theorem analyzedState_countersFit (h : countersFit s.cfg s.freq = true) :
    countersFit s.cfg (analyzedState s).freq = true := by
  obtain hf | hf := analyzedState_freq_cases s
  · rw [hf]
    exact countersFit_set (countersFit_set h (toCount_le ..)) (toCount_le ..)
  · rwa [hf]

/-- A successful ANALYZE keeps the invariant: it leaves the sorted list of the counts it leaves (R142, R147). -/
theorem Inv.of_analyze (h : Inv s) (hp : s.phase = .opened) (h0 : (freqCounts s.cfg s.freq).sum ≠ 0)
    (hfit : (injected s.cfg (freqCounts s.cfg s.freq)).sum ≤ countMax s.cfg) : Inv (analyzedState s) := by
  have hwf := h.control.config
  have hsum := injected_sum hwf
  have hfreq : freqCounts (analyzedState s).cfg (analyzedState s).freq = _ :=
    freqCounts_analyzedState hwf (hsum ▸ hfit)
  have hpos : (injected s.cfg (freqCounts s.cfg s.freq)).sum ≠ 0 := by
    rw [hsum, analysedTotal, countedTotal_eq]
    omega
  have hlen : (injected s.cfg (freqCounts s.cfg s.freq)).length ≤ s.cfg.nsym := by simp [injected_freqCounts]
  exact .of_parts
    { h.memoriesInv with
      freq := analyzedState_wf_freq hwf h.memoriesInv.freq
      slist := wf_sortedList s.cfg hlen }
    { h.control with
      busy := nofun
      active := fun henc => absurd henc (h.not_active (by simp [hp]))
      counters := analyzedState_countersFit h.control.counters }
    { opened := nofun
      unbuilt := fun _ => h.pipeline.unbuilt (.inl hp)
      uncoded := fun _ => h.pipeline.uncoded (by simp [hp])
      sorted := fun _ => by rw [hfreq]; exact ⟨hpos, hfit, rfl, rfl, rfl⟩
      built := nofun
      coded := nofun }

end Sorting

section Building
variable {s : State}

/-- A successful BUILD keeps the invariant: NODE holds the pool of the merge (R160, R168). -/
theorem Inv.of_build (h : Inv s) (hp : s.phase = .sorted) (hn : s.ndist.toNat ≠ 1) : Inv (builtState s) := by
  have hne : s.phase ≠ .opened := by simp [hp]
  obtain ⟨hpos, -⟩ := h.ndist_bounds hne
  exact .of_parts { h.memoriesInv with node := Memory.wf_ofList _ (List.length_take_le _ _) }
    { h.control with
      busy := nofun
      active := fun henc => absurd henc (h.not_active (by simp [hp])) }
    { opened := nofun
      unbuilt := nofun
      uncoded := fun _ => h.pipeline.uncoded (by simp [hp])
      sorted := fun _ => h.pipeline.sorted hne
      built := fun _ => ⟨show 2 ≤ s.ndist.toNat by omega, rfl, rfl, rfl⟩
      coded := nofun }

theorem Walk.record_wf {c : Config} {t : Walk} (ht : Memory.wf .zero c.nsym t.code = true) (sym : Byte)
    (p : List Bool) : Memory.wf .zero c.nsym (t.record c sym p).code = true := by
  simp only [Walk.record]
  split_ifs with hsym
  · exact Memory.wf_put _ _ ht hsym (by simp [codeEntry, CodeEntry.zero])
  · exact ht

theorem Walk.loop_nil (c : Config) (node : Memory Node) (k : Nat) (code : Memory CodeEntry) (longest : Nat) :
    Walk.loop c node k ⟨[], code, longest⟩ = ⟨[], code, longest⟩ := by
  cases k <;> rfl

/-- A leaf is recorded (R180). -/
theorem Walk.loop_leaf (c : Config) {node : Memory Node} {j : Nat} (h : (Memory.get .zero node j).leaf = true)
    (k : Nat) (p : List Bool) (rest : List (Nat × List Bool)) (code : Memory CodeEntry) (longest : Nat) :
    Walk.loop c node (k + 1) ⟨(j, p) :: rest, code, longest⟩ =
      Walk.loop c node k (Walk.record c (Memory.get .zero node j).sym p ⟨rest, code, longest⟩) := by
  simp [Walk.loop, h]

/-- An internal node's children are pushed, left first (R180). -/
theorem Walk.loop_internal (c : Config) {node : Memory Node} {j : Nat} (h : (Memory.get .zero node j).leaf = false)
    (k : Nat) (p : List Bool) (rest : List (Nat × List Bool)) (code : Memory CodeEntry) (longest : Nat) :
    Walk.loop c node (k + 1) ⟨(j, p) :: rest, code, longest⟩ =
      Walk.loop c node k ⟨((Memory.get .zero node j).left.toNat, p ++ [false]) ::
        ((Memory.get .zero node j).right.toNat, p ++ [true]) :: rest, code, longest⟩ := by
  simp [Walk.loop, h]

theorem Walk.loop_wf (c : Config) (node : Memory Node) (k : Nat) {t : Walk}
    (ht : Memory.wf .zero c.nsym t.code = true) : Memory.wf .zero c.nsym (Walk.loop c node k t).code = true := by
  induction k generalizing t with
  | zero => exact ht
  | succ k ih =>
    obtain ⟨_ | ⟨⟨j, p⟩, rest⟩, code, longest⟩ := t
    · exact ht
    · cases hleaf : (Memory.get .zero node j).leaf with
      | true =>
        rw [Walk.loop_leaf c hleaf]
        exact ih (Walk.record_wf ht _ _)
      | false =>
        rw [Walk.loop_internal c hleaf]
        exact ih ht

/-- A successful GENCODE keeps the invariant: CODE holds the walk's codewords (R180, R182). -/
theorem Inv.of_gencode (h : Inv s) (hp : s.phase = .built) : Inv (complete { s with
    code := (codebook s.cfg s.node s.root.toNat).code
    maxlen := BitVec.ofNat 32 (codebook s.cfg s.node s.root.toNat).longest
    phase := .coded }) :=
  .of_parts { h.memoriesInv with code := Walk.loop_wf _ _ _ rfl }
    { h.control with
      busy := nofun
      active := fun henc => absurd henc (h.not_active (by simp [hp])) }
    { opened := nofun
      unbuilt := nofun
      uncoded := fun hne => absurd rfl hne
      sorted := fun _ => h.pipeline.sorted (by simp [hp])
      built := fun _ => h.pipeline.built (.inl hp)
      coded := fun _ => ⟨rfl, rfl⟩ }

end Building

section Coding
variable {s : State}

/-- A field of 32 bits holds at most the number stored in it. -/
theorem ofNat_toNat_le (n : Nat) : (BitVec.ofNat 32 n).toNat ≤ n := by
  rw [BitVec.toNat_ofNat]
  exact Nat.mod_le ..

/-- PAYLOAD_MAX fits in a register (R9, R41). -/
theorem payloadMax_lt {c : Config} (h : c.wf = true) : payloadMax c < 2 ^ 32 := by
  obtain ⟨hpack, -⟩ := log2_le_of_wf h
  have hle : 2 ^ c.packLog2 ≤ 2 ^ 18 := Nat.pow_le_pow_right Nat.two_pos hpack
  rw [payloadMax, packDepth]
  omega

/-- A payload that PAYLOAD holds fits in PACK with its padding (R51, R193). -/
theorem padded_length_div_le {c : Config} {p : List Bool} (h : p.length ≤ payloadMax c) :
    (padded p).length / 8 ≤ packDepth c := by
  have hpos : 0 < packDepth c := Nat.two_pow_pos _
  rw [payloadMax] at h
  simp only [padded, padCount, List.length_append, List.length_replicate, List.length_singleton]
  omega

theorem payloadStart_le (b : List Bool) : payloadStart b ≤ 8 := by
  unfold payloadStart
  split
  · next i hi =>
    obtain ⟨hlt, -⟩ := List.findIdx?_eq_some_iff_getElem.1 hi
    exact hlt.trans_le (List.length_take_le ..)
  · exact le_rfl

theorem Descent.cons_eq_ended {d : Descent} {sym : Byte} {cur : Nat} {out : List Byte}
    (h : d.cons sym = .ended cur out) : ∃ rest, d = .ended cur rest ∧ out = sym :: rest := by
  cases d with
  | full => cases h
  | ended cur' rest => cases h; exact ⟨rest, rfl, rfl⟩

/-- A descent emits no more symbols than it has room for (R215). -/
theorem descend_length_le {node : Nat → Node} {root : Nat} {bits : List Bool} {cur room cur' : Nat}
    {out : List Byte} (h : descend node root bits cur room = .ended cur' out) : out.length ≤ room := by
  induction bits generalizing cur room out with
  | nil => cases h; exact Nat.zero_le _
  | cons b bits ih =>
    simp only [descend] at h
    generalize (if b then (node cur).right.toNat else (node cur).left.toNat) = next at h
    split at h
    · cases room with
      | zero => cases h
      | succ room =>
        obtain ⟨rest, hrest, rfl⟩ := Descent.cons_eq_ended h
        exact Nat.succ_le_succ (ih hrest)
    · exact ih h

theorem Inv.of_encStart (h : Inv s) (hp : s.phase = .coded) : Inv (complete { s with
    payload := [], encBits := 0, packLen := 0, pad := 0, enc := .active }) :=
  ⟨h.memories, { h.control with
    busy := nofun
    active := fun _ => ⟨hp, rfl⟩
    idle := nofun
    payload := Nat.zero_le _
    encBits := Nat.zero_le _
    pad := Nat.zero_le _
    packLen := Nat.zero_le _ }, { h.pipeline with }⟩

theorem Inv.of_encSym (h : Inv s) (hp : s.phase = .coded) (henc : s.enc = .active) {p : List Bool}
    (hroom : p.length ≤ payloadMax s.cfg) : Inv (complete { s with
      payload := p, encBits := BitVec.ofNat 32 p.length }) := by
  have hbits : (BitVec.ofNat 32 p.length).toNat = p.length := by
    rw [BitVec.toNat_ofNat]
    exact Nat.mod_eq_of_lt (hroom.trans_lt (payloadMax_lt h.control.config))
  exact ⟨h.memories, { h.control with
    busy := nofun
    active := fun _ => ⟨hp, hbits⟩
    idle := fun hidle => by simp [henc] at hidle
    payload := hroom
    encBits := hbits.le.trans hroom }, { h.pipeline with }⟩

theorem Inv.of_encFinish (h : Inv s) : Inv (complete { s with
    pack := Memory.overwrite s.pack ((bytesOf (padded s.payload)).take (packDepth s.cfg))
    packLen := BitVec.ofNat 32 ((padded s.payload).length / 8)
    pad := BitVec.ofNat 32 (padCount s.payload.length)
    payload := []
    enc := .idle }) :=
  .of_parts
    { h.memoriesInv with pack := Memory.rising_overwrite h.memoriesInv.pack (List.length_take_le ..) }
    { h.control with
      busy := nofun
      active := nofun
      idle := fun _ => rfl
      payload := Nat.zero_le _
      pad := (ofNat_toNat_le _).trans (Nat.sub_le ..)
      packLen := (ofNat_toNat_le _).trans (padded_length_div_le h.control.payload) }
    { h.pipeline with }

theorem Inv.of_decode (h : Inv s) {out : List Byte} (hlen : out.length ≤ outDepth s.cfg) {start : Nat}
    (hstart : start ≤ 8) : Inv (complete { s with
      out := Memory.overwrite s.out out
      outLen := BitVec.ofNat 32 out.length
      pad := BitVec.ofNat 32 start }) :=
  .of_parts { h.memoriesInv with out := Memory.rising_overwrite h.memoriesInv.out hlen }
    { h.control with
      busy := nofun
      pad := (ofNat_toNat_le _).trans hstart
      outLen := (ofNat_toNat_le _).trans hlen }
    { h.pipeline with }

end Coding

section Steps
variable {s t : State}

/-- A command that succeeds keeps the invariant. -/
theorem Succeeds.inv {i : Instr} (h : Succeeds s i t) (hp : phaseAllows s i = true) (hs : Inv s) : Inv t := by
  cases h
  case nop => exact hs.complete
  case clear => exact hs.emptyPipeline.clearRecord.complete
  case ack => exact hs.clearRecord.complete
  case count hsym _ => exact (hs.setFreq (by simpa [phaseAllows] using hp) hsym (toCount_le ..)).complete
  case analyze h0 hfit => exact hs.of_analyze (by simpa [phaseAllows] using hp) h0 hfit
  case build hn => exact hs.of_build (by simpa [phaseAllows] using hp) hn
  case gencode => exact hs.of_gencode (by simpa [phaseAllows] using hp)
  case encStart =>
    obtain ⟨hp, -⟩ : s.phase = .coded ∧ s.enc = .idle := by simpa [phaseAllows] using hp
    exact hs.of_encStart hp
  case encSym hroom =>
    obtain ⟨hp, henc⟩ : s.phase = .coded ∧ s.enc = .active := by simpa [phaseAllows] using hp
    exact hs.of_encSym hp henc hroom
  case encFinish => exact hs.of_encFinish
  case decode hend => exact hs.of_decode (descend_length_le hend) (payloadStart_le _)

theorem engineStep_inv {w : Word} (h : engineStep w s = .next t) (hs : Inv s) : Inv t := by
  obtain rfl | rfl | ⟨i, -, hi⟩ := engineStep_cases h
  · exact hs.complete
  · exact (hs.record (by decide) w).complete
  · obtain ⟨-, rfl⟩ | ⟨hp, ⟨e, effects, he, rfl⟩ | hi⟩ := exec_cases hi
    · exact (hs.record (by decide) _).complete
    · exact he.inv hs _
    · exact hi.inv hp hs

/-- Settles O55, over what a step can do: recording, completion, each command, each host write and a reset keep the
invariant. -/
theorem stepKeepsTheInvariant : Obligations.StepKeepsTheInvariant := by
  intro s t hs h
  obtain ⟨-, w, -, hw⟩ | ⟨-, rfl⟩ | rfl | ⟨off, rest, -, -, rfl⟩ | ⟨off, v, rest, -, -, rfl⟩ | ⟨rest, -, rfl⟩ :=
    step_cases h
  · exact engineStep_inv hw hs.turnTaken
  · exact hs.turnTaken
  · exact hs.setScript _
  · exact (hs.setScript _).hostRead off
  · exact (hostWrite_cases off v (dropTurn s)).inv (hs.setScript _)
  · exact (hs.setScript _).resetEvent

end Steps

end Sys2Proof.Machine
end

section
/-! PROOFS. The sorted list: its order and what it lists (41_analyze.md rules R140, R142, R147). -/

namespace Sys2Proof.Machine

section Tallies

/-- The sorter lists each symbol with a non-zero count, with its count (R142). -/
theorem mem_sortedTallies {f : List Nat} {t : Tally} :
    t ∈ sortedTallies f ↔ f[t.sym]? = some t.cnt ∧ 0 < t.cnt := by
  rw [sortedTallies, List.mem_insertionSort, List.mem_filter, decide_eq_true_iff]
  refine and_congr_left fun _ => ?_
  obtain ⟨sym, cnt⟩ := t
  simp [List.mem_zipIdx_iff_getElem?]

theorem tallyLe_iff (a b : Tally) :
    tallyLe a b = true ↔ a.cnt < b.cnt ∨ a.cnt = b.cnt ∧ a.sym ≤ b.sym := by
  simp [tallyLe]

/-- The sorter lists a symbol once (R142). -/
theorem sortedTallies_nodup (f : List Nat) : (sortedTallies f).Nodup := by
  rw [sortedTallies, (List.perm_insertionSort _ _).nodup_iff]
  refine List.Nodup.filter _ (List.Nodup.of_map Tally.sym ?_)
  rw [List.map_map, show (Tally.sym ∘ fun e : Nat × Nat => Tally.mk e.2 e.1) = Prod.snd from rfl,
    List.zipIdx_map_snd]
  exact List.nodup_range'

/-- The sorted list is in the order of R140, strictly. -/
theorem sortedTallies_pairwise (f : List Nat) : (sortedTallies f).Pairwise fun a b =>
    a.cnt < b.cnt ∨ a.cnt = b.cnt ∧ a.sym < b.sym := by
  have htotal : Std.Total fun a b : Tally => tallyLe a b = true := ⟨fun a b => by
    simp only [tallyLe_iff]; omega⟩
  have htrans : IsTrans Tally fun a b => tallyLe a b = true := ⟨fun a b c => by
    simp only [tallyLe_iff]; omega⟩
  have hsorted : (sortedTallies f).Pairwise fun a b => tallyLe a b = true := List.pairwise_insertionSort _ _
  refine (hsorted.and (sortedTallies_nodup f)).imp fun {a b} ⟨hle, hne⟩ => ?_
  rw [tallyLe_iff] at hle
  have hsym : a.cnt = b.cnt → a.sym ≠ b.sym := fun hcnt hsym => hne (by cases a; cases b; simp_all)
  omega

end Tallies

section SortedStates
variable {s : State}

/-- SLIST[k] is the k-th entry of the sorted list (R147). -/
theorem Inv.slistAt_eq (h : Inv s) (hp : s.phase ≠ .opened) {k : Nat} (hk : k < s.ndist.toNat) :
    ∃ t, (sortedTallies (freqCounts s.cfg s.freq))[k]? = some t ∧
      slistAt s k = sortEntry s.cfg (freqCounts s.cfg s.freq).sum t := by
  obtain ⟨-, -, hslist, -⟩ := h.pipeline.sorted hp
  have hlen : k < (sortedTallies (freqCounts s.cfg s.freq)).length := by
    rwa [sortedTallies_length, ← countedSymbols_eq, ← h.ndist_toNat hp]
  refine ⟨_, List.getElem?_eq_getElem hlen, ?_⟩
  rw [slistAt, hslist, sortedList, Memory.get_ofList, List.getD_eq_getElem?_getD, List.getElem?_map,
    List.getElem?_eq_getElem hlen]
  rfl

/-- A listed symbol is one of FREQ with its count, which is not 0. -/
theorem mem_sortedTallies_freqCounts {s : State} {t : Tally} :
    t ∈ sortedTallies (freqCounts s.cfg s.freq) ↔
      t.sym < s.cfg.nsym ∧ t.cnt = (freqAt s t.sym).toNat ∧ 0 < t.cnt := by
  rw [mem_sortedTallies, freqCounts, List.getElem?_map, and_assoc.symm]
  refine and_congr_left fun _ => ?_
  by_cases hsym : t.sym < s.cfg.nsym
  · simp [hsym, freqAt, eq_comm]
  · simp [hsym]

/-- The entry of a listed symbol holds its number and its count exactly (R46). -/
theorem Inv.sortEntry_toNat (h : Inv s) (hp : s.phase ≠ .opened) {t : Tally}
    (ht : t ∈ sortedTallies (freqCounts s.cfg s.freq)) (total : Nat) :
    (sortEntry s.cfg total t).sym.toNat = t.sym ∧ (sortEntry s.cfg total t).cnt.toNat = t.cnt := by
  obtain ⟨hsym, hcnt, -⟩ := mem_sortedTallies_freqCounts.1 ht
  obtain ⟨-, hfit, -⟩ := h.pipeline.sorted hp
  have hns := nsym_of_wf h.control.config
  have hle := freqAt_le_countedTotal hsym
  rw [countedTotal_eq] at hle
  exact ⟨(BitVec.toNat_ofNat ..).trans (Nat.mod_eq_of_lt (by omega)),
    toCount_toNat h.control.config (by omega)⟩

/-- What SLIST[k] holds: a counted symbol, with its count (R142). -/
theorem Inv.slistAt_counted (h : Inv s) (hp : s.phase ≠ .opened) {k : Nat} (hk : k < s.ndist.toNat) :
    (slistAt s k).sym.toNat < s.cfg.nsym ∧ (slistAt s k).cnt = freqAt s (slistAt s k).sym.toNat ∧
      0 < (slistAt s k).cnt.toNat := by
  obtain ⟨t, ht, hslist⟩ := h.slistAt_eq hp hk
  have hmem := List.mem_of_getElem? ht
  obtain ⟨hsym, hcnt, hpos⟩ := mem_sortedTallies_freqCounts.1 hmem
  obtain ⟨hs, hc⟩ := h.sortEntry_toNat hp hmem (freqCounts s.cfg s.freq).sum
  rw [hslist, hs]
  exact ⟨hsym, BitVec.eq_of_toNat_eq (hc.trans hcnt), hc.symm ▸ hpos⟩

/-- Every counted symbol is listed (R142). -/
theorem Inv.exists_slistAt (h : Inv s) (hp : s.phase ≠ .opened) {i : Nat} (hi : i < s.cfg.nsym)
    (hcnt : freqAt s i ≠ 0) : ∃ k, k < s.ndist.toNat ∧ (slistAt s k).sym.toNat = i := by
  have hpos : 0 < (freqAt s i).toNat := by
    rw [Nat.pos_iff_ne_zero]
    exact fun h0 => hcnt (BitVec.eq_of_toNat_eq h0)
  have hmem : Tally.mk i (freqAt s i).toNat ∈ sortedTallies (freqCounts s.cfg s.freq) :=
    mem_sortedTallies_freqCounts.2 ⟨hi, rfl, hpos⟩
  obtain ⟨k, hk⟩ := List.mem_iff_getElem?.1 hmem
  have hlt : k < s.ndist.toNat := by
    rw [h.ndist_toNat hp, countedSymbols_eq, ← sortedTallies_length]
    exact (List.getElem?_eq_some_iff.1 hk).1
  obtain ⟨t, ht, hslist⟩ := h.slistAt_eq hp hlt
  obtain rfl := Option.some.inj (hk.symm.trans ht)
  exact ⟨k, hlt, hslist ▸ (h.sortEntry_toNat hp hmem _).1⟩

/-- SLIST is in the order of R140, strictly. -/
theorem Inv.slistAt_lt (h : Inv s) (hp : s.phase ≠ .opened) {i j : Nat} (hij : i < j) (hj : j < s.ndist.toNat) :
    (slistAt s i).cnt.toNat < (slistAt s j).cnt.toNat ∨
      ((slistAt s i).cnt = (slistAt s j).cnt ∧ (slistAt s i).sym.toNat < (slistAt s j).sym.toNat) := by
  obtain ⟨a, ha, hsa⟩ := h.slistAt_eq hp (hij.trans hj)
  obtain ⟨b, hb, hsb⟩ := h.slistAt_eq hp hj
  obtain ⟨hasym, hacnt⟩ := h.sortEntry_toNat hp (List.mem_of_getElem? ha) (freqCounts s.cfg s.freq).sum
  obtain ⟨hbsym, hbcnt⟩ := h.sortEntry_toNat hp (List.mem_of_getElem? hb) (freqCounts s.cfg s.freq).sum
  obtain ⟨hi, rfl⟩ := List.getElem?_eq_some_iff.1 ha
  obtain ⟨hj, rfl⟩ := List.getElem?_eq_some_iff.1 hb
  have horder := List.pairwise_iff_getElem.1 (sortedTallies_pairwise _) i j hi hj hij
  rw [hsa, hsb, hasym, hbsym, ← BitVec.toNat_inj, hacnt, hbcnt]
  exact horder

/-- SLIST lists a symbol once. -/
theorem Inv.slistAt_sym_inj (h : Inv s) (hp : s.phase ≠ .opened) {i j : Nat} (hi : i < s.ndist.toNat)
    (hj : j < s.ndist.toNat) (hsym : (slistAt s i).sym = (slistAt s j).sym) : i = j := by
  have hcnt : (slistAt s i).cnt = (slistAt s j).cnt := by
    obtain ⟨-, hi, -⟩ := h.slistAt_counted hp hi
    obtain ⟨-, hj, -⟩ := h.slistAt_counted hp hj
    rw [hi, hj, hsym]
  rcases Nat.lt_trichotomy i j with hlt | heq | hlt
  · have := h.slistAt_lt hp hlt hj
    rw [hcnt, hsym] at this
    omega
  · exact heq
  · have := h.slistAt_lt hp hlt hi
    rw [hcnt, hsym] at this
    omega

/-- TOTAL holds the sum of FREQ exactly (R37). -/
theorem Inv.total_toNat (h : Inv s) (hp : s.phase ≠ .opened) : s.total.toNat = countedTotal s := by
  obtain ⟨-, hfit, -, -, htotal⟩ := h.pipeline.sorted hp
  have hle : 2 ^ s.cfg.cw ≤ 2 ^ 32 := Nat.pow_le_pow_right Nat.two_pos (cw_le_of_wf h.control.config)
  have hpos := Nat.two_pow_pos s.cfg.cw
  rw [countMax] at hfit
  rw [htotal, countedTotal_eq, BitVec.toNat_ofNat, Nat.mod_eq_of_lt (by omega)]

/-- The facts of R53 for PHASE >= SORTED. -/
protected theorem Inv.sortedFacts (h : Inv s) (hp : s.phase ≠ .opened) : sortedFacts s := by
  obtain ⟨hpos, hle⟩ := h.ndist_bounds hp
  refine ⟨hpos, hle, h.total_toNat hp, ?_, fun i j hij hj => h.slistAt_lt hp hij hj⟩
  rw [h.ndist_toNat hp, countedSymbols]
  refine List.countP_congr fun i _ => ?_
  rw [decide_eq_true_iff, decide_eq_true_iff, Nat.pos_iff_ne_zero, ne_eq, ne_eq, BitVec.toNat_eq]
  rfl

/-- The counts of the listed symbols sum to TOTAL (R142). -/
theorem Inv.sum_slistAt (h : Inv s) (hp : s.phase ≠ .opened) :
    ∑ k ∈ Finset.range s.ndist.toNat, (slistAt s k).cnt.toNat = s.total.toNat := by
  rw [h.total_toNat hp, countedTotal_eq_sum]
  refine Finset.sum_bij_ne_zero (fun k _ _ => (slistAt s k).sym.toNat) ?_ ?_ ?_ ?_
  · intro k hk _
    exact Finset.mem_range.2 (h.slistAt_counted hp (Finset.mem_range.1 hk)).1
  · intro i hi _ j hj _ hij
    exact h.slistAt_sym_inj hp (Finset.mem_range.1 hi) (Finset.mem_range.1 hj) (BitVec.eq_of_toNat_eq hij)
  · intro i hi hne
    obtain ⟨k, hk, hsym⟩ := h.exists_slistAt hp (Finset.mem_range.1 hi) (fun h0 => by simp [h0] at hne)
    obtain ⟨-, -, hpos⟩ := h.slistAt_counted hp hk
    exact ⟨k, Finset.mem_range.2 hk, hpos.ne', hsym⟩
  · intro k hk _
    obtain ⟨-, hcnt, -⟩ := h.slistAt_counted hp (Finset.mem_range.1 hk)
    rw [hcnt]

end SortedStates

end Sys2Proof.Machine
end

section
/-! PROOFS. The tree of BUILD and the walk of GENCODE: what a sum over the waiting nodes keeps from merge to merge, the
paths from a node to its leaves, and the facts of 10_state.md rule R53. -/

namespace Sys2Proof.Machine

section WaitingSums
variable {M : Type} [AddCommMonoid M] (f : Nat → M) (c : Config) {n : Nat} {q : Queues}

/-- The sum of `f` over the nodes that wait in the two queues. -/
def waitingSum (n : Nat) (q : Queues) : M :=
  ∑ k ∈ Finset.Ico q.sHead n, f k + ∑ k ∈ Finset.Ico q.tHead q.pool.length, f k

/-- `take()` removes the node it returns from those that wait (R162). -/
theorem waitingSum_advance {k : Nat} (h : q.Within n (k + 1)) :
    waitingSum f n q = f (q.front c n) + waitingSum f n (q.advance c n) := by
  obtain ⟨hs, ht, hw⟩ := h
  obtain ⟨hf, hi, ha⟩ | ⟨hf, hi, ha⟩ := q.advance_cases c n
  · rw [Queues.sourceFirst_iff] at hf
    rw [ha, hi, waitingSum, waitingSum, Finset.sum_eq_sum_Ico_succ_bot (show q.sHead < n by omega), add_assoc]
  · rw [Bool.eq_false_iff, ne_eq, Queues.sourceFirst_iff] at hf
    rw [ha, hi, waitingSum, waitingSum,
      Finset.sum_eq_sum_Ico_succ_bot (show q.tHead < q.pool.length by omega), add_left_comm]

/-- A merge replaces two waiting nodes by their parent (R160). -/
theorem waitingSum_merge {k : Nat} (h : q.Within n (k + 2)) (hn : n ≤ q.pool.length) :
    waitingSum f n q =
        f (q.front c n) + (f ((q.advance c n).front c n) + waitingSum f n ((q.advance c n).advance c n)) ∧
      waitingSum f n (q.merge c n) = waitingSum f n ((q.advance c n).advance c n) + f q.pool.length := by
  obtain ⟨h₁, -⟩ := h.advance (c := c) hn
  obtain ⟨⟨-, ht, -⟩, -⟩ := h₁.advance (c := c) (by rwa [Queues.advance_pool])
  rw [Queues.advance_pool, Queues.advance_pool] at ht
  rw [waitingSum_advance f c h, waitingSum_advance f c h₁]
  refine ⟨rfl, ?_⟩
  simp only [waitingSum, Queues.merge, Queues.advance_pool, List.length_append, List.length_singleton]
  rw [Finset.sum_Ico_succ_top ht, add_assoc]

variable (slist : Memory SortEntry) {m : Nat}

/-- Where `f` of each parent is the sum of `f` of its children, the sum over the waiting nodes stays that over the
leaves. -/
theorem waitingSum_mergedQueues (hm : m < n)
    (hf : ∀ i, i < m → f (n + i) = f ((mergedQueues c slist n i).front c n) +
      f (((mergedQueues c slist n i).advance c n).front c n)) :
    waitingSum f n (mergedQueues c slist n m) = ∑ k ∈ Finset.range n, f k := by
  induction m with
  | zero =>
    obtain ⟨hs, ht⟩ := mergedQueues_zero_heads c slist n
    simp [waitingSum, hs, ht]
  | succ m ih =>
    obtain ⟨hsum, hmerge⟩ := waitingSum_merge f c (mergedQueues_within_two c slist hm) (by simp)
    rw [mergedQueues_length] at hmerge
    rw [← ih (by omega) fun i hi => hf i (by omega), mergedQueues_succ, hmerge, hsum, hf m (by omega), add_comm,
      add_assoc]

/-- Where `f` of each parent is the sum of `f` of its children, `f` of ROOT is the sum over the leaves. -/
theorem sum_root_mergedQueues (hn : 2 ≤ n)
    (hf : ∀ i, i + 1 < n → f (n + i) = f ((mergedQueues c slist n i).front c n) +
      f (((mergedQueues c slist n i).advance c n).front c n)) :
    f (2 * n - 2) = ∑ k ∈ Finset.range n, f k := by
  obtain ⟨hs, ht⟩ := mergedQueues_last_heads c slist n hn
  rw [← waitingSum_mergedQueues f c slist (m := n - 1) (by omega) fun i hi => hf i (by omega), waitingSum, hs, ht,
    mergedQueues_length, show n + (n - 1) = 2 * n - 2 + 1 by omega]
  simp

end WaitingSums

section BuiltNodes
variable {s : State} (hn : 2 ≤ s.ndist.toNat) (hns : s.ndist.toNat ≤ s.cfg.nsym)
include hn hns

/-- The leaves are the entries of SLIST (R161, R165). -/
theorem builtState_leaf {k : Nat} (hk : k < s.ndist.toNat) :
    nodeAt (builtState s) k = leafNode (slistAt s k) := by
  rw [nodeAt_builtState hn hns, mergedQueues_nodeAt _ _ s.ndist.toNat (Nat.zero_le _) hk]
  simp [mergedQueues, Queues.start, Queues.nodeAt, leavesOf, hk, slistAt]

/-- The internal node of merge `m` (R164): its count is that of its children, in CW bits. -/
theorem builtState_internal {m : Nat} (hm : m + 1 < s.ndist.toNat) :
    let q := mergedQueues s.cfg s.slist s.ndist.toNat m
    (nodeAt (builtState s) (s.ndist.toNat + m)).leaf = false ∧
      (nodeAt (builtState s) (s.ndist.toNat + m)).cnt = toCount s.cfg
        ((nodeAt (builtState s) (q.front s.cfg s.ndist.toNat)).cnt.toNat +
          (nodeAt (builtState s) ((q.advance s.cfg s.ndist.toNat).front s.cfg s.ndist.toNat)).cnt.toNat) := by
  intro q
  have hpool : ∀ j, j < s.ndist.toNat + m → nodeAt (builtState s) j = q.nodeAt j := fun j hj => by
    rw [nodeAt_builtState hn hns, mergedQueues_nodeAt (m := m) _ _ _ (by omega) hj]
  obtain ⟨hleft, hright⟩ := mergedQueues_front_lt s.cfg s.slist hm
  rw [hpool _ hleft, hpool _ hright, nodeAt_builtState hn hns,
    mergedQueues_nodeAt (m := m + 1) _ _ _ (by omega) (by omega), mergedQueues_nodeAt_new]
  exact ⟨rfl, by simp [Queues.internal, q]⟩

/-- While the leaves' counts fit a counter together, a parent's count is the exact sum of its children's (R164). -/
theorem builtState_cnt (hwf : s.cfg.wf = true)
    (hfit : ∑ k ∈ Finset.range s.ndist.toNat, (nodeAt (builtState s) k).cnt.toNat ≤ countMax s.cfg) {m : Nat}
    (hm : m + 1 < s.ndist.toNat) :
    let q := mergedQueues s.cfg s.slist s.ndist.toNat m
    (nodeAt (builtState s) (s.ndist.toNat + m)).cnt.toNat =
      (nodeAt (builtState s) (q.front s.cfg s.ndist.toNat)).cnt.toNat +
        (nodeAt (builtState s) ((q.advance s.cfg s.ndist.toNat).front s.cfg s.ndist.toNat)).cnt.toNat := by
  intro q
  let cnt (j : Nat) : Nat := (nodeAt (builtState s) j).cnt.toNat
  induction m using Nat.strong_induction_on with
  | _ m ih =>
    have hwaiting := waitingSum_mergedQueues cnt s.cfg s.slist (m := m) (by omega) fun i hi => ih i hi (by omega)
    rw [(waitingSum_merge cnt s.cfg (mergedQueues_within_two s.cfg s.slist hm) (by simp)).1] at hwaiting
    rw [(builtState_internal hn hns hm).2, toCount_toNat hwf]
    change cnt _ + cnt _ ≤ _
    change ∑ k ∈ Finset.range s.ndist.toNat, cnt k ≤ _ at hfit
    omega

end BuiltNodes

section BuiltStates
variable {s : State}

theorem phase_ne_opened_of_built (hp : s.phase = .built ∨ s.phase = .coded) : s.phase ≠ .opened := by
  obtain hp | hp := hp <;> simp [hp]

/-- From BUILT on NODE is the pool of the merge, and NNODES and ROOT are those of the merge of NDIST entries. -/
theorem Inv.built_eq (h : Inv s) (hp : s.phase = .built ∨ s.phase = .coded) :
    2 ≤ s.ndist.toNat ∧ s.ndist.toNat ≤ s.cfg.nsym ∧ (∀ j, nodeAt s j = nodeAt (builtState s) j) ∧
      s.nnodes.toNat = 2 * s.ndist.toNat - 1 ∧ s.root.toNat = 2 * s.ndist.toNat - 2 := by
  obtain ⟨hn, hnode, hnnodes, hroot⟩ := h.pipeline.built hp
  obtain ⟨-, hns⟩ := h.ndist_bounds (phase_ne_opened_of_built hp)
  have h256 := nsym_of_wf h.control.config
  rw [builtPool_eq _ _ _ hn, mergedQueues_length] at hnnodes hroot
  refine ⟨hn, hns, fun j => ?_, ?_, ?_⟩
  · rw [nodeAt, hnode]
    rfl
  · rw [hnnodes, BitVec.toNat_ofNat, Nat.mod_eq_of_lt (by omega)]
    omega
  · rw [hroot, BitVec.toNat_ofNat, Nat.mod_eq_of_lt (by omega)]
    omega

theorem Inv.nodeAt_leaf (h : Inv s) (hp : s.phase = .built ∨ s.phase = .coded) {k : Nat}
    (hk : k < s.ndist.toNat) : nodeAt s k = leafNode (slistAt s k) := by
  obtain ⟨hn, hns, hnode, -⟩ := h.built_eq hp
  rw [hnode, builtState_leaf hn hns hk]

/-- The internal nodes: the children are the nodes that merge `m` takes, with their summed count (R160, R164). -/
theorem Inv.nodeAt_internal (h : Inv s) (hp : s.phase = .built ∨ s.phase = .coded) {m : Nat}
    (hm : m + 1 < s.ndist.toNat) :
    let q := mergedQueues s.cfg s.slist s.ndist.toNat m
    let node := nodeAt s (s.ndist.toNat + m)
    node.leaf = false ∧ node.left.toNat = q.front s.cfg s.ndist.toNat ∧
      node.right.toNat = (q.advance s.cfg s.ndist.toNat).front s.cfg s.ndist.toNat ∧
      node.cnt.toNat = (nodeAt s node.left.toNat).cnt.toNat + (nodeAt s node.right.toNat).cnt.toNat := by
  intro q node
  obtain ⟨hn, hns, hnode, -⟩ := h.built_eq hp
  have hwf := h.control.config
  have hne := phase_ne_opened_of_built hp
  have hfit : ∑ k ∈ Finset.range s.ndist.toNat, (nodeAt (builtState s) k).cnt.toNat ≤ countMax s.cfg := by
    obtain ⟨-, hle, -⟩ := h.pipeline.sorted hne
    rw [← countedTotal_eq, ← h.total_toNat hne, ← h.sum_slistAt hne] at hle
    refine (Finset.sum_congr rfl fun k hk => ?_).trans_le hle
    rw [builtState_leaf hn hns (Finset.mem_range.1 hk)]
    rfl
  obtain ⟨hleft, hright⟩ := builtState_children hwf hn hns hm
  rw [← hnode] at hleft hright
  have hcnt := builtState_cnt hn hns hwf hfit hm
  simp only [← hnode] at hcnt
  refine ⟨?_, hleft, hright, ?_⟩
  · exact (congrArg Node.leaf (hnode _)).trans (builtState_internal hn hns hm).1
  · rw [hleft, hright]
    exact hcnt

/-- Where `f` of each internal node is the sum of `f` of its children, `f` of ROOT is the sum over the leaves. -/
theorem Inv.sum_root (h : Inv s) (hp : s.phase = .built ∨ s.phase = .coded) {M : Type} [AddCommMonoid M]
    (f : Nat → M) (hf : ∀ m, m + 1 < s.ndist.toNat → f (s.ndist.toNat + m) =
      f (nodeAt s (s.ndist.toNat + m)).left.toNat + f (nodeAt s (s.ndist.toNat + m)).right.toNat) :
    f s.root.toNat = ∑ k ∈ Finset.range s.ndist.toNat, f k := by
  obtain ⟨hn, -, -, -, hroot⟩ := h.built_eq hp
  rw [hroot]
  refine sum_root_mergedQueues f s.cfg s.slist hn fun m hm => ?_
  obtain ⟨-, hleft, hright, -⟩ := h.nodeAt_internal hp hm
  rw [hf m hm, hleft, hright]

/-- The facts of R53 for PHASE >= BUILT. -/
protected theorem Inv.builtFacts (h : Inv s) (hp : s.phase = .built ∨ s.phase = .coded) : builtFacts s := by
  obtain ⟨hn, -, -, hnnodes, hroot⟩ := h.built_eq hp
  refine ⟨hn, hnnodes, by omega, BitVec.eq_of_toNat_eq ?_⟩
  have hne := phase_ne_opened_of_built hp
  have hsum : (nodeAt s s.root.toNat).cnt.toNat = _ :=
    h.sum_root hp (fun j => (nodeAt s j).cnt.toNat) fun m hm => by
      obtain ⟨-, -, -, hcnt⟩ := h.nodeAt_internal hp hm
      exact hcnt
  rw [hsum, ← h.sum_slistAt hne]
  exact Finset.sum_congr rfl fun k hk => by rw [h.nodeAt_leaf hp (Finset.mem_range.1 hk)]; rfl

end BuiltStates

section Paths
variable {node : Nat → Node} {top : Nat}

/-- The paths from a node reached by `p`, seen from where `p` starts. -/
def underPath (p : List Bool) (paths : List (Nat × List Bool)) : List (Nat × List Bool) :=
  paths.map fun e => (e.1, p ++ e.2)

@[simp] theorem underPath_nil (paths : List (Nat × List Bool)) : underPath [] paths = paths := List.map_id _

@[simp] theorem length_underPath (p : List Bool) (paths : List (Nat × List Bool)) :
    (underPath p paths).length = paths.length := List.length_map _

@[simp] theorem map_fst_underPath (p : List Bool) (paths : List (Nat × List Bool)) :
    (underPath p paths).map Prod.fst = paths.map Prod.fst := List.map_map

theorem underPath_underPath (p q : List Bool) (paths : List (Nat × List Bool)) :
    underPath p (underPath q paths) = underPath (p ++ q) paths := by
  simp [underPath, Function.comp_def]

theorem mem_underPath {p : List Bool} {paths : List (Nat × List Bool)} {e : Nat × List Bool} :
    e ∈ underPath p paths ↔ ∃ e' ∈ paths, (e'.1, p ++ e'.2) = e := List.mem_map

/-- The leaves below node `j`, each with the path that leads to it from `j`, in the order of the walk (R180). A node
whose children are not both below it is given no path further down. -/
def leafPaths (node : Nat → Node) (j : Nat) : List (Nat × List Bool) :=
  if _h : (node j).leaf = false ∧ (node j).left.toNat < j ∧ (node j).right.toNat < j then
    underPath [false] (leafPaths node (node j).left.toNat) ++
      underPath [true] (leafPaths node (node j).right.toNat)
  else [(j, [])]
termination_by j

theorem leafPaths_leaf {j : Nat} (h : (node j).leaf = true) : leafPaths node j = [(j, [])] := by
  rw [leafPaths, dif_neg (by simp [h])]

theorem leafPaths_internal {j : Nat} (h : (node j).leaf = false) (hl : (node j).left.toNat < j)
    (hr : (node j).right.toNat < j) : leafPaths node j =
      underPath [false] (leafPaths node (node j).left.toNat) ++
        underPath [true] (leafPaths node (node j).right.toNat) := by
  rw [leafPaths, dif_pos ⟨h, hl, hr⟩]

/-- Below `top` the children of each internal node are below it. -/
def ChildrenBelow (node : Nat → Node) (top : Nat) : Prop :=
  ∀ j, j < top → (node j).leaf = false → (node j).left.toNat < j ∧ (node j).right.toNat < j

/-- Induction from the leaves up. -/
theorem ChildrenBelow.induction (h : ChildrenBelow node top) {P : (j : Nat) → j < top → Prop}
    (leaf : ∀ j hj, (node j).leaf = true → P j hj)
    (internal : ∀ j hj, (node j).leaf = false → ∀ (hl : (node j).left.toNat < j) (hr : (node j).right.toNat < j),
      P (node j).left.toNat (hl.trans hj) → P (node j).right.toNat (hr.trans hj) → P j hj)
    (j : Nat) (hj : j < top) : P j hj := by
  induction j using Nat.strong_induction_on with
  | _ j ih =>
    cases hleaf : (node j).leaf with
    | true => exact leaf j hj hleaf
    | false =>
      obtain ⟨hl, hr⟩ := h j hj hleaf
      exact internal j hj hleaf hl hr (ih _ hl _) (ih _ hr _)

/-- There is a leaf below every node. -/
theorem leafPaths_length_pos (h : ChildrenBelow node top) {j : Nat} (hj : j < top) :
    0 < (leafPaths node j).length := by
  induction j, hj using h.induction with
  | leaf j _ hleaf => simp [leafPaths_leaf hleaf]
  | internal j _ hleaf hl hr ihl _ =>
    rw [leafPaths_internal hleaf hl hr, List.length_append, length_underPath]
    omega

/-- Each path leads to a leaf, and is shorter than the number of the leaves. -/
theorem of_mem_leafPaths (h : ChildrenBelow node top) {j : Nat} (hj : j < top) {e : Nat × List Bool}
    (he : e ∈ leafPaths node j) :
    follow node j e.2 = some e.1 ∧ (node e.1).leaf = true ∧ e.2.length < (leafPaths node j).length := by
  induction j, hj using h.induction generalizing e with
  | leaf j _ hleaf =>
    obtain rfl : e = (j, []) := by simpa [leafPaths_leaf hleaf] using he
    exact ⟨rfl, hleaf, by simp [leafPaths_leaf hleaf]⟩
  | internal j hj hleaf hl hr ihl ihr =>
    have hlpos := leafPaths_length_pos h (hl.trans hj)
    have hrpos := leafPaths_length_pos h (hr.trans hj)
    rw [leafPaths_internal hleaf hl hr] at he ⊢
    rw [List.length_append, length_underPath, length_underPath]
    obtain he | he := List.mem_append.1 he
    · obtain ⟨e', he', rfl⟩ := mem_underPath.1 he
      obtain ⟨hfollow, hend, hlen⟩ := ihl he'
      exact ⟨by simpa [follow, hleaf] using hfollow, hend, by
        simp only [List.length_append, List.length_singleton]; omega⟩
    · obtain ⟨e', he', rfl⟩ := mem_underPath.1 he
      obtain ⟨hfollow, hend, hlen⟩ := ihr he'
      exact ⟨by simpa [follow, hleaf] using hfollow, hend, by
        simp only [List.length_append, List.length_singleton]; omega⟩

/-- A path from an internal node is not empty. -/
theorem ne_nil_of_mem_leafPaths {j : Nat} (h : (node j).leaf = false) (hl : (node j).left.toNat < j)
    (hr : (node j).right.toNat < j) {e : Nat × List Bool} (he : e ∈ leafPaths node j) : e.2 ≠ [] := by
  rw [leafPaths_internal h hl hr, List.mem_append, mem_underPath, mem_underPath] at he
  obtain ⟨e, -, rfl⟩ | ⟨e, -, rfl⟩ := he <;> exact List.cons_ne_nil _ _

/-- The leaves below node `j`. -/
def leavesBelow (node : Nat → Node) (j : Nat) : Multiset Nat := (leafPaths node j).map Prod.fst

theorem leavesBelow_leaf {j : Nat} (h : (node j).leaf = true) : leavesBelow node j = {j} := by
  simp [leavesBelow, leafPaths_leaf h]

theorem leavesBelow_internal {j : Nat} (h : (node j).leaf = false) (hl : (node j).left.toNat < j)
    (hr : (node j).right.toNat < j) : leavesBelow node j =
      leavesBelow node (node j).left.toNat + leavesBelow node (node j).right.toNat := by
  simp [leavesBelow, leafPaths_internal h hl hr]

end Paths

section Walks
variable (c : Config)

/-- CODE after the codewords of `paths` are recorded in it (R180). -/
def recordCodes (node : Nat → Node) (code : Memory CodeEntry) (paths : List (Nat × List Bool)) : Memory CodeEntry :=
  paths.foldl (fun code e =>
    if (node e.1).sym.toNat < c.nsym then Memory.put code (node e.1).sym.toNat (codeEntry c e.2) else code) code

/-- The longest codeword after those of `paths` (R180). -/
def recordLongest (longest : Nat) (paths : List (Nat × List Bool)) : Nat :=
  paths.foldl (fun longest e => max longest e.2.length) longest

/-- The walk below node `j` records the paths to the leaves below it: of `L` leaves and `L - 1` internal nodes each is
popped once (R180). -/
theorem Walk.loop_leafPaths {mem : Memory Node} {top : Nat} (h : ChildrenBelow (Memory.get .zero mem) top) {j : Nat}
    (hj : j < top) (k : Nat) (p : List Bool) (rest : List (Nat × List Bool)) (code : Memory CodeEntry)
    (longest : Nat) :
    Walk.loop c mem (k + (2 * (leafPaths (Memory.get .zero mem) j).length - 1)) ⟨(j, p) :: rest, code, longest⟩ =
      Walk.loop c mem k ⟨rest,
        recordCodes c (Memory.get .zero mem) code (underPath p (leafPaths (Memory.get .zero mem) j)),
        recordLongest longest (underPath p (leafPaths (Memory.get .zero mem) j))⟩ := by
  induction j, hj using h.induction generalizing k p rest code longest with
  | leaf j _ hleaf =>
    rw [leafPaths_leaf hleaf, List.length_singleton, Walk.loop_leaf c hleaf]
    simp [recordCodes, recordLongest, Walk.record, underPath]
  | internal j hj hleaf hl hr ihl ihr =>
    have hlpos := leafPaths_length_pos h (hl.trans hj)
    have hrpos := leafPaths_length_pos h (hr.trans hj)
    have hpaths := leafPaths_internal hleaf hl hr
    have hfuel : k + (2 * (leafPaths (Memory.get .zero mem) j).length - 1) =
        k + (2 * (leafPaths (Memory.get .zero mem) (Memory.get Node.zero mem j).right.toNat).length - 1) +
          (2 * (leafPaths (Memory.get .zero mem) (Memory.get Node.zero mem j).left.toNat).length - 1) + 1 := by
      rw [hpaths, List.length_append, length_underPath, length_underPath]
      omega
    rw [hfuel, Walk.loop_internal c hleaf, ihl, ihr, hpaths]
    simp only [underPath, List.map_append, recordCodes, recordLongest, List.foldl_append]
    simp [List.foldl_map]

/-- What the recorded CODE holds at a symbol: the codeword of a path to a leaf with it, or what it held. -/
theorem get_recordCodes {node : Nat → Node} {paths : List (Nat × List Bool)}
    (hsym : ∀ e ∈ paths, (node e.1).sym.toNat < c.nsym) (code : Memory CodeEntry) (i : Nat) :
    (∃ e ∈ paths, (node e.1).sym.toNat = i ∧
      Memory.get .zero (recordCodes c node code paths) i = codeEntry c e.2) ∨
    (∀ e ∈ paths, (node e.1).sym.toNat ≠ i) ∧
      Memory.get .zero (recordCodes c node code paths) i = Memory.get .zero code i := by
  induction paths generalizing code with
  | nil => exact .inr ⟨nofun, rfl⟩
  | cons e paths ih =>
    simp only [List.mem_cons, forall_eq_or_imp] at hsym
    have hcons : recordCodes c node code (e :: paths) =
        recordCodes c node (Memory.put code (node e.1).sym.toNat (codeEntry c e.2)) paths := by
      simp [recordCodes, hsym.1]
    rw [hcons]
    obtain ⟨e', he', hi, hget⟩ | ⟨hne, hget⟩ := ih hsym.2 (Memory.put code (node e.1).sym.toNat (codeEntry c e.2))
    · exact .inl ⟨e', List.mem_cons_of_mem _ he', hi, hget⟩
    · rw [hget]
      by_cases hi : (node e.1).sym.toNat = i
      · subst hi
        exact .inl ⟨e, List.mem_cons_self, rfl, by simp [Memory.get, Memory.find_put_same]⟩
      · exact .inr ⟨by simpa [hi] using hne, by simp [Memory.get, Memory.find_put_other _ _ (Ne.symm hi)]⟩

theorem recordLongest_le_iff {longest bound : Nat} {paths : List (Nat × List Bool)} :
    recordLongest longest paths ≤ bound ↔ longest ≤ bound ∧ ∀ e ∈ paths, e.2.length ≤ bound := by
  induction paths generalizing longest with
  | nil => simp [recordLongest]
  | cons e paths ih =>
    rw [show recordLongest longest (e :: paths) = recordLongest (max longest e.2.length) paths from rfl, ih,
      Nat.max_le, List.forall_mem_cons, and_assoc]

end Walks

section CodedStates
variable {s : State}

/-- From BUILT on the children of each internal node are below it. -/
theorem Inv.childrenBelow (h : Inv s) (hp : s.phase = .built ∨ s.phase = .coded) :
    ChildrenBelow (nodeAt s) (2 * s.ndist.toNat - 1) := by
  intro j hj hleaf
  rcases Nat.lt_or_ge j s.ndist.toNat with hlt | hge
  · simp [h.nodeAt_leaf hp hlt, leafNode] at hleaf
  · obtain ⟨m, rfl⟩ := Nat.exists_eq_add_of_le hge
    have hm : m + 1 < s.ndist.toNat := by omega
    obtain ⟨-, hleft, hright, -⟩ := h.nodeAt_internal hp hm
    rw [hleft, hright]
    exact mergedQueues_front_lt s.cfg s.slist hm

/-- The leaves below ROOT are the entries of SLIST, each once. -/
theorem Inv.leavesBelow_root (h : Inv s) (hp : s.phase = .built ∨ s.phase = .coded) :
    leavesBelow (nodeAt s) s.root.toNat = Multiset.range s.ndist.toNat := by
  rw [h.sum_root hp (leavesBelow (nodeAt s)) fun m hm => ?_]
  · rw [Finset.sum_congr rfl fun k hk => leavesBelow_leaf (by rw [h.nodeAt_leaf hp (Finset.mem_range.1 hk)]; rfl)]
    exact Finset.sum_multiset_singleton _
  · obtain ⟨hleaf, -⟩ := h.nodeAt_internal hp hm
    obtain ⟨hl, hr⟩ := h.childrenBelow hp _ (by omega) hleaf
    exact leavesBelow_internal hleaf hl hr

theorem Inv.rootPaths_length (h : Inv s) (hp : s.phase = .built ∨ s.phase = .coded) :
    (leafPaths (nodeAt s) s.root.toNat).length = s.ndist.toNat := by
  simpa [leavesBelow] using congrArg Multiset.card (h.leavesBelow_root hp)

/-- The paths from ROOT lead to the leaves. -/
theorem Inv.exists_rootPath_iff (h : Inv s) (hp : s.phase = .built ∨ s.phase = .coded) (k : Nat) :
    (∃ e ∈ leafPaths (nodeAt s) s.root.toNat, e.1 = k) ↔ k < s.ndist.toNat := by
  rw [← Multiset.mem_range, ← h.leavesBelow_root hp, leavesBelow, Multiset.mem_coe, List.mem_map]

/-- A path from ROOT is not empty, and shorter than NDIST. -/
theorem Inv.rootPath_bounds (h : Inv s) (hp : s.phase = .built ∨ s.phase = .coded) {e : Nat × List Bool}
    (he : e ∈ leafPaths (nodeAt s) s.root.toNat) : e.2 ≠ [] ∧ e.2.length < s.ndist.toNat := by
  obtain ⟨hn, -, -, -, hroot⟩ := h.built_eq hp
  have hinternal : (nodeAt s s.root.toNat).leaf = false := by
    obtain ⟨hleaf, -⟩ := h.nodeAt_internal hp (m := s.ndist.toNat - 2) (by omega)
    rwa [hroot, show 2 * s.ndist.toNat - 2 = s.ndist.toNat + (s.ndist.toNat - 2) by omega]
  have hlt : s.root.toNat < 2 * s.ndist.toNat - 1 := by omega
  obtain ⟨hl, hr⟩ := h.childrenBelow hp _ hlt hinternal
  obtain ⟨-, -, hlen⟩ := of_mem_leafPaths (h.childrenBelow hp) hlt he
  rw [h.rootPaths_length hp] at hlen
  exact ⟨ne_nil_of_mem_leafPaths hinternal hl hr he, hlen⟩

/-- The walk of GENCODE records the paths from ROOT (R180). -/
theorem Inv.codebook_eq (h : Inv s) (hp : s.phase = .built ∨ s.phase = .coded) :
    codebook s.cfg s.node s.root.toNat = ⟨[],
      recordCodes s.cfg (nodeAt s) [] (leafPaths (nodeAt s) s.root.toNat),
      recordLongest 0 (leafPaths (nodeAt s) s.root.toNat)⟩ := by
  obtain ⟨hn, hns, -, -, hroot⟩ := h.built_eq hp
  have hlen := h.rootPaths_length hp
  have hfuel : nodeDepth s.cfg = nodeDepth s.cfg - (2 * s.ndist.toNat - 1) +
      (2 * (leafPaths (nodeAt s) s.root.toNat).length - 1) := by
    rw [hlen, nodeDepth]
    omega
  have hwalk := Walk.loop_leafPaths s.cfg (h.childrenBelow hp) (j := s.root.toNat) (by omega)
    (nodeDepth s.cfg - (2 * s.ndist.toNat - 1)) [] [] [] 0
  rw [codebook, hfuel]
  exact hwalk.trans (by rw [Walk.loop_nil, underPath_nil]; rfl)

/-- The symbol of a leaf that a path from ROOT leads to. -/
theorem Inv.sym_of_mem_rootPaths (h : Inv s) (hp : s.phase = .built ∨ s.phase = .coded) {e : Nat × List Bool}
    (he : e ∈ leafPaths (nodeAt s) s.root.toNat) :
    e.1 < s.ndist.toNat ∧ (nodeAt s e.1).sym = (slistAt s e.1).sym := by
  have hlt := (h.exists_rootPath_iff hp e.1).1 ⟨e, he, rfl⟩
  exact ⟨hlt, by rw [h.nodeAt_leaf hp hlt]; rfl⟩

/-- What CODE holds at a symbol: the codeword of the path to its leaf, or nothing where it has none (R181, R182). -/
theorem Inv.codeAt_cases (h : Inv s) (hp : s.phase = .coded) (i : Nat) :
    (∃ e ∈ leafPaths (nodeAt s) s.root.toNat, (slistAt s e.1).sym.toNat = i ∧ codeAt s i = codeEntry s.cfg e.2) ∨
    (∀ k, k < s.ndist.toNat → (slistAt s k).sym.toNat ≠ i) ∧ codeAt s i = .zero := by
  have hne : s.phase ≠ .opened := by simp [hp]
  have hsym : ∀ e ∈ leafPaths (nodeAt s) s.root.toNat, (nodeAt s e.1).sym.toNat < s.cfg.nsym := fun e he => by
    obtain ⟨hlt, hsym⟩ := h.sym_of_mem_rootPaths (.inr hp) he
    exact hsym ▸ (h.slistAt_counted hne hlt).1
  have hcode : codeAt s i = Memory.get .zero
      (recordCodes s.cfg (nodeAt s) [] (leafPaths (nodeAt s) s.root.toNat)) i := by
    rw [codeAt, (h.pipeline.coded hp).1, h.codebook_eq (.inr hp)]
  rw [hcode]
  obtain ⟨e, he, hi, hget⟩ | ⟨hnone, hget⟩ := get_recordCodes s.cfg hsym [] i
  · exact .inl ⟨e, he, (h.sym_of_mem_rootPaths (.inr hp) he).2 ▸ hi, hget⟩
  · refine .inr ⟨fun k hk => ?_, hget⟩
    obtain ⟨e, he, rfl⟩ := (h.exists_rootPath_iff (.inr hp) k).2 hk
    exact (h.sym_of_mem_rootPaths (.inr hp) he).2 ▸ hnone e he

/-- MAXLEN is at least the length of each path from ROOT, and less than NDIST (R40). -/
theorem Inv.maxlen_bounds (h : Inv s) (hp : s.phase = .coded) :
    (∀ e ∈ leafPaths (nodeAt s) s.root.toNat, e.2.length ≤ s.maxlen.toNat) ∧
      s.maxlen.toNat ≤ s.ndist.toNat - 1 := by
  have hle : recordLongest 0 (leafPaths (nodeAt s) s.root.toNat) ≤ s.ndist.toNat - 1 :=
    recordLongest_le_iff.2 ⟨Nat.zero_le _, fun e he =>
      Nat.le_sub_one_of_lt (h.rootPath_bounds (.inr hp) he).2⟩
  have hmaxlen : s.maxlen.toNat = recordLongest 0 (leafPaths (nodeAt s) s.root.toNat) := by
    have := s.ndist.isLt
    rw [(h.pipeline.coded hp).2, h.codebook_eq (.inr hp), BitVec.toNat_ofNat, Nat.mod_eq_of_lt (by simp only; omega)]
  rw [hmaxlen]
  exact ⟨(recordLongest_le_iff.1 le_rfl).2, hle⟩

/-- The facts of R53 for PHASE = CODED. -/
protected theorem Inv.codedFacts (h : Inv s) (hp : s.phase = .coded) : codedFacts s := by
  obtain ⟨-, hns, -⟩ := h.built_eq (.inr hp)
  have h256 := nsym_of_wf h.control.config
  obtain ⟨hle, hmaxlen⟩ := h.maxlen_bounds hp
  refine ⟨fun i _ => ?_, fun i hvalid => ?_, hmaxlen⟩
  · obtain ⟨e, he, hi, hcode⟩ | ⟨hnone, hcode⟩ := h.codeAt_cases hp i
    · rw [hcode]
      exact iff_of_true rfl ⟨e.1, (h.exists_rootPath_iff (.inr hp) e.1).1 ⟨e, he, rfl⟩, hi⟩
    · rw [hcode]
      exact iff_of_false nofun fun ⟨k, hk, hi⟩ => hnone k hk hi
  · obtain ⟨e, he, -, hcode⟩ | ⟨-, hcode⟩ := h.codeAt_cases hp i
    · obtain ⟨hne, hlt⟩ := h.rootPath_bounds (.inr hp) he
      have hlen : (codeAt s i).len.toNat = e.2.length := by
        rw [hcode, codeEntry, BitVec.toNat_ofNat, Nat.mod_eq_of_lt (by omega)]
      rw [hlen]
      exact ⟨List.length_pos_iff.2 hne, hle e he⟩
    · rw [hcode] at hvalid
      cases hvalid

/-- The facts of R53 for PHASE = OPEN. -/
protected theorem Inv.openFacts (h : Inv s) (hp : s.phase = .opened) : openFacts s := by
  obtain ⟨hndist, htotal, hinj, hslist⟩ := h.pipeline.opened hp
  obtain ⟨hnnodes, hroot, hnode⟩ := h.pipeline.unbuilt (.inl hp)
  obtain ⟨hmaxlen, hcode⟩ := h.pipeline.uncoded (by simp [hp])
  exact ⟨hndist, htotal, hnnodes, hroot, hmaxlen, hinj, fun i => by rw [slistAt, hslist]; rfl,
    fun j => by rw [nodeAt, hnode]; rfl, fun i => by rw [codeAt, hcode]; rfl⟩

/-- Settles O56, phase by phase. -/
theorem invariantGivesTheFactsBetweenCommands : Obligations.InvariantGivesTheFactsBetweenCommands := by
  intro s h
  exact ⟨h.openFacts, h.sortedFacts, h.builtFacts, h.codedFacts, h.control.active⟩

end CodedStates

end Sys2Proof.Machine
end

section
/-! PROOFS. The address map as rows of 20_memory.md rule R73: the offsets of each target, and what a host access does by
its target. -/

namespace Sys2Proof.Machine

section AddressMap

/-- The offset of a register (10_state.md rule R23). -/
def Reg.offset : Reg → Nat
  | .id => 0x000
  | .param => 0x004
  | .cmd => 0x008
  | .status => 0x00C
  | .errcode => 0x010
  | .errinfo => 0x014
  | .inten => 0x018
  | .ndist => 0x01C
  | .total => 0x020
  | .nnodes => 0x024
  | .root => 0x028
  | .maxlen => 0x02C
  | .encBits => 0x030
  | .pad => 0x034
  | .packLen => 0x038
  | .outLen => 0x03C

/-- The rows of R73: the word offset `a` reaches the target. -/
inductive OffsetRow (a : Nat) : Target → Prop
  | reg (r : Reg) (h : a = r.offset) : OffsetRow a (.reg r)
  | freq {i : Nat} (hi : i < 256) (h : a = 0x1000 + 4 * i) : OffsetRow a (.freq i)
  | slist {i k : Nat} (hi : i < 256) (hk : k < 4) (h : a = 0x2000 + 16 * i + 4 * k) : OffsetRow a (.slist i k)
  | node {j k : Nat} (hj : j < 512) (hk : k < 8) (h : a = 0x4000 + 32 * j + 4 * k) : OffsetRow a (.node j k)
  | code {i k : Nat} (hi : i < 256) (hk : k < 16) (h : a = 0x8000 + 64 * i + 4 * k) : OffsetRow a (.code i k)
  | pack {i : Nat} (hi : i < 2 ^ 18) (h : a = 0x100000 + 4 * i) : OffsetRow a (.pack i)
  | out {i : Nat} (hi : i < 2 ^ 18) (h : a = 0x200000 + 4 * i) : OffsetRow a (.out i)
  | unmapped (h : unmappedOffset a) : OffsetRow a .unmapped

theorem Reg.offset_lt (r : Reg) : r.offset < 0x40 := by
  cases r <;> decide

theorem registerFile_offset (r : Reg) : registerFile[r.offset / 4]? = some r := by
  cases r <;> rfl

/-- Every word offset below 0x40 is a register's. -/
theorem Reg.exists_offset {a : Nat} (ha : a < 0x40) (h4 : a % 4 = 0) : ∃ r : Reg, a = r.offset := by
  obtain ⟨k, hk, rfl⟩ : ∃ k, k < 16 ∧ a = 4 * k := ⟨a / 4, by omega, by omega⟩
  have hall : ∀ k : Fin 16, 4 * k.val = (registerFile.get k).offset := by decide
  exact ⟨_, hall ⟨k, hk⟩⟩

theorem decodeOffset_of_row {off : Offset} {t : Target} (h : OffsetRow (wordOffset off) t) : decodeOffset off = t := by
  cases h with
  | reg r h =>
    have hlt := r.offset_lt
    rw [wordOffset] at h
    simp only [decodeOffset, h, if_pos hlt, registerFile_offset, Option.elim]
  | unmapped h => exact decodeOffset_unmapped h
  | freq hi h | slist hi hk h | node hi hk h | code hi hk h | pack hi h | out hi h =>
    simp only [decodeOffset]
    rw [wordOffset] at h
    generalize off.toNat / 4 * 4 = a at h ⊢
    simp (disch := omega) only [if_neg, if_pos]
    congr 1 <;> omega

/-- Every word offset of the region is in a row of R73. -/
theorem exists_offsetRow {a : Nat} (hlt : a < 0x400000) (h4 : a % 4 = 0) : ∃ t, OffsetRow a t := by
  by_cases hun : unmappedOffset a
  · exact ⟨_, .unmapped hun⟩
  by_cases hreg : a < 0x40
  · obtain ⟨r, hr⟩ := Reg.exists_offset hreg h4
    exact ⟨_, .reg r hr⟩
  simp only [unmappedOffset, not_or, not_and, not_lt] at hun
  obtain h | h | h | h | h | h : (0x1000 ≤ a ∧ a < 0x1400) ∨ (0x2000 ≤ a ∧ a < 0x3000) ∨ (0x4000 ≤ a ∧ a < 0x8000) ∨
      (0x8000 ≤ a ∧ a < 0xC000) ∨ (0x100000 ≤ a ∧ a < 0x200000) ∨ (0x200000 ≤ a ∧ a < 0x300000) := by omega
  · exact ⟨.freq ((a - 0x1000) / 4), .freq (by omega) (by omega)⟩
  · exact ⟨.slist ((a - 0x2000) / 16) ((a - 0x2000) % 16 / 4), .slist (by omega) (by omega) (by omega)⟩
  · exact ⟨.node ((a - 0x4000) / 32) ((a - 0x4000) % 32 / 4), .node (by omega) (by omega) (by omega)⟩
  · exact ⟨.code ((a - 0x8000) / 64) ((a - 0x8000) % 64 / 4), .code (by omega) (by omega) (by omega)⟩
  · exact ⟨.pack ((a - 0x100000) / 4), .pack (by omega) (by omega)⟩
  · exact ⟨.out ((a - 0x200000) / 4), .out (by omega) (by omega)⟩

theorem wordOffset_lt (off : Offset) : wordOffset off < 0x400000 := by
  have := off.isLt
  rw [wordOffset]
  omega

theorem wordOffset_mod (off : Offset) : wordOffset off % 4 = 0 := Nat.mul_mod_left _ 4

/-- An offset's target is the one of its row of R73. -/
theorem exists_row (off : Offset) : ∃ t, decodeOffset off = t ∧ OffsetRow (wordOffset off) t := by
  obtain ⟨t, ht⟩ := exists_offsetRow (wordOffset_lt off) (wordOffset_mod off)
  exact ⟨t, decodeOffset_of_row ht, ht⟩

theorem wordOffset_ofNat {n : Nat} (hn : n < 2 ^ 22) (h4 : n % 4 = 0) : wordOffset (BitVec.ofNat 22 n) = n := by
  rw [wordOffset, BitVec.toNat_ofNat, Nat.mod_eq_of_lt hn]
  omega

/-- The target of an offset given as a number. -/
theorem decodeOffset_ofNat {n : Nat} {t : Target} (hn : n < 2 ^ 22) (h4 : n % 4 = 0) (h : OffsetRow n t) :
    decodeOffset (BitVec.ofNat 22 n) = t :=
  decodeOffset_of_row (by rwa [wordOffset_ofNat hn h4])

end AddressMap
end Sys2Proof.Machine
end

section
/-! PROOFS. When a step stops: the host's accesses and waits as steps, and the script that a step leaves
(20_memory.md rule R71, 40_control.md rule R123). -/

namespace Sys2Proof.Machine

section Stops
variable {s : State}

/-- The engine's step completes (R123). -/
theorem engineStep_completes (w : Word) (s : State) : ∃ t, engineStep w s = .next (complete t) := by
  unfold engineStep
  split
  · exact ⟨_, rfl⟩
  · split
    · exact ⟨_, rfl⟩
    · exact exec_completes _ _

theorem engineTurn_next (s : State) : ∃ t, engineTurn s = .next t := by
  unfold engineTurn
  split
  · obtain ⟨t, ht⟩ := engineStep_completes ‹_› s
    exact ⟨_, ht⟩
  · exact ⟨_, rfl⟩

/-- `i` is a host access of width `width` at `off`. -/
def Input.IsAccess (i : Input) (width : AccessWidth) (off : Offset) : Prop :=
  i = .read width off ∨ ∃ v, i = .write width off v

/-- A turn that is no access goes on. -/
theorem turn_next (s : State) {i : Input} (h : ¬ ∃ width off, i.IsAccess width off) : ∃ t, turn i s = .next t := by
  cases i with
  | read width off => exact absurd ⟨width, off, .inl rfl⟩ h
  | write width off v => exact absurd ⟨width, off, .inr ⟨v, rfl⟩⟩ h
  | wait =>
    rw [turn]
    split
    · exact engineTurn_next s
    · exact ⟨_, rfl⟩
  | waitIrq =>
    rw [turn]
    split
    · exact ⟨_, rfl⟩
    · exact engineTurn_next s
  | engine => exact engineTurn_next (dropTurn s)
  | reset => exact ⟨_, rfl⟩

theorem step_of_script {i : Input} {rest : List Input} (h : s.script = i :: rest) : step s = turn i s := by
  rw [step, nextTurn, h]

theorem dropTurn_of_script {i : Input} {rest : List Input} (h : s.script = i :: rest) :
    dropTurn s = { s with script := rest } := by
  rw [dropTurn, h, List.tail_cons]

/-- An access is made only when it is 32 bits wide and aligned (R71). -/
theorem access_aligned {off : Offset} (perform : State → State) (s : State) (h : off.toNat % 4 = 0) :
    access .word off perform s = .next (perform s) := by
  simp [access, h]

/-- `r` is the refusal of an access of width `width` at `off` (R71). -/
def Forbidden (width : AccessWidth) (off : Offset) (r : Refusal) : Prop :=
  (width ≠ .word ∧ r = .narrowAccess) ∨ (width = .word ∧ off.toNat % 4 ≠ 0 ∧ r = .misalignedAccess)

theorem access_eq_refused_iff (width : AccessWidth) (off : Offset) (perform : State → State) (s : State)
    (r : Refusal) : access width off perform s = .refused r ↔ Forbidden width off r := by
  unfold access Forbidden
  split_ifs with hwidth halign
  · simp [hwidth, eq_comm]
  · simp [not_not.1 hwidth, halign, eq_comm]
  · simp [not_not.1 hwidth, not_not.1 halign]

/-- A turn is refused exactly when it is a forbidden access. -/
theorem turn_eq_refused_iff (i : Input) (s : State) (r : Refusal) :
    turn i s = .refused r ↔ ∃ width off, i.IsAccess width off ∧ Forbidden width off r := by
  by_cases hi : ∃ width off, i.IsAccess width off
  · obtain ⟨width, off, rfl | ⟨v, rfl⟩⟩ := hi
    · simp [turn, access_eq_refused_iff, Input.IsAccess]
    · simp [turn, access_eq_refused_iff, Input.IsAccess]
  · obtain ⟨t, ht⟩ := turn_next s hi
    rw [ht]
    exact iff_of_false nofun fun ⟨width, off, haccess, _⟩ => hi ⟨width, off, haccess⟩

/-- A step is refused exactly at a forbidden access (R71). -/
theorem step_eq_refused_iff (s : State) (r : Refusal) : step s = .refused r ↔
    ∃ width off, (s.script.head? = some (.read width off) ∨ ∃ v, s.script.head? = some (.write width off v)) ∧
      Forbidden width off r := by
  cases hs : s.script with
  | nil =>
    obtain ⟨t, ht⟩ := engineTurn_next s
    rw [step, nextTurn, hs, ht]
    simp
  | cons i rest => simpa [step_of_script hs, Input.IsAccess] using turn_eq_refused_iff i s r

/-- Settles O8: a fault does not exist, and only a forbidden access is refused. -/
theorem stepStopsOnlyAtForbiddenAccesses : Obligations.StepStopsOnlyAtForbiddenAccesses := by
  refine ⟨fun off off' h => ?_, fun s => ⟨nofun, step_eq_refused_iff s⟩⟩
  simp only [decodeOffset, h]

/-- Settles O9. -/
theorem stepPerformsHostAccesses : Obligations.StepPerformsHostAccesses := by
  intro s off v rest halign
  refine ⟨fun hs => ?_, fun hs => ?_, fun hs hidle => ?_, fun hs hirq => ?_⟩
  all_goals rw [step_of_script hs, turn, dropTurn_of_script hs]
  · exact access_aligned _ _ halign
  · exact access_aligned _ _ halign
  · rw [hidle]
    rfl
  · rw [hirq]
    rfl

end Stops

section ConformingRuns
variable {s t : State}

theorem HostWrites.script {off : Offset} {v : Word} (h : HostWrites s off v t) : t.script = s.script := by
  cases h <;> rfl

theorem engineStep_script {w : Word} (h : engineStep w s = .next t) : t.script = s.script := by
  obtain rfl | rfl | ⟨i, -, hi⟩ := engineStep_cases h
  · rfl
  · rfl
  · obtain ⟨-, -, hscript, -⟩ := exec_untouched hi
    exact hscript

theorem turnTaken_script_suffix (s : State) : (turnTaken s).script <:+ s.script := by
  unfold turnTaken
  split
  · next rest hs => exact hs ▸ List.suffix_cons .engine rest
  · exact List.suffix_refl _

/-- A step makes turns of the script, and adds none. -/
theorem step_script_suffix (h : step s = .next t) : t.script <:+ s.script := by
  have hdrop : (dropTurn s).script <:+ s.script := List.tail_suffix _
  obtain ⟨-, w, -, hw⟩ | ⟨-, rfl⟩ | rfl | ⟨off, rest, -, -, rfl⟩ | ⟨off, v, rest, -, -, rfl⟩ | ⟨rest, -, rfl⟩ :=
    step_cases h
  · exact engineStep_script hw ▸ turnTaken_script_suffix s
  · exact turnTaken_script_suffix s
  · exact hdrop
  · exact hdrop
  · exact (hostWrite_cases off v (dropTurn s)).script ▸ hdrop
  · exact hdrop

theorem conforming_of_suffix {p q : List Input} (h : p <:+ q) (hq : conforming q = true) : conforming p = true := by
  rw [conforming, List.all_eq_true] at hq ⊢
  exact fun i hi => hq i (h.subset hi)

/-- The accesses of a conforming script are wide and aligned. -/
theorem conforming_access {p : List Input} (hp : conforming p = true) {width : AccessWidth} {off : Offset}
    (h : p.head? = some (.read width off) ∨ ∃ v, p.head? = some (.write width off v)) :
    width = .word ∧ off.toNat % 4 = 0 := by
  rw [conforming, List.all_eq_true] at hp
  obtain h | ⟨v, h⟩ := h
  · simpa using hp _ (List.mem_of_head? h)
  · simpa using hp _ (List.mem_of_head? h)

/-- A step of a conforming script goes on. -/
theorem step_next_of_conforming (h : conforming s.script = true) : ∃ t, step s = .next t := by
  cases hstep : step s with
  | next t => exact ⟨t, rfl⟩
  | fault f => exact nomatch f
  | refused r =>
    obtain ⟨width, off, haccess, hforbidden⟩ := (step_eq_refused_iff s r).1 hstep
    obtain ⟨rfl, halign⟩ := conforming_access h haccess
    simp [Forbidden, halign] at hforbidden

/-- Settles O10, by induction on the number of steps: what is left of a conforming script conforms. -/
theorem conformingScriptsRunSafely : Obligations.ConformingScriptsRunSafely := by
  intro k
  induction k with
  | zero => exact fun _ _ => trivial
  | succ k ih =>
    intro s h
    obtain ⟨t, ht⟩ := step_next_of_conforming h
    exact ⟨t, ht, ih t (conforming_of_suffix (step_script_suffix ht) h)⟩

end ConformingRuns

end Sys2Proof.Machine
end

section
/-! PROOFS. The host's writes, target by target, and which of them are refused or ignored (20_memory.md rules R74-R82,
R85). -/

namespace Sys2Proof.Machine

section Writes
variable {s : State} {off : Offset} {v : Word}

theorem refuseWrite_eq (e : ErrCode) (off : Offset) (s : State) : refuseWrite e off s = refusal e off s := by
  unfold refuseWrite refusal
  split
  · exact record_of_recorded e _ ‹_›
  · exact record_of_unrecorded e _ (Bool.eq_false_iff.2 ‹_›)

theorem hostWrite_reg {r : Reg} (h : decodeOffset off = .reg r) : hostWrite off v s = writeReg off v s r := by
  rw [hostWrite, h]

theorem hostWrite_freq {i : Nat} (h : decodeOffset off = .freq i) : hostWrite off v s = writeFreq off i v s := by
  rw [hostWrite, h]

theorem hostWrite_pack {i : Nat} (h : decodeOffset off = .pack i) : hostWrite off v s = writePack off i v s := by
  rw [hostWrite, h]

/-- The registers that the host can write (10_state.md rule R23). -/
def Reg.writable (r : Reg) : Bool := r == .cmd || r == .inten || r == .packLen

/-- The targets that the host can write (20_memory.md rules R73, R75). -/
def Target.writable : Target → Bool
  | .reg r => r.writable
  | .freq _ => true
  | .pack _ => true
  | .slist _ _ => false
  | .node _ _ => false
  | .code _ _ => false
  | .out _ => false
  | .unmapped => false

theorem writeReg_of_readOnly {r : Reg} (h : r.writable = false) : writeReg off v s r = s := by
  cases r
  case cmd | inten | packLen => cases h
  all_goals rfl

/-- A write elsewhere is ignored (R74, R75). -/
theorem hostWrite_of_readOnly (h : (decodeOffset off).writable = false) : hostWrite off v s = s := by
  cases hoff : decodeOffset off with
  | reg r => exact (hostWrite_reg hoff).trans (writeReg_of_readOnly (by rwa [hoff] at h))
  | freq i | pack i => simp [hoff, Target.writable] at h
  | slist | node | code | out | unmapped => rw [hostWrite, hoff]

theorem Reg.writable_eq_false_iff (r : Reg) :
    r.writable = false ↔ r.offset ≠ 0x008 ∧ r.offset ≠ 0x018 ∧ r.offset ≠ 0x038 := by
  cases r <;> decide

/-- A write to a register other than CMD, INTEN and PACK_LEN is ignored (R75). -/
theorem hostWrite_readOnly_reg (hreg : wordOffset off < 0x40) (hcmd : wordOffset off ≠ 0x008)
    (hinten : wordOffset off ≠ 0x018) (hlen : wordOffset off ≠ 0x038) : hostWrite off v s = s := by
  obtain ⟨r, hr⟩ := Reg.exists_offset hreg (wordOffset_mod off)
  rw [hr] at hcmd hinten hlen
  rw [hostWrite_reg (decodeOffset_of_row (.reg r hr))]
  exact writeReg_of_readOnly (r.writable_eq_false_iff.2 ⟨hcmd, hinten, hlen⟩)

theorem hostWrite_unmapped (h : unmappedOffset (wordOffset off)) : hostWrite off v s = s :=
  hostWrite_of_readOnly (by rw [decodeOffset_unmapped h]; rfl)

/-- A write into the windows SLIST, NODE, CODE and OUT is ignored (R77-R79, R81). -/
theorem hostWrite_readOnly_window (h : (0x2000 ≤ off.toNat ∧ off.toNat < 0x3000) ∨
    (0x4000 ≤ off.toNat ∧ off.toNat < 0xC000) ∨ (0x200000 ≤ off.toNat ∧ off.toNat < 0x300000)) :
    hostWrite off v s = s := by
  have hword : wordOffset off = off.toNat / 4 * 4 := rfl
  obtain ⟨t, hoff, hrow⟩ := exists_row off
  apply hostWrite_of_readOnly
  rw [hoff]
  cases hrow with
  | reg r hr =>
    have := r.offset_lt
    omega
  | freq | pack => omega
  | slist | node | code | out | unmapped => rfl

end Writes

section WriteFreq
variable {s : State} {off : Offset} {i : Nat} {v : Word}

theorem writeFreq_reserved (hi : s.cfg.nsym ≤ i) : writeFreq off i v s = s := if_pos hi

theorem writeFreq_busy (hi : i < s.cfg.nsym) (hbusy : busy s = true) :
    writeFreq off i v s = refusal .busyViolation off s := by
  rw [writeFreq, if_neg (not_le.2 hi), if_pos hbusy, refuseWrite_eq]

/-- A write while idle is refused outside OPEN, and where the value does not fit the counter (R76). -/
theorem writeFreq_refused (hi : i < s.cfg.nsym) (hidle : busy s = false)
    (h : s.phase ≠ .opened ∨ 2 ^ s.cfg.cw ≤ v.toNat) : writeFreq off i v s = refusal .access off s := by
  rw [writeFreq, if_neg (not_le.2 hi), if_neg (by simp [hidle]), refuseWrite_eq]
  split
  · rfl
  · exact if_pos (h.resolve_left ‹_›)

theorem writeFreq_stored (hi : i < s.cfg.nsym) (hidle : busy s = false) (hp : s.phase = .opened)
    (hv : v.toNat < 2 ^ s.cfg.cw) : writeFreq off i v s = { s with freq := Memory.set 0 s.freq i v } := by
  rw [writeFreq, if_neg (not_le.2 hi), if_neg (by simp [hidle]), if_neg (by simp [hp]), if_neg (not_le.2 hv)]

end WriteFreq

section WritePack
variable {s : State} {off : Offset} {i : Nat} {v : Word}

theorem writePack_reserved (hi : packDepth s.cfg ≤ i) : writePack off i v s = s := if_pos hi

theorem writePack_busy (hi : i < packDepth s.cfg) (hbusy : busy s = true) :
    writePack off i v s = refusal .busyViolation off s := by
  rw [writePack, if_neg (not_le.2 hi), if_pos hbusy, refuseWrite_eq]

theorem writePack_refused (hi : i < packDepth s.cfg) (hidle : busy s = false) (henc : s.enc = .active) :
    writePack off i v s = refusal .access off s := by
  rw [writePack, if_neg (not_le.2 hi), if_neg (by simp [hidle]), if_pos henc, refuseWrite_eq]

theorem writePack_stored (hi : i < packDepth s.cfg) (hidle : busy s = false) (henc : s.enc = .idle) :
    writePack off i v s = { s with pack := Memory.put s.pack i (v.extractLsb' 0 8) } := by
  rw [writePack, if_neg (not_le.2 hi), if_neg (by simp [hidle]), if_neg (by simp [henc])]

theorem writePackLen_busy (hbusy : busy s = true) : writePackLen off v s = refusal .busyViolation off s := by
  rw [writePackLen, if_pos hbusy, refuseWrite_eq]

/-- A PACK_LEN write while idle is refused while an encode is open, and where the value is above PACK_DEPTH (R80). -/
theorem writePackLen_refused (hidle : busy s = false) (h : s.enc = .active ∨ packDepth s.cfg < v.toNat) :
    writePackLen off v s = refusal .access off s := by
  rw [writePackLen, if_neg (by simp [hidle]), refuseWrite_eq]
  split
  · rfl
  · exact if_pos (h.resolve_left ‹_›)

theorem writePackLen_stored (hidle : busy s = false) (henc : s.enc = .idle) (hv : v.toNat ≤ packDepth s.cfg) :
    writePackLen off v s = { s with packLen := v } := by
  rw [writePackLen, if_neg (by simp [hidle]), if_neg (by simp [henc]), if_neg (not_lt.2 hv)]

theorem packDepth_le {c : Config} (h : c.wf = true) : packDepth c ≤ 2 ^ 18 :=
  Nat.pow_le_pow_right Nat.two_pos (log2_le_of_wf h).1

end WritePack

section BusyWrites
variable {s : State} {off : Offset} {v : Word}

theorem writeCmd_busy (hbusy : busy s = true) : writeCmd off v s = refusal .busyViolation off s := by
  rw [writeCmd, if_pos hbusy, refuseWrite_eq]

/-- The word offsets that a busy HFS refuses to have written: CMD, PACK_LEN, and the slots that FREQ and PACK have
(R85). -/
def guardedOffset (c : Config) (a : Nat) : Prop :=
  a = 0x008 ∨ a = 0x038 ∨ (0x1000 ≤ a ∧ a < 0x1000 + 4 * c.nsym) ∨ (0x100000 ≤ a ∧ a < 0x100000 + 4 * packDepth c)

theorem hostWrite_guarded (hwf : s.cfg.wf = true) (hbusy : busy s = true)
    (h : guardedOffset s.cfg (wordOffset off)) : hostWrite off v s = refusal .busyViolation off s := by
  have h4 := wordOffset_mod off
  have hnsym := nsym_of_wf hwf
  have hdepth := packDepth_le hwf
  obtain h | h | ⟨hlo, hhi⟩ | ⟨hlo, hhi⟩ := h
  · rw [hostWrite_reg (decodeOffset_of_row (.reg .cmd h))]
    exact writeCmd_busy hbusy
  · rw [hostWrite_reg (decodeOffset_of_row (.reg .packLen h))]
    exact writePackLen_busy hbusy
  · have hrow : OffsetRow (wordOffset off) (.freq ((wordOffset off - 0x1000) / 4)) := .freq (by omega) (by omega)
    rw [hostWrite_freq (decodeOffset_of_row hrow), writeFreq_busy (by omega) hbusy]
  · have hrow : OffsetRow (wordOffset off) (.pack ((wordOffset off - 0x100000) / 4)) := .pack (by omega) (by omega)
    rw [hostWrite_pack (decodeOffset_of_row hrow), writePack_busy (by omega) hbusy]

/-- A write elsewhere than INTEN and the guarded offsets is ignored, busy or not (R85). -/
theorem hostWrite_unguarded (h : ¬ guardedOffset s.cfg (wordOffset off)) (hinten : wordOffset off ≠ 0x018) :
    hostWrite off v s = s := by
  simp only [guardedOffset, not_or] at h
  obtain ⟨hcmd, hlen, hfreq, hpack⟩ := h
  obtain ⟨t, hoff, hrow⟩ := exists_row off
  cases hrow with
  | reg r hr => exact hostWrite_readOnly_reg (hr ▸ r.offset_lt) hcmd hinten hlen
  | freq hi hr => rw [hostWrite_freq hoff, writeFreq_reserved (by omega)]
  | pack hi hr => rw [hostWrite_pack hoff, writePack_reserved (by omega)]
  | slist | node | code | out | unmapped => exact hostWrite_of_readOnly (by rw [hoff]; rfl)

/-- Settles O13, by the offsets that a busy HFS guards. -/
theorem busyWritesAreRefused : Obligations.BusyWritesAreRefused := by
  intro s off v hwf hbusy a guarded
  refine ⟨hostWrite_guarded hwf hbusy, fun hinten => ?_, hostWrite_unguarded⟩
  rw [hostWrite_reg (decodeOffset_of_row (.reg .inten hinten))]
  rfl

end BusyWrites

end Sys2Proof.Machine
end

section
/-! PROOFS. The host's reads, and the windows as the host reads and writes them (20_memory.md rules R74-R83, R86). -/

namespace Sys2Proof.Machine

section Reads
variable {s : State} {off : Offset}

/-- The control registers lie below NDIST (R86, 10_state.md rule R23). -/
theorem Reg.readableBusy_iff (r : Reg) : r.readableBusy = true ↔ r.offset < 0x01C := by
  cases r <;> decide

/-- A read is unspecified at a register other than the seven control registers, and at every window slot (R86). -/
theorem unspecifiedRead_iff (s : State) (off : Offset) : unspecifiedRead s (decodeOffset off) = true ↔
    busy s = true ∧ 0x01C ≤ wordOffset off ∧ ¬ unmappedOffset (wordOffset off) := by
  unfold unspecifiedRead
  rw [Bool.and_eq_true]
  refine and_congr_right fun _ => ?_
  obtain ⟨t, hoff, hrow⟩ := exists_row off
  rw [hoff]
  cases hrow with
  | reg r h =>
    have hmapped : ¬ unmappedOffset r.offset := by
      have := r.offset_lt
      omega
    rw [h, Bool.not_eq_true', ← Bool.not_eq_true, r.readableBusy_iff, not_lt]
    exact (and_iff_left hmapped).symm
  | unmapped h => simp [h]
  | freq | slist | node | code | pack | out => exact iff_of_true rfl (by omega)

theorem specifiedRead
    (h : busy s = false ∨ wordOffset off < 0x01C ∨ unmappedOffset (wordOffset off)) :
    unspecifiedRead s (decodeOffset off) = false := by
  rw [← Bool.not_eq_true, unspecifiedRead_iff]
  rintro ⟨hbusy, hlow, hmapped⟩
  obtain hidle | hlt | hun := h
  · simp [hidle] at hbusy
  · omega
  · exact hmapped hun

theorem memRead_specified {t : Target} (hoff : decodeOffset off = t)
    (h : unspecifiedRead s (decodeOffset off) = false) : memRead s off = readTarget s t := by
  subst hoff
  simp [memRead, h]

/-- An unmapped offset reads 0 busy or not (R74). -/
theorem memRead_unmapped (h : unmappedOffset (wordOffset off)) : memRead s off = 0 :=
  memRead_specified (decodeOffset_unmapped h) (specifiedRead (.inr (.inr h)))

theorem readTarget_hostRead (off : Offset) (s : State) (t : Target) : readTarget (hostRead off s) t = readTarget s t := by
  cases t with
  | reg r => cases r <;> rfl
  | _ => rfl

end Reads

section Pending
variable (s : State) (off : Offset) (v : Word)

theorem writeFreq_pending (i : Nat) : (writeFreq off i v s).pending = s.pending := by
  unfold writeFreq
  split_ifs <;> rfl

theorem writePack_pending (i : Nat) : (writePack off i v s).pending = s.pending := by
  unfold writePack
  split_ifs <;> rfl

theorem writePackLen_pending : (writePackLen off v s).pending = s.pending := by
  unfold writePackLen
  split_ifs <;> rfl

/-- Only a CMD write starts work (R83). -/
theorem hostWrite_pending (h : wordOffset off ≠ 0x008) : (hostWrite off v s).pending = s.pending := by
  obtain ⟨t, hoff, hrow⟩ := exists_row off
  cases hrow with
  | reg r hr =>
    rw [hostWrite_reg hoff]
    cases r
    case cmd => exact absurd hr h
    case packLen => exact writePackLen_pending s off v
    all_goals rfl
  | freq => rw [hostWrite_freq hoff, writeFreq_pending]
  | pack => rw [hostWrite_pack hoff, writePack_pending]
  | slist | node | code | out | unmapped => rw [hostWrite_of_readOnly (by rw [hoff]; rfl)]

end Pending

/-- Settles O14: a read notes its value and counts its draw. -/
theorem readsHaveNoSideEffect : Obligations.ReadsHaveNoSideEffect := by
  intro s off
  refine ⟨rfl, fun off' h => ?_, fun v hcmd => hostWrite_pending s off v hcmd⟩
  have hread : unspecifiedRead (hostRead off s) (decodeOffset off') = false := specifiedRead h
  rw [memRead_specified rfl hread, memRead_specified rfl (specifiedRead h), readTarget_hostRead]

/-- Settles O23. -/
theorem readOnlyAndUnmappedWritesAreIgnored : Obligations.ReadOnlyAndUnmappedWritesAreIgnored := by
  intro s off v a
  exact ⟨fun h => ⟨hostWrite_unmapped h, memRead_unmapped h⟩, hostWrite_readOnly_reg⟩

section BusyReads

/-- Appending a 1 sets the last bit of what appending a 0 gives. -/
theorem append_true {n : Nat} (x : BitVec n) : x ++ BitVec.ofBool true = (x ++ BitVec.ofBool false) ||| 1 := by
  ext k hk
  cases k <;> simp [BitVec.getElem_append]

/-- STATUS while busy is STATUS while idle with BUSY set (R25, R26). -/
theorem statusWord_busy {s : State} (hbusy : busy s = true) :
    statusWord s = statusWord { s with pending := none } ||| 1 := by
  rw [statusWord, hbusy]
  exact append_true _

theorem readReg_busy {s : State} (hbusy : busy s = true) (r : Reg) :
    readReg s r = readReg { s with pending := none } r ||| if r.offset = 0x00C then 1 else 0 := by
  cases r
  case status => exact statusWord_busy hbusy
  all_goals exact BitVec.or_zero.symm

/-- Settles O15. -/
theorem busyReadsAreControlRegistersOrDraws : Obligations.BusyReadsAreControlRegistersOrDraws := by
  intro s off hbusy
  refine ⟨fun hlt => ?_, memRead_unmapped, fun hlow hmapped => ?_⟩
  · obtain ⟨r, hr⟩ := Reg.exists_offset (a := wordOffset off) (by omega) (wordOffset_mod off)
    have hoff := decodeOffset_of_row (.reg r hr)
    have hcontrol := r.readableBusy_iff.2 (hr ▸ hlt)
    rw [memRead_control s hoff hcontrol, memRead_control _ hoff hcontrol, hr]
    exact readReg_busy hbusy r
  · have hdraw := (unspecifiedRead_iff s off).2 ⟨hbusy, hlow, hmapped⟩
    exact ⟨if_pos hdraw, if_pos hdraw⟩

end BusyReads

end Sys2Proof.Machine
end

section
/-! PROOFS. The windows FREQ, SLIST, NODE, CODE, PACK and OUT, slot by slot (20_memory.md rules R76-R81). -/

namespace Sys2Proof.Machine

section Windows
variable {s : State}

/-- Every target reads its value while idle. -/
theorem memRead_ofNat (hidle : busy s = false) {n : Nat} {t : Target} (hn : n < 2 ^ 22) (h4 : n % 4 = 0)
    (h : OffsetRow n t) : memRead s (BitVec.ofNat 22 n) = readTarget s t :=
  memRead_specified (decodeOffset_ofNat hn h4 h) (specifiedRead (.inl hidle))

theorem decodeOffset_freq {i : Nat} (hi : i < 256) : decodeOffset (BitVec.ofNat 22 (0x1000 + 4 * i)) = .freq i :=
  decodeOffset_ofNat (by omega) (by omega) (.freq hi rfl)

theorem decodeOffset_pack {i : Nat} (hi : i < 2 ^ 18) : decodeOffset (BitVec.ofNat 22 (0x100000 + 4 * i)) = .pack i :=
  decodeOffset_ofNat (by omega) (by omega) (.pack hi rfl)

/-- Settles O20, outcome by outcome of the FREQ write. -/
theorem freqWindowReadsAndWrites : Obligations.FreqWindowReadsAndWrites := by
  intro s i v hwf hi off
  have hoff : decodeOffset off = .freq i := decodeOffset_freq hi
  rw [hostWrite_freq hoff]
  refine ⟨fun hidle => memRead_specified hoff (specifiedRead (.inl hidle)), writeFreq_reserved, writeFreq_busy,
    fun hi hidle hp => writeFreq_refused hi hidle (.inl hp), fun hi hidle hv => writeFreq_refused hi hidle (.inr hv),
    fun hi hidle hp hv => ?_⟩
  rw [writeFreq_stored hi hidle hp hv]
  exact ⟨rfl, Memory.get_set_same 0 s.freq i v, fun j hj => Memory.get_set_other 0 s.freq v hj⟩

/-- Settles O21, outcome by outcome of the PACK write and of the PACK_LEN write. -/
theorem packWindowReadsAndWrites : Obligations.PackWindowReadsAndWrites := by
  intro s v hwf
  have hlen : hostWrite 0x038 v s = writePackLen 0x038 v s := rfl
  refine ⟨?_, ?_⟩
  · intro i hi off
    have hoff : decodeOffset off = .pack i := decodeOffset_pack hi
    rw [hostWrite_pack hoff]
    refine ⟨fun hidle => memRead_specified hoff (specifiedRead (.inl hidle)), writePack_reserved, writePack_busy,
      writePack_refused, fun hi hidle henc => ?_⟩
    rw [writePack_stored hi hidle henc]
    refine ⟨rfl, ?_, fun j hj => ?_⟩
    · simp only [packAt, Memory.find_put_same, Option.getD_some]
    · simp only [packAt, Memory.find_put_other s.pack _ hj]
  · rw [hlen]
    exact ⟨writePackLen_busy, fun hidle henc => writePackLen_refused hidle (.inl henc),
      fun hidle hv => writePackLen_refused hidle (.inr hv), writePackLen_stored⟩

end Windows

section EntryWords

/-- The fields of the first word of a NODE or CODE entry: a flag, 23 reserved bits, and a byte (R78, R79). -/
theorem flagByteWord_fields (b : Bool) (x : Byte) :
    (BitVec.ofBool b ++ (0 : BitVec 23) ++ x).getLsbD 31 = b ∧
    (BitVec.ofBool b ++ (0 : BitVec 23) ++ x).extractLsb' 8 23 = 0 ∧
    (BitVec.ofBool b ++ (0 : BitVec 23) ++ x).extractLsb' 0 8 = x := by
  refine ⟨?_, ?_, ?_⟩
  all_goals
    simp (disch := decide) only [BitVec.extractLsb'_append_eq_of_add_le, BitVec.extractLsb'_append_eq_of_le,
      BitVec.getLsbD_append]
    simp

/-- Word `k + 1` of a CODE entry is V_k (R79). -/
theorem CodeEntry.word_succ_getLsbD (e : CodeEntry) {k b : Nat} (hk : k < 8) (hb : b < 32) :
    (e.word (k + 1)).getLsbD b = e.v.getLsbD (32 * k + b) := by
  rw [CodeEntry.word, if_neg (Nat.succ_ne_zero k), if_pos (by omega)]
  simp [hb]

theorem CodeEntry.word_trailing (e : CodeEntry) {k : Nat} (hk : 9 ≤ k) : e.word k = 0 := by
  rw [CodeEntry.word, if_neg (by omega), if_neg (by omega)]

theorem codeEntry_v_getLsbD (c : Config) (p : List Bool) {j : Nat} (hj : maxLength c ≤ j) :
    (codeEntry c p).v.getLsbD j = false := by
  have hbit : (bitsValue p % 2 ^ maxLength c).testBit j = false := by simp [Nat.testBit_mod_two_pow, hj]
  rw [codeEntry, BitVec.getLsbD_ofNat, hbit, Bool.and_false]

/-- Bits of CODE at and above MAXLEN are 0 (R47). -/
theorem Inv.codeAt_v_getLsbD {s : State} (h : Inv s) (i : Nat) {j : Nat} (hj : maxLength s.cfg ≤ j) :
    (codeAt s i).v.getLsbD j = false := by
  have hzero : CodeEntry.zero.v.getLsbD j = false := BitVec.getLsbD_zero
  by_cases hp : s.phase = .coded
  · obtain ⟨e, -, -, hcode⟩ | ⟨-, hcode⟩ := h.codeAt_cases hp i
    · rw [hcode, codeEntry_v_getLsbD s.cfg e.2 hj]
    · rw [hcode, hzero]
  · obtain ⟨-, hcode⟩ := h.pipeline.uncoded hp
    rw [codeAt, hcode]
    exact hzero

end EntryWords

/-- Settles O22, window by window. -/
theorem readOnlyWindowsShowTheMemories : Obligations.ReadOnlyWindowsShowTheMemories := by
  intro s hwf hidle
  refine ⟨?_, ?_, ?_, fun i hi => memRead_ofNat hidle (by omega) (by omega) (.out hi rfl),
    fun off v => hostWrite_readOnly_window⟩
  · intro i hi at' e
    have hat : ∀ k < 4, at' k = if i < s.cfg.nsym then e.word k else 0 := fun k hk =>
      memRead_ofNat hidle (by omega) (by omega) (.slist hi hk rfl)
    split
    · next hlt =>
      simp only [if_pos hlt] at hat
      exact ⟨hat 0 (by decide), hat 1 (by decide), hat 2 (by decide), hat 3 (by decide)⟩
    · next hge => simpa only [if_neg hge] using hat
  · intro j hj at' n
    have hat : ∀ k < 8, at' k = if j < nodeDepth s.cfg then n.word k else 0 := fun k hk =>
      memRead_ofNat hidle (by omega) (by omega) (.node hj hk rfl)
    split
    · next hlt =>
      simp only [if_pos hlt] at hat
      obtain ⟨hleaf, hrsv, hsym⟩ := flagByteWord_fields n.leaf n.sym
      rw [hat 0 (by decide)]
      exact ⟨hleaf, hrsv, hsym, hat 1 (by decide), hat 2 (by decide), hat 3 (by decide), hat 4 (by decide),
        hat 5 (by decide), hat 6 (by decide), hat 7 (by decide)⟩
    · next hge => simpa only [if_neg hge] using hat
  · intro i hi at' e
    have hat : ∀ k < 16, at' k = if i < s.cfg.nsym then e.word k else 0 := fun k hk =>
      memRead_ofNat hidle (by omega) (by omega) (.code hi hk rfl)
    split
    · next hlt =>
      simp only [if_pos hlt] at hat
      have hbit : ∀ k < 8, ∀ b < 32, (at' (k + 1)).getLsbD b = e.v.getLsbD (32 * k + b) := fun k hk b hb => by
        rw [hat (k + 1) (by omega), e.word_succ_getLsbD hk hb]
      obtain ⟨hvalid, hrsv, hlen⟩ := flagByteWord_fields e.valid e.len
      rw [hat 0 (by decide)]
      refine ⟨hvalid, hrsv, hlen, hbit, fun hinv k hk b hb hhigh => ?_, fun k hk hk' => ?_⟩
      · rw [hbit k hk b hb]
        exact hinv.codeAt_v_getLsbD i hhigh
      · rw [hat k hk', e.word_trailing hk]
    · next hge => simpa only [if_neg hge] using hat

end Sys2Proof.Machine
end

section
/-! PROOFS. The encoding: the decoder by the fields of the word, and the opcode map by match and mask (30_encoding.md
rules R100-R108). -/

namespace Sys2Proof

section Fields

/-- The three fields make up the word (R100). -/
theorem word_eq_iff_fields {w w' : Word} :
    w = w' ↔ opField w = opField w' ∧ rsvField w = rsvField w' ∧ symField w = symField w' := by
  have fields : ∀ x : Word, opField x ++ (rsvField x ++ symField x) = x := fun x => by
    have hlow : rsvField x ++ symField x = x.extractLsb' 0 24 :=
      BitVec.extractLsb'_append_extractLsb'_eq_extractLsb' rfl
    rw [hlow]
    exact BitVec.extractLsb'_append_extractLsb'
  constructor
  · rintro rfl
    exact ⟨rfl, rfl, rfl⟩
  · rintro ⟨hop, hrsv, hsym⟩
    rw [← fields w, ← fields w', hop, hrsv, hsym]

/-- The fields of the encoded word, for every command (R100, R106). -/
theorem encode_fields (i : Instr) : Laws.EncodedFields.Statement i :=
  ⟨Laws.opField_word _ _, Laws.rsvField_word _ _, Laws.symField_word _ _⟩

theorem plainCommand_eq_some_iff {sym : Byte} {i j : Instr} : plainCommand sym i = some j ↔ sym = 0 ∧ i = j := by
  simp [plainCommand]

/-- A word decodes to a command exactly when its fields are the command's (R101, R103, R108). -/
theorem decodeWord_eq_some_iff {w : Word} {i : Instr} :
    decodeWord w = some i ↔ opField w = i.mnemonic.op ∧ rsvField w = 0 ∧ symField w = i.symOperand := by
  constructor
  · intro h
    unfold decodeWord at h
    split at h
    · cases h
    · next hrsv =>
      split at h
      case h_4 hop | h_9 hop =>
        cases h
        exact ⟨BitVec.eq_of_toNat_eq hop, not_not.1 hrsv, rfl⟩
      case h_12 => cases h
      all_goals
        next hop =>
        obtain ⟨hsym, rfl⟩ := plainCommand_eq_some_iff.1 h
        exact ⟨BitVec.eq_of_toNat_eq hop, not_not.1 hrsv, hsym⟩
  · rintro ⟨hop, hrsv, hsym⟩
    rw [decodeWord, hrsv, hop, hsym]
    cases i <;> rfl

/-- Settles O1: the encoded word has the command's fields. -/
theorem encodedCommandsDecodeToThemselves : Obligations.EncodedCommandsDecodeToThemselves :=
  fun i => decodeWord_eq_some_iff.2 (encode_fields i)

/-- Settles O2: the word has the fields of the encoding of what it decodes to. -/
theorem decodedWordsEncodeToThemselves : Obligations.DecodedWordsEncodeToThemselves := by
  intro w i h
  obtain ⟨hop, hrsv, hsym⟩ := decodeWord_eq_some_iff.1 h
  obtain ⟨hop', hrsv', hsym'⟩ := encode_fields i
  exact word_eq_iff_fields.2 ⟨hop'.trans hop.symm, hrsv'.trans hrsv.symm, hsym'.trans hsym.symm⟩

/-- Settles O4: the legal words are encodings, and each illegal word is outside the map (R104). -/
theorem specWordsDecode : Obligations.SpecWordsDecode :=
  have legal := encodedCommandsDecodeToThemselves
  ⟨legal .nop, legal (.count 0x61), legal .build, legal .gencode, legal (.encSym 0x7A), legal .decode,
    by decide, by decide, by decide⟩

end Fields

section OpcodeMap

/-- The row of a mnemonic: `match` is its OP with RSV and SYM 0, and `mask` leaves SYM out where it is the operand
(R101). -/
def Mnemonic.row (m : Mnemonic) : OpcodeRow where
  mnemonic := m
  pattern := m.op ++ (0 : BitVec 16) ++ (0 : Byte)
  mask := if m.takesSymbol then 0xFFFFFF00 else 0xFFFFFFFF

theorem Mnemonic.row_mem_opcodeMap (m : Mnemonic) : m.row ∈ opcodeMap := by
  cases m <;> decide

/-- The opcode map has no other rows. -/
theorem eq_row_of_mem_opcodeMap : ∀ r ∈ opcodeMap, r = r.mnemonic.row := by
  decide

@[simp] theorem Mnemonic.command_mnemonic (m : Mnemonic) (sym : Byte) : (m.command sym).mnemonic = m := by
  cases m <;> rfl

@[simp] theorem Mnemonic.command_symOperand (m : Mnemonic) (sym : Byte) :
    (m.command sym).symOperand = if m.takesSymbol then sym else 0 := by
  cases m <;> rfl

/-- A command is named by its mnemonic and its operand. -/
theorem Instr.command_eq (i : Instr) : i.mnemonic.command i.symOperand = i := by
  cases i <;> rfl

/-- The fields of a mask: OP and RSV are compared, and SYM where it is no operand. -/
theorem Mnemonic.row_mask_fields (m : Mnemonic) : opField m.row.mask = BitVec.allOnes 8 ∧
    rsvField m.row.mask = BitVec.allOnes 16 ∧
    symField m.row.mask = if m.takesSymbol then 0 else BitVec.allOnes 8 := by
  cases m <;> decide

/-- The fields of a masked word are the masked fields. -/
theorem and_fields (w mask : Word) : opField (w &&& mask) = opField w &&& opField mask ∧
    rsvField (w &&& mask) = rsvField w &&& rsvField mask ∧ symField (w &&& mask) = symField w &&& symField mask :=
  ⟨BitVec.extractLsb'_and, BitVec.extractLsb'_and, BitVec.extractLsb'_and⟩

/-- Selecting a row, field by field (R101). -/
theorem Mnemonic.row_selects_iff (m : Mnemonic) (w : Word) : m.row.selects w = true ↔
    opField w = m.op ∧ rsvField w = 0 ∧ symField w = if m.takesSymbol then symField w else 0 := by
  obtain ⟨hop, hrsv, hsym⟩ := and_fields w m.row.mask
  obtain ⟨hopMask, hrsvMask, hsymMask⟩ := m.row_mask_fields
  rw [hopMask, BitVec.and_allOnes] at hop
  rw [hrsvMask, BitVec.and_allOnes] at hrsv
  have hoperand : symField (w &&& m.row.mask) = 0 ↔ symField w = if m.takesSymbol then symField w else 0 := by
    rw [hsym, hsymMask]
    split
    · simp
    · rw [BitVec.and_allOnes]
  rw [OpcodeRow.selects, beq_iff_eq, word_eq_iff_fields, ← hoperand, hop, hrsv, row, Laws.opField_word,
    Laws.rsvField_word, Laws.symField_word]

/-- A word selects a row of the map exactly when it decodes to the row's command with the operand it carries (R108). -/
theorem selects_iff_decodeWord {r : OpcodeRow} (hr : r ∈ opcodeMap) (w : Word) :
    r.selects w = true ↔ decodeWord w = some (r.mnemonic.command (symField w)) := by
  rw [decodeWord_eq_some_iff, Mnemonic.command_mnemonic, Mnemonic.command_symOperand, ← Mnemonic.row_selects_iff,
    ← eq_row_of_mem_opcodeMap r hr]

/-- Settles O3: to select a row is to decode to its command, so two rows that select one word have one mnemonic, and a
word that decodes selects its mnemonic's row. -/
theorem decoderFollowsTheOpcodeMap : Obligations.DecoderFollowsTheOpcodeMap := by
  refine fun w => ⟨fun r hr h => ?_, fun h => ?_⟩
  · rw [selects_iff_decodeWord hr] at h
    refine ⟨h, ?_, fun r' hr' h' => ?_⟩
    · simpa using (decodeWord_eq_some_iff.1 h).1
    · rw [selects_iff_decodeWord hr', h, Option.some_inj] at h'
      have hmnemonic : r'.mnemonic = r.mnemonic := by simpa using (congrArg Instr.mnemonic h').symm
      rw [eq_row_of_mem_opcodeMap r' hr', eq_row_of_mem_opcodeMap r hr, hmnemonic]
  · rw [Option.eq_none_iff_forall_ne_some]
    intro i hi
    obtain ⟨-, -, hsym⟩ := decodeWord_eq_some_iff.1 hi
    have hselects : i.mnemonic.row.selects w = true := by
      rw [selects_iff_decodeWord i.mnemonic.row_mem_opcodeMap, hi, hsym]
      exact congrArg some i.command_eq.symm
    rw [h _ i.mnemonic.row_mem_opcodeMap] at hselects
    cases hselects

end OpcodeMap

end Sys2Proof
end

section
/-! PROOFS. A command line of a host program: its CMD write, its command and the end of its WAIT (30_encoding.md
rule R107). -/

namespace Sys2Proof.Machine

section HostPrograms
variable {s t : State}

/-- An accepted CMD write issues the word (40_control.md rule R120). -/
theorem hostWrite_cmd (w : Word) (h : busy s = false) : hostWrite 0x008 w s = issue w s := by
  rw [hostWrite_reg (r := .cmd) (by decide)]
  simp [writeReg, writeCmd, h]

/-- The first step of a command line issues its word (R107). -/
theorem step_of_command {i : Instr} {rest : List Input} (hidle : busy s = false) (hs : s.script = command i ++ rest) :
    step s = .next (issue (encode i) { s with script := .wait :: rest }) := by
  rw [(stepPerformsHostAccesses s 0x008 (encode i) (.wait :: rest) (by decide)).1 hs]
  exact congrArg Host.Outcome.next (hostWrite_cmd _ hidle)

/-- The second step of a command line executes the command (R107, R121). -/
theorem step_of_issued (i : Instr) {rest : List Input} (herr : s.err = false) (hs : s.script = .wait :: rest) :
    step (issue (encode i) s) = exec i (issue (encode i) s) := by
  have hturn : enginesTurn (issue (encode i) s) = true := by simp [enginesTurn, issue, hs]
  rw [step_of_pending hturn rfl, turnTaken, show (issue (encode i) s).script = .wait :: rest from hs]
  exact engineStep_of_open (.inl herr) (encodedCommandsDecodeToThemselves i)

/-- A program that is one raw write has no turn left after it. -/
theorem script_of_wr {off : Offset} {v : Word} (hs : s.script = wr off v) (h : step s = .next t) : t.script = [] := by
  rw [step_of_script hs, turn, access, dropTurn_of_script hs] at h
  split_ifs at h
  cases h
  exact (hostWrite_cases off v { s with script := [] }).script

/-- Settles O58: every command completes, so the WAIT after it is over, and the program with it. -/
theorem commandLinesRunTheirCommands : Obligations.CommandLinesRunTheirCommands := by
  refine ⟨fun s i rest hidle herr hs => ?_, fun s t off v hs => ⟨?_, fun h => ?_⟩⟩
  · have hrun := step_of_issued (s := { s with script := .wait :: rest }) i herr rfl
    obtain ⟨u, hu⟩ := exec_completes i (issue (encode i) { s with script := .wait :: rest })
    obtain ⟨-, -, hscript, -⟩ := exec_untouched hu
    have hwait : step (complete u) = .next { complete u with script := rest } :=
      (stepPerformsHostAccesses (complete u) 0 0 rest rfl).2.2.1 hscript rfl
    refine ⟨_, complete u, step_of_command hidle hs, hrun.trans hu, hu, hwait, rfl, ?_, rfl⟩
    rw [State.ended, hscript]
    rfl
  · rw [State.ended, hs]
    rfl
  · rw [State.ended, script_of_wr hs h]
    rfl

end HostPrograms

end Sys2Proof.Machine
end

section
/-! PROOFS. The engine's turn with and without a pending command, and the control commands NOP, ACK and CLEAR
(40_control.md rules R120-R126, 70_reset_and_hazards.md rule R262). -/

namespace Sys2Proof.Machine

section EngineTurns
variable {s : State} {w : Word}

/-- With an error recorded the gate drops the word: it completes with no other effect (R121). -/
theorem engineStep_of_dropped (herr : s.err = true) (hgate : passesGate w = false) :
    engineStep w s = .next (completed s) := by
  rw [engineStep, if_pos ⟨herr, hgate⟩, complete_eq_completed]

/-- An illegal word raises ILLEGAL_COMMAND with the word as its information (R121). -/
theorem engineStep_of_illegal (herr : s.err = false) (hw : decodeWord w = none) :
    engineStep w s = .next (completed (withError .illegalCommand w s)) := by
  have hopen : ¬ (s.err = true ∧ passesGate w = false) := by simp [herr]
  rw [engineStep, if_neg hopen, hw, raise_eq, record_of_unrecorded _ _ herr, complete_eq_completed]

@[simp] theorem turnTaken_err (s : State) : (turnTaken s).err = s.err := by
  rw [turnTaken_eq]

theorem engineTurn_of_idle (hidle : s.pending = none) : engineTurn s = .next s := by
  rw [engineTurn, hidle]

theorem withScript_of_script {p : List Input} (h : s.script = p) : s.withScript p = s := by
  cases h
  rfl

/-- The engine's turn with nothing pending: an `engine` turn and a wait are taken, a wait for an IRQ goes on
(log entry 5). -/
theorem step_of_idle (hturn : enginesTurn s = true) (hidle : s.pending = none) :
    step s = .next { s with script := if s.script.head? = some .waitIrq then s.script else s.script.tail } := by
  cases hs : s.script with
  | nil =>
    rw [step, nextTurn, hs]
    exact (engineTurn_of_idle hidle).trans (congrArg _ (withScript_of_script hs).symm)
  | cons i rest =>
    rw [step_of_script hs]
    cases i with
    | engine =>
      rw [turn, dropTurn_of_script hs]
      exact engineTurn_of_idle hidle
    | wait =>
      have hbusy : ¬ busy s = true := by simp [busy, hidle]
      rw [turn, if_neg hbusy, dropTurn_of_script hs]
      rfl
    | waitIrq =>
      have hirq : ¬ irq s = true := by simpa [enginesTurn, hs] using hturn
      rw [turn, if_neg hirq]
      exact (engineTurn_of_idle hidle).trans (congrArg _ (withScript_of_script hs).symm)
    | read | write | reset => simp [enginesTurn, hs] at hturn

/-- Settles O6: the gate, the illegal word and the dispatch are `engineStep`'s branches, and a turn without a pending
command is `step_of_idle`. -/
theorem engineStepGatesThenRuns : Obligations.EngineStepGatesThenRuns := by
  refine fun s hturn => ⟨fun w hw => ⟨fun herr hnop hclear hack => ?_, fun herr hillegal => ?_, fun i hgate hi => ?_⟩,
    step_of_idle hturn⟩
  · have hgate : passesGate w = false := by
      rw [Bool.eq_false_iff, ne_eq, passesGate_iff]
      exact fun h => h.elim hnop (·.elim hclear hack)
    rw [step_of_pending hturn hw, engineStep_of_dropped (by rwa [turnTaken_err]) hgate]
  · rw [step_of_pending hturn hw, engineStep_of_illegal (by rwa [turnTaken_err]) hillegal]
  · exact stepRunsTheDecodedCommand.1 s w i hturn hw hi hgate

/-- Settles O7: the step is the engine's step of the word, which completes and leaves the script. -/
theorem everyPendingCommandCompletes : Obligations.EveryPendingCommandCompletes := by
  intro s w hturn hw
  obtain ⟨t, ht⟩ := engineStep_completes w (turnTaken s)
  exact ⟨complete t, (step_of_pending hturn hw).trans ht, rfl, rfl, engineStep_script ht⟩

end EngineTurns

section Issue

/-- Settles O12: a CMD write issues the word while idle and is refused while busy. -/
theorem cmdWriteIssuesOrIsRefused : Obligations.CmdWriteIssuesOrIsRefused := by
  refine fun s w => ⟨hostWrite_cmd w, fun hbusy => ?_⟩
  have hcmd : decodeOffset 0x008 = .reg .cmd := decodeOffset_ofNat (by decide) (by decide) (.reg .cmd rfl)
  exact (hostWrite_reg hcmd).trans (writeCmd_busy hbusy)

end Issue

section ControlCommands
variable (s : State)

/-- NOP completes (R124). -/
theorem exec_nop : exec .nop s = .next (completed s) := rfl

/-- ACK clears the record (R126). -/
theorem exec_ack : exec .ack s = .next (completed (clearRecord s)) := rfl

/-- CLEAR empties the pipeline and clears the record (R125). -/
theorem exec_clear : exec .clear s = .next (completed (clearRecord (emptyPipeline s))) := rfl

/-- Settles O32: CLEAR completes with an empty pipeline and an empty record, and both states agree in every field. -/
theorem clearIsResetButForFourThings : Obligations.ClearIsResetButForFourThings := exec_clear

/-- Settles O33, by the effect of each command: a byte of PACK or OUT depends on its memory and its draw, which CLEAR
keeps. -/
theorem controlCommandsComplete : Obligations.ControlCommandsComplete := fun s =>
  ⟨exec_nop s, exec_ack s, _, exec_clear s, rfl, rfl, fun _ => ⟨rfl, rfl, rfl, rfl⟩, fun _ => ⟨rfl, rfl⟩, rfl⟩

end ControlCommands

end Sys2Proof.Machine
end

section
/-! PROOFS. Binary64: the relative error of `fl64`, and the order of the probabilities (41_analyze.md rule R146). -/

namespace Sys2Proof.Machine

section RelativeError
variable {n d : Nat}

/-- The rounded quotient is at most half a unit away. -/
theorem two_mul_gap_roundToEven_le (n : Nat) {d : Nat} (hd : 0 < d) : 2 * gap n d (roundToEven n d) ≤ d := by
  have hn := Nat.div_add_mod n d
  have hr := Nat.mod_lt n hd
  have hup : d * (n / d + 1) = d * (n / d) + d := Nat.mul_succ ..
  rw [gap_eq]
  obtain ⟨⟨h, hhalf⟩ | ⟨h, hhalf⟩, -⟩ := roundToEven_cases n d <;> rw [h] <;> omega

/-- The relative error of `fl64` is at most `2^-53` where the result has all its significand bits (R13). -/
theorem gap_fl64_le (hd : 0 < d) (hn : n ≤ d * weightUnits 0x7FEFFFFFFFFFFFFF) (hfull : d * 2 ^ 52 ≤ n) :
    2 ^ 53 * gap n d (weightUnits (fl64 n d)) ≤ n := by
  obtain ⟨k, hlow, hs, hx⟩ := fl64_scaled hd hn
  have hhalf := two_mul_gap_roundToEven_le n (Nat.mul_pos hd (Nat.two_pow_pos k))
  have hquantum : d * 2 ^ k * 2 ^ 52 ≤ n := by
    obtain rfl | hlow := hlow
    · rwa [Nat.pow_zero, Nat.mul_one]
    · exact hlow
  rw [hs.weightUnits_eq hx, ← gap_mul]
  omega

end RelativeError

section Order
variable {c total : Nat}

/-- A probability is at most `2^-53` of itself away from the exact quotient (R145). -/
theorem gap_weightOfCount_le (h1 : 1 ≤ c) (hc : c ≤ total) (ht : total < 2 ^ 32) :
    2 ^ 53 * gap (c * 2 ^ 1074) total (weightUnits (weightOfCount c total)) ≤ c * 2 ^ 1074 := by
  have hpow : 2 ^ 84 ≤ 2 ^ 1074 := pow_le_pow_right₀ one_le_two (by omega)
  exact gap_fl64_le (by omega) (count_in_range hc) ((total_mul_le h1 ht rfl).trans (Nat.mul_le_mul_left _ hpow))

/-- Values a relative error of `2^-53` away from the quotients of different 32-bit counts are ordered as the counts:
`unit` is 1.0 in any unit. -/
theorem lt_of_gap_le {a b unit x y : Nat} (hab : a < b) (hb : b ≤ 2 ^ 32) (hunit : 0 < unit)
    (hx : 2 ^ 53 * gap (a * unit) total x ≤ a * unit) (hy : 2 ^ 53 * gap (b * unit) total y ≤ b * unit) : x < y := by
  have hstep : a * unit + unit ≤ b * unit := by
    rw [← Nat.succ_mul]
    exact Nat.mul_le_mul_right _ hab
  have hbound : b * unit ≤ 2 ^ 32 * unit := Nat.mul_le_mul_right _ hb
  rw [gap_eq] at hx hy
  refine Nat.lt_of_mul_lt_mul_left (a := total) ?_
  omega

/-- The probabilities of one total below `2^32` rise strictly with the counts (R146). -/
theorem weightOfCount_strictMonoOn (ht : total < 2 ^ 32) :
    StrictMonoOn (fun c => weightUnits (weightOfCount c total)) (Set.Icc 1 total) :=
  fun _ ⟨ha1, ha⟩ _ ⟨hb1, hb⟩ hab =>
    lt_of_gap_le (unit := 2 ^ 1074) hab (hb.trans ht.le) (pow_pos two_pos _) (gap_weightOfCount_le ha1 ha ht)
      (gap_weightOfCount_le hb1 hb ht)

end Order

/-- Settles O39: the probabilities rise strictly with the counts. -/
theorem weightOrderIsCountOrder : Obligations.WeightOrderIsCountOrder := by
  intro c1 c2 total h1 hc1 h2 hc2 ht
  have hmono := weightOfCount_strictMonoOn ht
  exact ⟨hmono.lt_iff_lt ⟨h1, hc1⟩ ⟨h2, hc2⟩,
    fun h => hmono.injOn ⟨h1, hc1⟩ ⟨h2, hc2⟩ (congrArg weightUnits h), congrArg (weightOfCount · total)⟩

end Sys2Proof.Machine
end

section
/-! PROOFS. COUNT and ANALYZE: their errors, and what a successful one leaves (41_analyze.md rules R140-R149). -/

namespace Sys2Proof.Machine

/-- An error raised with none recorded changes the record, PENDING and DONE (60_exceptions.md rule R235). -/
theorem raise_of_unrecorded {s : State} (e : ErrCode) (info : Word) (herr : s.err = false) :
    raise e info s = completed (withError e info s) := by
  rw [raise_eq, record_of_unrecorded e info herr, complete_eq_completed]

section Count
variable {s : State} {sym : Byte}

/-- COUNT outside OPEN is out of sequence (R141). -/
theorem exec_count_of_not_opened (hp : s.phase ≠ .opened) :
    exec (.count sym) s = .next (raise .sequence (encode (.count sym)) s) :=
  if_pos hp

/-- COUNT of a symbol past the alphabet (R141). -/
theorem exec_count_of_range (hp : s.phase = .opened) (hsym : s.cfg.nsym ≤ sym.toNat) :
    exec (.count sym) s = .next (raise .symbolRange (encode (.count sym)) s) :=
  (if_neg (not_not.2 hp)).trans (if_pos hsym)

/-- COUNT at a full counter (R141). -/
theorem exec_count_of_full (hp : s.phase = .opened) (hsym : sym.toNat < s.cfg.nsym)
    (hn : (freqAt s sym.toNat).toNat = countMax s.cfg) :
    exec (.count sym) s = .next (raise .countOverflow (encode (.count sym)) s) :=
  (if_neg (not_not.2 hp)).trans <| (if_neg (not_le.2 hsym)).trans (if_pos hn)

/-- A successful COUNT (R141). -/
theorem exec_count_of_room (hp : s.phase = .opened) (hsym : sym.toNat < s.cfg.nsym)
    (hn : (freqAt s sym.toNat).toNat ≠ countMax s.cfg) :
    exec (.count sym) s = .next (completed { s with
      freq := Memory.set 0 s.freq sym.toNat (toCount s.cfg ((freqAt s sym.toNat).toNat + 1)) }) :=
  (if_neg (not_not.2 hp)).trans <| (if_neg (not_le.2 hsym)).trans (if_neg hn)

/-- Settles O34, branch by branch of COUNT; the counter's new value fits since the old one is below the maximum. -/
theorem countAddsOneOrRaises : Obligations.CountAddsOneOrRaises := by
  refine fun s sym hwf => ⟨fun herr hp => ?_, fun herr hp hsym => ?_, fun herr hp hsym hn => ?_, fun hp hsym hn => ?_⟩
  · rw [exec_count_of_not_opened hp, raise_of_unrecorded _ _ herr]
  · rw [exec_count_of_range hp hsym, raise_of_unrecorded _ _ herr]
  · rw [exec_count_of_full hp hsym hn, raise_of_unrecorded _ _ herr]
  · refine ⟨_, exec_count_of_room hp hsym hn.ne, ?_, fun j hj => Memory.get_set_other _ _ _ hj, rfl⟩
    exact (congrArg BitVec.toNat (Memory.get_set_same ..)).trans (toCount_toNat hwf hn)

end Count

section Rejections
variable {s : State}

/-- ANALYZE of an empty input (R142). -/
theorem exec_analyze_of_empty (hp : s.phase = .opened) (h0 : countedTotal s = 0) :
    exec .analyze s = .next (raise .emptyInput (encode .analyze) s) :=
  (if_neg (not_not.2 hp)).trans (if_pos h0)

/-- ANALYZE of a total that does not fit its counter after injection (R144). -/
theorem exec_analyze_of_overflow (hwf : s.cfg.wf = true) (hp : s.phase = .opened) (h0 : countedTotal s ≠ 0)
    (hover : countMax s.cfg < analysedTotal s) :
    exec .analyze s = .next (raise .countOverflow (encode .analyze) s) := by
  rw [← injected_sum hwf] at hover
  exact (if_neg (not_not.2 hp)).trans <| (if_neg h0).trans (if_pos hover)

/-- Settles O36, by the two rejecting branches of ANALYZE: counts that are all 0 sum to 0. -/
theorem analyzeRejectsEmptyAndOverflow : Obligations.AnalyzeRejectsEmptyAndOverflow := by
  refine fun s herr hp => ⟨fun hall => ?_, fun hwf h0 hover => ?_⟩
  · have h0 : countedTotal s = 0 := by
      rw [countedTotal_eq_sum]
      exact Finset.sum_eq_zero fun i hi => congrArg BitVec.toNat (hall i (Finset.mem_range.1 hi))
    exact (exec_analyze_of_empty hp h0).trans (congrArg _ (raise_of_unrecorded _ _ herr))
  · exact (exec_analyze_of_overflow hwf hp h0 hover).trans (congrArg _ (raise_of_unrecorded _ _ herr))

end Rejections

section Determinism
variable {s t : State}

/-- An ANALYZE that leaves SORTED has succeeded, whatever the configuration. -/
theorem eq_analyzedState_of_sorted (hp : s.phase = .opened) (ht : exec .analyze s = .next t)
    (hsorted : t.phase = .sorted) : t = analyzedState s := by
  obtain ⟨hno, -⟩ | ⟨-, ⟨e, effects, he, rfl⟩ | hok⟩ := exec_cases ht
  · simp [phaseAllows, hp] at hno
  · rw [raiseWith_eq, complete_phase, (he.frame _).2.2, record_phase, hp] at hsorted
    cases hsorted
  · cases hok
    rfl

/-- Settles O38: what a successful ANALYZE leaves in SLIST, NDIST, TOTAL and INJ is written in FREQ and the
configuration only. -/
theorem analyzeIsDeterminedByFreq : Obligations.AnalyzeIsDeterminedByFreq := by
  intro s s' t t' hcfg hfreq hp hp' ht ht' hsorted hsorted'
  rw [eq_analyzedState_of_sorted hp ht hsorted, eq_analyzedState_of_sorted hp' ht' hsorted']
  simp only [analyzedState, completed, hcfg, hfreq, and_self]

end Determinism

section SortedEntries
variable {s : State}

/-- The probability in SLIST[k] is that of its count (R145). -/
theorem Inv.slistAt_w (h : Inv s) (hp : s.phase ≠ .opened) {k : Nat} (hk : k < s.ndist.toNat) :
    (slistAt s k).w = weightOfCount (slistAt s k).cnt.toNat s.total.toNat := by
  obtain ⟨t, ht, hslist⟩ := h.slistAt_eq hp hk
  rw [h.total_toNat hp, countedTotal_eq, hslist, (h.sortEntry_toNat hp (List.mem_of_getElem? ht) _).2]
  rfl

/-- SLIST is zero past NDIST (R147). -/
theorem Inv.slistAt_of_ge (h : Inv s) (hp : s.phase ≠ .opened) {k : Nat} (hk : s.ndist.toNat ≤ k) :
    slistAt s k = .zero := by
  obtain ⟨-, -, hslist, -⟩ := h.pipeline.sorted hp
  rw [h.ndist_toNat hp, countedSymbols_eq, ← sortedTallies_length] at hk
  rw [slistAt, hslist, sortedList, Memory.get_ofList, List.getD_eq_default _ _ (by rwa [List.length_map])]

end SortedEntries

section CanonicalView
variable {s : State}

/-- The configuration, the counts and the sorted list of `s`, in a state that is otherwise as after a reset and whose
FREQ is in canonical form. It gives the sorted list's facts, which `Inv` has, to a state outside `Inv`. -/
def sortedView (s : State) : State :=
  { State.resetWith s.cfg with
    freq := Memory.ofList 0 ((List.range s.cfg.nsym).map (freqAt s))
    slist := s.slist
    ndist := s.ndist
    total := s.total
    phase := .sorted }

theorem freqAt_sortedView {i : Nat} (hi : i < s.cfg.nsym) : freqAt (sortedView s) i = freqAt s i := by
  simp [freqAt, sortedView, Memory.get_ofList, hi]

theorem freqCounts_sortedView (s : State) :
    freqCounts s.cfg (sortedView s).freq = freqCounts s.cfg s.freq :=
  List.map_congr_left fun _ hi => congrArg BitVec.toNat (freqAt_sortedView (List.mem_range.1 hi))

theorem countersFit_ofList {c : Config} {l : List Word} (h : ∀ x ∈ l, x.toNat ≤ countMax c) :
    countersFit c (Memory.ofList 0 l) = true := by
  simp only [countersFit, List.all_eq_true, decide_eq_true_eq]
  intro e he
  obtain ⟨p, hp, rfl⟩ := List.mem_map.1 (List.mem_of_mem_filter he)
  exact h _ (List.fst_mem_of_mem_zipIdx hp)

theorem sortedView_countersFit (hfit : countedTotal s ≤ countMax s.cfg) :
    countersFit s.cfg (sortedView s).freq = true := by
  refine countersFit_ofList fun x hx => ?_
  obtain ⟨i, hi, rfl⟩ := List.mem_map.1 hx
  exact (freqAt_le_countedTotal (List.mem_range.1 hi)).trans hfit

/-- The view satisfies the invariant when SLIST, NDIST and TOTAL are those of FREQ. -/
theorem inv_sortedView (hwf : s.cfg.wf = true) (h0 : countedTotal s ≠ 0) (hfit : countedTotal s ≤ countMax s.cfg)
    (hslist : s.slist = sortedList s.cfg (freqCounts s.cfg s.freq))
    (hndist : s.ndist = BitVec.ofNat 32 (sortedTallies (freqCounts s.cfg s.freq)).length)
    (htotal : s.total = BitVec.ofNat 32 (countedTotal s)) : Inv (sortedView s) := by
  obtain ⟨hm, hc, hp⟩ := inv_resetWith hwf
  rw [memoriesWf_iff] at hm
  have hcounts : freqCounts (sortedView s).cfg (sortedView s).freq = _ := freqCounts_sortedView s
  exact .of_parts
    { hm with
      freq := Memory.wf_ofList _ (by rw [List.length_map, List.length_range]; rfl)
      slist := hslist ▸ wf_sortedList s.cfg (by simp [freqCounts]) }
    { hc with
      active := nofun
      counters := sortedView_countersFit hfit }
    { opened := nofun
      unbuilt := fun _ => hp.unbuilt (.inl rfl)
      uncoded := fun _ => hp.uncoded nofun
      sorted := fun _ => by rw [hcounts]; exact ⟨h0, hfit, hslist, hndist, htotal⟩
      built := nofun
      coded := nofun }

end CanonicalView

section Success
variable {s : State}

/-- The total after injection is the sum of the counts ANALYZE leaves (R142, R143). -/
theorem countedTotal_analyzedState (hwf : s.cfg.wf = true) (hfit : analysedTotal s ≤ countMax s.cfg) :
    countedTotal (analyzedState s) = analysedTotal s :=
  (congrArg List.sum (freqCounts_analyzedState hwf hfit)).trans (injected_sum hwf)

/-- A successful ANALYZE leaves the sorted list of the counts it leaves in FREQ (R142, R147). -/
theorem inv_sortedView_analyzedState (hwf : s.cfg.wf = true) (h0 : countedTotal s ≠ 0)
    (hfit : analysedTotal s ≤ countMax s.cfg) : Inv (sortedView (analyzedState s)) := by
  have htotal := countedTotal_analyzedState hwf hfit
  have hcounts : freqCounts (analyzedState s).cfg (analyzedState s).freq = _ := freqCounts_analyzedState hwf hfit
  refine inv_sortedView hwf ?_ (htotal.trans_le hfit) (by rw [hcounts]; rfl) (by rw [hcounts]; rfl) ?_
  · rw [htotal, analysedTotal]
    omega
  · rw [htotal, ← injected_sum hwf]
    rfl

/-- The facts of R53 speak of the counts, the configuration and the sorted list only. -/
theorem sortedFacts_of_sortedView (h : sortedFacts (sortedView s)) : sortedFacts s := by
  obtain ⟨hpos, hle, htotal, hndist, horder⟩ := h
  refine ⟨hpos, hle, htotal.trans (congrArg List.sum (freqCounts_sortedView s)), hndist.trans ?_, horder⟩
  exact List.countP_congr fun i hi => by rw [freqAt_sortedView (s := s) (List.mem_range.1 hi)]

/-- Settles O35: the counts are those of `freqAt_analyzedState`, and the sorted list's facts hold in the canonical
view of the state that ANALYZE leaves. -/
theorem analyzeSortsTheCounts : Obligations.AnalyzeSortsTheCounts := by
  intro s hwf hp h0 hfit
  have hinv := inv_sortedView_analyzedState hwf h0 hfit
  have hsorted : (sortedView (analyzedState s)).phase ≠ .opened := nofun
  have htotal : (analyzedState s).total.toNat = analysedTotal s := by
    rw [← countedTotal_analyzedState hwf hfit]
    exact (hinv.total_toNat hsorted).trans (congrArg List.sum (freqCounts_sortedView _))
  refine ⟨_, exec_analyze_of_fits hwf hp h0 hfit, ?_, htotal, freqAt_analyzedState hwf hfit,
    sortedFacts_of_sortedView (hinv.sortedFacts hsorted), fun i hi hcnt => ?_, fun k hk => ?_,
    fun k hk => hinv.slistAt_of_ge hsorted hk⟩
  · rw [injectionDue_eq]
    rfl
  · exact hinv.exists_slistAt hsorted hi ((freqAt_sortedView (s := analyzedState s) hi).trans_ne hcnt)
  · obtain ⟨hsym, hcnt, hpos⟩ := hinv.slistAt_counted hsorted hk
    exact ⟨hcnt.trans (freqAt_sortedView (s := analyzedState s) hsym), hpos, hinv.slistAt_w hsorted hk⟩

end Success

end Sys2Proof.Machine
end

section
/-! PROOFS. BUILD: its error, the nodes of the pool, and the one parent of every node but ROOT
(42_build.md rules R160-R169). -/

namespace Sys2Proof.Machine

section SingleEntry
variable {s : State}

/-- BUILD of a single entry (R167). -/
theorem exec_build_of_single (hp : s.phase = .sorted) (hn : s.ndist = 1) :
    exec .build s = .next (raise .degenerateTree (encode .build) s) :=
  (if_neg (not_not.2 hp)).trans (if_pos (congrArg BitVec.toNat hn))

/-- Settles O43, by the rejecting branch of BUILD. -/
theorem buildRejectsASingleEntry : Obligations.BuildRejectsASingleEntry := by
  intro s herr hp hn
  rw [exec_build_of_single hp hn, raise_of_unrecorded _ _ herr]
  rfl

end SingleEntry

section Parents
variable (c : Config) (slist : Memory SortEntry) {n : Nat}

/-- After the last merge the sum over the waiting nodes is that of ROOT alone (R163). -/
theorem waitingSum_last {M : Type} [AddCommMonoid M] (f : Nat → M) (hn : 2 ≤ n) :
    waitingSum f n (mergedQueues c slist n (n - 1)) = f (2 * n - 2) := by
  obtain ⟨hs, ht⟩ := mergedQueues_last_heads c slist n hn
  rw [waitingSum, hs, ht, mergedQueues_length, show n + (n - 1) = 2 * n - 2 + 1 by omega]
  simp

/-- The sum of `f` over the two nodes that merge `i` takes. -/
def takenSum {M : Type} [AddCommMonoid M] (c : Config) (slist : Memory SortEntry) (n : Nat) (f : Nat → M) (i : Nat) :
    M :=
  f ((mergedQueues c slist n i).front c n) + f (((mergedQueues c slist n i).advance c n).front c n)

/-- Every node of the pool has been taken by a merge or is waiting, and only once. -/
theorem sum_takenSum_add_waitingSum {M : Type} [AddCommMonoid M] (f : Nat → M) {m : Nat} (hm : m < n) :
    ∑ i ∈ Finset.range m, takenSum c slist n f i + waitingSum f n (mergedQueues c slist n m) =
      ∑ k ∈ Finset.range (n + m), f k := by
  induction m with
  | zero =>
    obtain ⟨hs, ht⟩ := mergedQueues_zero_heads c slist n
    simp [waitingSum, hs, ht]
  | succ m ih =>
    obtain ⟨hsum, hmerge⟩ := waitingSum_merge f c (mergedQueues_within_two c slist hm) (by simp)
    rw [mergedQueues_length] at hmerge
    rw [← Nat.add_assoc, Finset.sum_range_succ, Finset.sum_range_succ, ← ih (by omega), mergedQueues_succ, hmerge, hsum,
      takenSum]
    abel

/-- 1 at node `k` and 0 elsewhere. -/
def indicator (k j : Nat) : Nat := if j = k then 1 else 0

theorem takenSum_indicator_ne_zero {k i : Nat} : takenSum c slist n (indicator k) i ≠ 0 ↔
    (mergedQueues c slist n i).front c n = k ∨ ((mergedQueues c slist n i).advance c n).front c n = k := by
  simp [takenSum, indicator, or_iff_not_imp_left]

/-- Node `k`, which is not ROOT, is taken once in all. -/
theorem sum_takenSum_indicator (hn : 2 ≤ n) {k : Nat} (hk : k < 2 * n - 2) :
    ∑ i ∈ Finset.range (n - 1), takenSum c slist n (indicator k) i = 1 := by
  have h := sum_takenSum_add_waitingSum c slist (indicator k) (show n - 1 < n by omega)
  rw [waitingSum_last c slist _ hn, indicator, if_neg hk.ne', Nat.add_zero] at h
  simpa [indicator, show k < n + (n - 1) by omega] using h

/-- Every node but ROOT is taken by exactly one merge (R169). -/
theorem existsUnique_merge (hn : 2 ≤ n) {k : Nat} (hk : k < 2 * n - 2) : ∃! i, i + 1 < n ∧
    ((mergedQueues c slist n i).front c n = k ∨ ((mergedQueues c slist n i).advance c n).front c n = k) := by
  simp only [← takenSum_indicator_ne_zero]
  have hsum := sum_takenSum_indicator c slist hn hk
  obtain ⟨i, hi, hne⟩ := Finset.exists_ne_zero_of_sum_ne_zero (hsum.trans_ne one_ne_zero)
  refine ⟨i, ⟨by have := Finset.mem_range.1 hi; omega, hne⟩, fun i' ⟨hi', hne'⟩ => ?_⟩
  by_contra hii
  have hmem : i' ∈ (Finset.range (n - 1)).erase i :=
    Finset.mem_erase.2 ⟨hii, Finset.mem_range.2 (by omega)⟩
  have hle := Finset.single_le_sum (f := takenSum c slist n (indicator k)) (fun _ _ => Nat.zero_le _) hmem
  rw [← Finset.add_sum_erase _ _ hi] at hsum
  omega

/-- The two nodes that a merge takes are different ones. -/
theorem mergedQueues_fronts_ne {m : Nat} (hm : m + 1 < n) :
    (mergedQueues c slist n m).front c n ≠ ((mergedQueues c slist n m).advance c n).front c n := by
  intro heq
  obtain ⟨hlt, -⟩ := mergedQueues_front_lt c slist hm
  have hsum := sum_takenSum_indicator c slist (k := (mergedQueues c slist n m).front c n) (n := n)
    (by omega) (by omega)
  have hle := hsum ▸ Finset.single_le_sum (fun _ _ => Nat.zero_le _) (Finset.mem_range.2 (show m < n - 1 by omega))
  simp [takenSum, indicator, ← heq] at hle

end Parents

section BuiltTree
variable {s : State}

theorem toCount_toNat_mod {c : Config} (h : c.wf = true) (n : Nat) : (toCount c n).toNat = n % 2 ^ c.cw := by
  have hlt := Nat.mod_lt n (Nat.two_pow_pos c.cw)
  have hle : 2 ^ c.cw ≤ 2 ^ 32 := Nat.pow_le_pow_right Nat.two_pos (cw_le_of_wf h)
  rw [toCount, BitVec.toNat_ofNat, Nat.mod_eq_of_lt (by omega)]

/-- NNODES and ROOT after BUILD (R168). -/
theorem builtState_size (hwf : s.cfg.wf = true) (hn : 2 ≤ s.ndist.toNat) (hns : s.ndist.toNat ≤ s.cfg.nsym) :
    (builtState s).nnodes.toNat = 2 * s.ndist.toNat - 1 ∧ (builtState s).root.toNat = 2 * s.ndist.toNat - 2 := by
  have h256 := nsym_of_wf hwf
  have hlen : (builtPool s.cfg s.slist s.ndist.toNat).length = 2 * s.ndist.toNat - 1 := by
    rw [builtPool_eq _ _ _ hn, mergedQueues_length]
    omega
  simp only [builtState, completed, hlen, BitVec.toNat_ofNat]
  omega

variable (hn : 2 ≤ s.ndist.toNat) (hns : s.ndist.toNat ≤ s.cfg.nsym)
include hn hns

/-- NODE is zero past the pool (R168). -/
theorem builtState_of_ge {j : Nat} (hj : 2 * s.ndist.toNat - 1 ≤ j) : nodeAt (builtState s) j = .zero := by
  rw [nodeAt_builtState hn hns, Queues.nodeAt]
  exact List.getD_eq_default _ _ (by rw [mergedQueues_length]; omega)

/-- While at most `NDIST - 1` merges are made their pool holds the nodes of NODE (R160). -/
theorem builtState_eq_mergedQueues {m j : Nat} (hm : m < s.ndist.toNat) (hj : j < s.ndist.toNat + m) :
    nodeAt (builtState s) j = (mergedQueues s.cfg s.slist s.ndist.toNat m).nodeAt j := by
  rw [nodeAt_builtState hn hns]
  exact mergedQueues_nodeAt _ _ _ (by omega) hj

/-- The internal node of merge `m` (R164): SENTINEL is its symbol, and its weight is the rounded sum of its
children's. -/
theorem builtState_sym_weight {m : Nat} (hm : m + 1 < s.ndist.toNat) :
    let q := mergedQueues s.cfg s.slist s.ndist.toNat m
    (nodeAt (builtState s) (s.ndist.toNat + m)).sym = 0x00 ∧
      (nodeAt (builtState s) (s.ndist.toNat + m)).w =
        weightSum (nodeAt (builtState s) (q.front s.cfg s.ndist.toNat)).w
          (nodeAt (builtState s) ((q.advance s.cfg s.ndist.toNat).front s.cfg s.ndist.toNat)).w := by
  intro q
  have hpool := fun j => builtState_eq_mergedQueues hn hns (m := m) (j := j) (by omega)
  obtain ⟨hleft, hright⟩ := mergedQueues_front_lt s.cfg s.slist hm
  rw [hpool _ hleft, hpool _ hright, builtState_eq_mergedQueues hn hns hm (by omega),
    mergedQueues_nodeAt_new]
  exact ⟨rfl, by simp [Queues.internal]⟩

/-- Every node but ROOT is the child of exactly one internal node (R169). -/
theorem existsUnique_parent (hwf : s.cfg.wf = true) {k : Nat} (hk : k < 2 * s.ndist.toNat - 2) :
    ∃! j, s.ndist.toNat ≤ j ∧ j < 2 * s.ndist.toNat - 1 ∧
      ((nodeAt (builtState s) j).left.toNat = k ∨ (nodeAt (builtState s) j).right.toNat = k) := by
  obtain ⟨m, ⟨hm, htaken⟩, hunique⟩ := existsUnique_merge s.cfg s.slist hn hk
  refine ⟨s.ndist.toNat + m, ⟨Nat.le_add_right .., by omega, ?_⟩, fun j ⟨hj, hlt, hchild⟩ => ?_⟩
  · obtain ⟨hleft, hright⟩ := builtState_children hwf hn hns hm
    rwa [hleft, hright]
  · obtain ⟨m', rfl⟩ := Nat.exists_eq_add_of_le hj
    have hm' : m' + 1 < s.ndist.toNat := by omega
    obtain ⟨hleft, hright⟩ := builtState_children hwf hn hns hm'
    rw [hleft, hright] at hchild
    rw [hunique m' ⟨hm', hchild⟩]

end BuiltTree

/-- Settles O42: the internal node of each merge holds what the merge took, and every node but ROOT is taken by exactly
one merge. -/
theorem buildMakesAStrictBinaryTree : Obligations.BuildMakesAStrictBinaryTree := by
  intro s hwf hp hn hns
  obtain ⟨hnnodes, hroot⟩ := builtState_size hwf hn hns
  refine ⟨_, exec_build_of_sorted hp hn, rfl, hnnodes, hroot, fun i hi => builtState_leaf hn hns hi,
    fun j hj hlt => ?_, fun k hk => ?_, fun j hj => builtState_of_ge hn hns (hnnodes ▸ hj)⟩
  · obtain ⟨m, rfl⟩ := Nat.exists_eq_add_of_le hj
    have hm : m + 1 < s.ndist.toNat := by omega
    obtain ⟨hleft, hright⟩ := builtState_children hwf hn hns hm
    obtain ⟨hleaf, hcnt⟩ := builtState_internal hn hns hm
    obtain ⟨hsym, hw⟩ := builtState_sym_weight hn hns hm
    obtain ⟨hlt_left, hlt_right⟩ := mergedQueues_front_lt s.cfg s.slist hm
    refine ⟨hleaf, hsym, hleft ▸ hlt_left, hright ▸ hlt_right, fun heq => ?_, ?_, fun hinv => ?_, ?_⟩
    · exact mergedQueues_fronts_ne s.cfg s.slist hm (hleft ▸ hright ▸ congrArg BitVec.toNat heq)
    · rw [hleft, hright, hcnt, toCount_toNat_mod hwf]
    · obtain ⟨-, -, -, hexact⟩ := (hinv.of_build hp (by omega)).nodeAt_internal (.inl rfl) hm
      exact hexact
    · rw [hleft, hright, hw]
  · rw [hnnodes]
    exact existsUnique_parent hn hns hwf (hroot ▸ hk)

end Sys2Proof.Machine
end

section
/-! PROOFS. The keys of the tree: rounding to nearest is monotone, `take()` returns a least key of those that wait, and
so the internal nodes are created in the order of their keys (42_build.md rules R162, R164, R166, R169). -/

namespace Sys2Proof.Machine

section RoundedSums
variable {n n' d : Nat}

/-- Rounding to nearest is monotone (R13, R169 (d)). -/
theorem weightUnits_fl64_mono (hd : 0 < d) (hn : n' ≤ d * weightUnits 0x7FEFFFFFFFFFFFFF) (h : n ≤ n') :
    weightUnits (fl64 n d) ≤ weightUnits (fl64 n' d) := by
  by_contra hlt
  have hscaled : d * weightUnits (fl64 n' d) < d * weightUnits (fl64 n d) :=
    Nat.mul_lt_mul_of_pos_left (not_le.1 hlt) hd
  have hnear := (fl64_nearest hd (h.trans hn) (fl64_finite hd hn)).1
  have hnear' := (fl64_nearest hd hn (fl64_finite hd (h.trans hn))).1
  simp only [gap_eq] at hnear hnear'
  obtain rfl : n = n' := by omega
  exact hlt le_rfl

theorem weightUnits_le_max {y : Binary64} (hy : y.toNat < 0x7FF0000000000000) :
    weightUnits y ≤ weightUnits 0x7FEFFFFFFFFFFFFF :=
  (weightUnits_le_iff hy (by decide)).2 (Nat.le_of_lt_succ hy)

/-- The powers of two in the range of the normal values are values. -/
theorem exists_weightUnits_eq_two_pow {e : Nat} (hlow : 52 ≤ e) (hhigh : e ≤ 2097) :
    ∃ y : Binary64, y.toNat < 0x7FF0000000000000 ∧ weightUnits y = 2 ^ e := by
  have hy : (BitVec.ofNat 64 ((e - 52) * 2 ^ 52 + 2 ^ 52)).toNat = (e - 52) * 2 ^ 52 + 2 ^ 52 := by
    rw [BitVec.toNat_ofNat]
    omega
  exact ⟨_, by omega, weightUnits_eq_two_pow hlow hy (by omega)⟩

/-- Two numbers of units below a power of two have a sum below the next one. -/
theorem add_le_two_pow_succ {x y e : Nat} (hx : x ≤ 2 ^ e) (hy : y ≤ 2 ^ e) : x + y ≤ 2 ^ (e + 1) := by
  rw [Nat.two_pow_succ]
  exact Nat.add_le_add hx hy

variable {a b a' b' : Binary64}

theorem weightSum_finite (h : weightUnits a + weightUnits b ≤ weightUnits 0x7FEFFFFFFFFFFFFF) :
    (weightSum a b).toNat < 0x7FF0000000000000 :=
  fl64_finite Nat.one_pos (by rwa [Nat.one_mul])

theorem weightSum_mono (hrange : weightUnits a' + weightUnits b' ≤ weightUnits 0x7FEFFFFFFFFFFFFF)
    (h : weightUnits a + weightUnits b ≤ weightUnits a' + weightUnits b') :
    weightUnits (weightSum a b) ≤ weightUnits (weightSum a' b') :=
  weightUnits_fl64_mono Nat.one_pos (by rwa [Nat.one_mul]) h

/-- A rounded sum is no smaller than a finite value that the exact sum is no smaller than. -/
theorem weightUnits_le_weightSum (hrange : weightUnits a + weightUnits b ≤ weightUnits 0x7FEFFFFFFFFFFFFF)
    {y : Binary64} (hy : y.toNat < 0x7FF0000000000000) (h : weightUnits y ≤ weightUnits a + weightUnits b) :
    weightUnits y ≤ weightUnits (weightSum a b) :=
  weightUnits_le_fl64 Nat.one_pos (by rwa [Nat.one_mul]) hy (by rwa [Nat.one_mul])

/-- A sum that is at most a power of two in range is in range, and is not rounded above that power. -/
theorem weightSum_le_two_pow {e : Nat} (hlow : 52 ≤ e) (hhigh : e ≤ 2097) (h : weightUnits a + weightUnits b ≤ 2 ^ e) :
    weightUnits a + weightUnits b ≤ weightUnits 0x7FEFFFFFFFFFFFFF ∧ weightUnits (weightSum a b) ≤ 2 ^ e := by
  obtain ⟨y, hy, hvalue⟩ := exists_weightUnits_eq_two_pow hlow hhigh
  rw [← hvalue] at h ⊢
  have hrange := h.trans (weightUnits_le_max hy)
  exact ⟨hrange, weightUnits_fl64_le Nat.one_pos (hrange.trans_eq (Nat.one_mul _).symm) hy
    (h.trans_eq (Nat.one_mul _).symm)⟩

end RoundedSums

section Keys
variable {s : State} (h : Inv s) (hp : s.phase = .built ∨ s.phase = .coded)
include h hp

/-- From BUILT on NODE holds the nodes of the merges. -/
theorem Inv.nodeAt_eq_mergedQueues {m j : Nat} (hm : m < s.ndist.toNat) (hj : j < s.ndist.toNat + m) :
    nodeAt s j = (mergedQueues s.cfg s.slist s.ndist.toNat m).nodeAt j := by
  obtain ⟨hn, hns, hnode, -⟩ := h.built_eq hp
  rw [hnode, builtState_eq_mergedQueues hn hns hm hj]

/-- The internal nodes: the children come first, and the weight is their rounded sum (R164, R169 (b)). -/
theorem Inv.nodeAt_weight {m : Nat} (hm : m + 1 < s.ndist.toNat) :
    let node := nodeAt s (s.ndist.toNat + m)
    node.left.toNat < s.ndist.toNat + m ∧ node.right.toNat < s.ndist.toNat + m ∧
      node.w = weightSum (nodeAt s node.left.toNat).w (nodeAt s node.right.toNat).w := by
  intro node
  obtain ⟨hn, hns, hnode, -⟩ := h.built_eq hp
  obtain ⟨-, hleft, hright, -⟩ := h.nodeAt_internal hp hm
  obtain ⟨hlt_left, hlt_right⟩ := mergedQueues_front_lt s.cfg s.slist hm
  have hw := (builtState_sym_weight hn hns hm).2
  simp only [← hnode] at hw
  rw [hleft, hright]
  exact ⟨hlt_left, hlt_right, hw⟩

/-- What SLIST[k] holds is counted in TOTAL. -/
theorem Inv.slistAt_cnt_mem {k : Nat} (hk : k < s.ndist.toNat) :
    (slistAt s k).cnt.toNat ∈ Set.Icc 1 s.total.toNat := by
  have hne := phase_ne_opened_of_built hp
  obtain ⟨hsym, hcnt, hpos⟩ := h.slistAt_counted hne hk
  refine ⟨hpos, ?_⟩
  rw [h.total_toNat hne, hcnt]
  exact freqAt_le_countedTotal hsym

/-- The weights of the tree are finite (R13): that of node `j` is at most `2^j`. -/
theorem Inv.weight_finite {j : Nat} (hj : j < 2 * s.ndist.toNat - 1) :
    (nodeAt s j).w.toNat < 0x7FF0000000000000 ∧ weightUnits (nodeAt s j).w ≤ 2 ^ (1074 + j) := by
  obtain ⟨hn, hns, -⟩ := h.built_eq hp
  have h256 := nsym_of_wf h.control.config
  induction j using Nat.strong_induction_on with
  | _ j ih =>
    rcases Nat.lt_or_ge j s.ndist.toNat with hleaf | hge
    · obtain ⟨hpos, hle⟩ := h.slistAt_cnt_mem hp hleaf
      have hw : (nodeAt s j).w = weightOfCount (slistAt s j).cnt.toNat s.total.toNat := by
        rw [h.nodeAt_leaf hp hleaf]
        exact h.slistAt_w (phase_ne_opened_of_built hp) hleaf
      rw [hw]
      exact ⟨fl64_finite (by omega) (count_in_range hle),
        (weightOfCount_le_one hpos hle).trans (pow_le_pow_right₀ one_le_two (Nat.le_add_right ..))⟩
    · obtain ⟨m, rfl⟩ := Nat.exists_eq_add_of_le hge
      obtain ⟨hleft, hright, hw⟩ := h.nodeAt_weight hp (m := m) (by omega)
      have hchild : ∀ i, i < s.ndist.toNat + m →
          weightUnits (nodeAt s i).w ≤ 2 ^ (1074 + (s.ndist.toNat + m - 1)) := fun i hi =>
        (ih i hi (by omega)).2.trans (Nat.pow_le_pow_right Nat.two_pos (by omega))
      have hsum := add_le_two_pow_succ (hchild _ hleft) (hchild _ hright)
      rw [show 1074 + (s.ndist.toNat + m - 1) + 1 = 1074 + (s.ndist.toNat + m) by omega] at hsum
      obtain ⟨hrange, hle⟩ := weightSum_le_two_pow (by omega) (by omega) hsum
      rw [hw]
      exact ⟨weightSum_finite hrange, hle⟩

/-- The exact sum of two weights of the tree is in the range of the finite values. -/
theorem Inv.weights_in_range {i j : Nat} (hi : i < 2 * s.ndist.toNat - 1) (hj : j < 2 * s.ndist.toNat - 1) :
    weightUnits (nodeAt s i).w + weightUnits (nodeAt s j).w ≤ weightUnits 0x7FEFFFFFFFFFFFFF := by
  obtain ⟨-, hns, -⟩ := h.built_eq hp
  have h256 := nsym_of_wf h.control.config
  have hle : ∀ i, i < 2 * s.ndist.toNat - 1 → weightUnits (nodeAt s i).w ≤ 2 ^ (1074 + 2 * s.ndist.toNat) :=
    fun i hi => (h.weight_finite hp hi).2.trans (Nat.pow_le_pow_right Nat.two_pos (by omega))
  exact (weightSum_le_two_pow (by omega) (by omega) (add_le_two_pow_succ (hle i hi) (hle j hj))).1

/-- In both weight modes the leaves are in the order of their keys (R140, R146, R166). -/
theorem Inv.mergeKey_leaf_mono : MonotoneOn (mergeKey s) (Set.Iio s.ndist.toNat) := by
  intro i hi j hj hij
  have hne := phase_ne_opened_of_built hp
  have hcnt : (slistAt s i).cnt.toNat ≤ (slistAt s j).cnt.toNat := by
    rcases hij.eq_or_lt with rfl | hlt
    · exact le_rfl
    · obtain hc | ⟨hc, -⟩ := h.slistAt_lt hne hlt hj
      · exact hc.le
      · rw [hc]
  rw [mergeKey_eq, mergeKey_eq, h.nodeAt_leaf hp hi, h.nodeAt_leaf hp hj]
  cases hmode : s.cfg.weightMode with
  | count => simpa only [nodeKey, hmode, leafNode] using hcnt
  | binary64 =>
    simp only [nodeKey, hmode, leafNode, h.slistAt_w hne hi, h.slistAt_w hne hj]
    exact (weightOfCount_strictMonoOn s.total.isLt).monotoneOn (h.slistAt_cnt_mem hp hi) (h.slistAt_cnt_mem hp hj) hcnt

/-- In both weight modes a parent's key is no smaller than those of its children. -/
theorem Inv.mergeKey_child_le {m : Nat} (hm : m + 1 < s.ndist.toNat) :
    let node := nodeAt s (s.ndist.toNat + m)
    mergeKey s node.left.toNat ≤ mergeKey s (s.ndist.toNat + m) ∧
      mergeKey s node.right.toNat ≤ mergeKey s (s.ndist.toNat + m) := by
  dsimp only
  obtain ⟨-, -, -, hcnt⟩ := h.nodeAt_internal hp hm
  obtain ⟨hleft, hright, hw⟩ := h.nodeAt_weight hp hm
  cases hmode : s.cfg.weightMode with
  | count =>
    simp only [mergeKey, hmode]
    omega
  | binary64 =>
    simp only [mergeKey, hmode]
    rw [hw]
    have hrange := h.weights_in_range hp (hleft.trans (by omega)) (hright.trans (by omega))
    exact ⟨weightUnits_le_weightSum hrange (h.weight_finite hp (by omega)).1 (Nat.le_add_right ..),
      weightUnits_le_weightSum hrange (h.weight_finite hp (by omega)).1 (Nat.le_add_left ..)⟩

/-- In both weight modes a parent's key rises with the sum of its children's keys. -/
theorem Inv.mergeKey_parent_mono {m m' : Nat} (hm : m + 1 < s.ndist.toNat) (hm' : m' + 1 < s.ndist.toNat) :
    let node := nodeAt s (s.ndist.toNat + m)
    let node' := nodeAt s (s.ndist.toNat + m')
    mergeKey s node.left.toNat + mergeKey s node.right.toNat ≤
      mergeKey s node'.left.toNat + mergeKey s node'.right.toNat →
    mergeKey s (s.ndist.toNat + m) ≤ mergeKey s (s.ndist.toNat + m') := by
  dsimp only
  intro hle
  obtain ⟨-, -, -, hcnt⟩ := h.nodeAt_internal hp hm
  obtain ⟨-, -, -, hcnt'⟩ := h.nodeAt_internal hp hm'
  obtain ⟨-, -, hw⟩ := h.nodeAt_weight hp hm
  obtain ⟨hleft', hright', hw'⟩ := h.nodeAt_weight hp hm'
  cases hmode : s.cfg.weightMode with
  | count =>
    simp only [mergeKey, hmode] at hle ⊢
    omega
  | binary64 =>
    simp only [mergeKey, hmode] at hle ⊢
    rw [hw, hw']
    exact weightSum_mono (h.weights_in_range hp (by omega) (by omega)) hle

end Keys

section LeastKeys
variable {c : Config} {n : Nat} {q : Queues}

/-- Node `j` waits in one of the queues. -/
def Queues.Waits (n : Nat) (q : Queues) (j : Nat) : Prop :=
  q.sHead ≤ j ∧ j < n ∨ q.tHead ≤ j ∧ j < q.pool.length

/-- The nodes of each queue wait in the order of their keys. -/
structure Queues.Sorted (c : Config) (n : Nat) (q : Queues) : Prop where
  source : MonotoneOn (fun j => nodeKey c (q.nodeAt j)) (Set.Ico q.sHead n)
  target : MonotoneOn (fun j => nodeKey c (q.nodeAt j)) (Set.Ico q.tHead q.pool.length)

/-- The heads move forward (R162). -/
theorem Queues.heads_le_advance : q.sHead ≤ (q.advance c n).sHead ∧ q.tHead ≤ (q.advance c n).tHead := by
  obtain ⟨-, -, ha⟩ | ⟨-, -, ha⟩ := q.advance_cases c n <;> simp [ha]

theorem Queues.Waits.of_advance {j : Nat} (h : (q.advance c n).Waits n j) : q.Waits n j := by
  obtain ⟨hs, ht⟩ := q.heads_le_advance (c := c) (n := n)
  rw [Queues.Waits, Queues.advance_pool] at h
  exact h.imp (.imp_left hs.trans) (.imp_left ht.trans)

theorem Queues.Sorted.advance (h : q.Sorted c n) : (q.advance c n).Sorted c n := by
  obtain ⟨hs, ht⟩ := q.heads_le_advance (c := c) (n := n)
  refine ⟨?_, ?_⟩ <;> simp only [Queues.nodeAt_advance, Queues.advance_pool]
  · exact h.source.mono (Set.Ico_subset_Ico_left hs)
  · exact h.target.mono (Set.Ico_subset_Ico_left ht)

/-- While a node is waiting `take()` returns one that waits. -/
theorem Queues.Within.waits_front {k : Nat} (h : q.Within n (k + 1)) : q.Waits n (q.front c n) := by
  obtain ⟨hs, ht, hw⟩ := h
  obtain ⟨hf, hi, -⟩ | ⟨hf, hi, -⟩ := q.advance_cases c n
  · rw [Queues.sourceFirst_iff] at hf
    exact .inl (by omega)
  · rw [Bool.eq_false_iff, ne_eq, Queues.sourceFirst_iff] at hf
    exact .inr (by omega)

/-- From sorted queues `take()` returns a node with a least key of those that wait (R162, R169 (d)). -/
theorem Queues.Sorted.front_le (h : q.Sorted c n) {j : Nat} (hj : q.Waits n j) :
    nodeKey c (q.nodeAt (q.front c n)) ≤ nodeKey c (q.nodeAt j) := by
  have hsource : q.sHead ≤ j ∧ j < n → nodeKey c (q.nodeAt q.sHead) ≤ nodeKey c (q.nodeAt j) := fun ⟨hle, hlt⟩ =>
    h.source ⟨le_rfl, hle.trans_lt hlt⟩ ⟨hle, hlt⟩ hle
  have htarget : q.tHead ≤ j ∧ j < q.pool.length → nodeKey c (q.nodeAt q.tHead) ≤ nodeKey c (q.nodeAt j) :=
    fun ⟨hle, hlt⟩ => h.target ⟨le_rfl, hle.trans_lt hlt⟩ ⟨hle, hlt⟩ hle
  rw [Queues.Waits] at hj
  obtain ⟨hf, hi, -⟩ | ⟨hf, hi, -⟩ := q.advance_cases c n
  · rw [Queues.sourceFirst_iff] at hf
    rw [hi]
    omega
  · rw [Bool.eq_false_iff, ne_eq, Queues.sourceFirst_iff] at hf
    rw [hi]
    omega

theorem Queues.Waits.lt_length {j : Nat} (h : q.Waits n j) (hn : n ≤ q.pool.length) : j < q.pool.length := by
  rw [Queues.Waits] at h
  omega

/-- What waits after a merge waited after its second `take()`, or is the new node. -/
theorem Queues.waits_merge {j : Nat} (h : (q.merge c n).Waits n j) :
    ((q.advance c n).advance c n).Waits n j ∨ j = q.pool.length := by
  simp only [Queues.Waits, Queues.merge, List.length_append, List.length_singleton, Queues.advance_pool] at h ⊢
  omega

theorem mergedQueues_le_tHead (c : Config) (slist : Memory SortEntry) (n m : Nat) :
    n ≤ (mergedQueues c slist n m).tHead := by
  induction m with
  | zero => exact (mergedQueues_zero_heads c slist n).2.ge
  | succ m ih =>
    rw [mergedQueues_succ]
    exact ih.trans (Queues.heads_le_advance.2.trans Queues.heads_le_advance.2)

end LeastKeys

section KeyOrder
variable {s : State} (h : Inv s) (hp : s.phase = .built ∨ s.phase = .coded)
include h hp

theorem Inv.nodeKey_mergedQueues {m j : Nat} (hm : m < s.ndist.toNat) (hj : j < s.ndist.toNat + m) :
    nodeKey s.cfg ((mergedQueues s.cfg s.slist s.ndist.toNat m).nodeAt j) = mergeKey s j := by
  rw [← h.nodeAt_eq_mergedQueues hp hm hj]
  rfl

/-- While the internal nodes are created in the order of their keys the queues are sorted. -/
theorem Inv.sorted_mergedQueues {m : Nat} (hm : m < s.ndist.toNat)
    (horder : MonotoneOn (mergeKey s) (Set.Ico s.ndist.toNat (s.ndist.toNat + m))) :
    (mergedQueues s.cfg s.slist s.ndist.toNat m).Sorted s.cfg s.ndist.toNat := by
  have hhead := mergedQueues_le_tHead s.cfg s.slist s.ndist.toNat m
  refine ⟨fun i ⟨hi, hi'⟩ j ⟨hj, hj'⟩ hij => ?_, fun i ⟨hi, hi'⟩ j ⟨hj, hj'⟩ hij => ?_⟩
  · simp only [h.nodeKey_mergedQueues hp hm (hi'.trans_le (Nat.le_add_right ..)),
      h.nodeKey_mergedQueues hp hm (hj'.trans_le (Nat.le_add_right ..))]
    exact h.mergeKey_leaf_mono hp hi' hj' hij
  · rw [mergedQueues_length] at hi' hj'
    simp only [h.nodeKey_mergedQueues hp hm hi', h.nodeKey_mergedQueues hp hm hj']
    exact horder ⟨hhead.trans hi, hi'⟩ ⟨hhead.trans hj, hj'⟩ hij

/-- The children of a merge wait before it. -/
theorem Inv.waits_children {m : Nat} (hm : m + 1 < s.ndist.toNat) :
    let q := mergedQueues s.cfg s.slist s.ndist.toNat m
    q.Waits s.ndist.toNat (nodeAt s (s.ndist.toNat + m)).left.toNat ∧
      (q.advance s.cfg s.ndist.toNat).Waits s.ndist.toNat (nodeAt s (s.ndist.toNat + m)).right.toNat := by
  intro q
  obtain ⟨-, hleft, hright, -⟩ := h.nodeAt_internal hp hm
  rw [hleft, hright]
  have hw : q.Within _ _ := mergedQueues_within_two s.cfg s.slist hm
  exact ⟨hw.waits_front, (hw.advance (by simp [q])).1.waits_front⟩

/-- From sorted queues a merge takes as its left child a least key of those that wait, and as its right child a least
key of those that are left. -/
theorem Inv.children_le_waiting {m : Nat} (hm : m + 1 < s.ndist.toNat)
    (horder : MonotoneOn (mergeKey s) (Set.Ico s.ndist.toNat (s.ndist.toNat + m))) :
    let q := mergedQueues s.cfg s.slist s.ndist.toNat m
    let node := nodeAt s (s.ndist.toNat + m)
    (∀ j, q.Waits s.ndist.toNat j → mergeKey s node.left.toNat ≤ mergeKey s j) ∧
      ∀ j, (q.advance s.cfg s.ndist.toNat).Waits s.ndist.toNat j → mergeKey s node.right.toNat ≤ mergeKey s j := by
  intro q node
  have hsorted : q.Sorted s.cfg s.ndist.toNat := h.sorted_mergedQueues hp (by omega) horder
  have hkey : ∀ j, q.Waits s.ndist.toNat j → nodeKey s.cfg (q.nodeAt j) = mergeKey s j := fun j hj =>
    h.nodeKey_mergedQueues hp (by omega) ((hj.lt_length (by simp [q])).trans_eq (by simp [q]))
  obtain ⟨hleft, hright⟩ := h.waits_children hp hm
  obtain ⟨-, hfront, hfront', -⟩ := h.nodeAt_internal hp hm
  refine ⟨fun j hj => ?_, fun j hj => ?_⟩
  · have hle := hsorted.front_le hj
    rwa [← hfront, hkey _ hleft, hkey _ hj] at hle
  · have hle := hsorted.advance.front_le hj
    rwa [← hfront', Queues.nodeAt_advance, Queues.nodeAt_advance, hkey _ hright.of_advance, hkey _ hj.of_advance] at hle

/-- After a merge from sorted queues no node that waits has a smaller key than either child. -/
theorem Inv.children_le_waiting_succ {m : Nat} (hm : m + 1 < s.ndist.toNat)
    (horder : MonotoneOn (mergeKey s) (Set.Ico s.ndist.toNat (s.ndist.toNat + m))) {j : Nat}
    (hj : (mergedQueues s.cfg s.slist s.ndist.toNat (m + 1)).Waits s.ndist.toNat j) :
    let node := nodeAt s (s.ndist.toNat + m)
    mergeKey s node.left.toNat ≤ mergeKey s j ∧ mergeKey s node.right.toNat ≤ mergeKey s j := by
  rw [mergedQueues_succ] at hj
  obtain hj | rfl := Queues.waits_merge hj
  · obtain ⟨hleft, hright⟩ := h.children_le_waiting hp hm horder
    exact ⟨hleft j hj.of_advance.of_advance, hright j hj.of_advance⟩
  · rw [mergedQueues_length]
    exact h.mergeKey_child_le hp hm

/-- Each merge from sorted queues creates a key no smaller than the merge before it: both its children waited then. -/
theorem Inv.mergeKey_le_succ {m : Nat} (hm : m + 2 < s.ndist.toNat)
    (horder : MonotoneOn (mergeKey s) (Set.Ico s.ndist.toNat (s.ndist.toNat + m))) :
    mergeKey s (s.ndist.toNat + m) ≤ mergeKey s (s.ndist.toNat + (m + 1)) := by
  obtain ⟨hleft, hright⟩ := h.waits_children hp (m := m + 1) hm
  refine h.mergeKey_parent_mono hp (by omega) hm (add_le_add ?_ ?_)
  · exact (h.children_le_waiting_succ hp (by omega) horder hleft).1
  · exact (h.children_le_waiting_succ hp (by omega) horder hright.of_advance).2

/-- The internal nodes that the first `m` merges create are in the order of their keys. -/
theorem Inv.mergeKey_internal_mono {m : Nat} (hm : m < s.ndist.toNat) :
    MonotoneOn (mergeKey s) (Set.Ico s.ndist.toNat (s.ndist.toNat + m)) := by
  induction m with
  | zero => simp [MonotoneOn]
  | succ m ih =>
    have horder := ih (by omega)
    rintro i ⟨hi, -⟩ j ⟨hj, hj'⟩ hij
    obtain hj' | rfl := Nat.lt_succ_iff_lt_or_eq.1 hj'
    · exact horder ⟨hi, hij.trans_lt hj'⟩ ⟨hj, hj'⟩ hij
    obtain rfl | hlt := hij.eq_or_lt
    · exact le_rfl
    cases m with
    | zero => omega
    | succ m =>
      calc mergeKey s i ≤ mergeKey s (s.ndist.toNat + m) :=
            horder ⟨hi, hlt⟩ ⟨Nat.le_add_right .., Nat.lt_succ_self _⟩ (Nat.le_of_lt_succ hlt)
        _ ≤ mergeKey s (s.ndist.toNat + (m + 1)) :=
            h.mergeKey_le_succ hp hm (horder.mono (Set.Ico_subset_Ico_right (Nat.le_succ _)))

end KeyOrder

/-- Settles O44: the keys of the internal nodes are in order as far as the merges have gone. -/
theorem internalKeysNeverDecrease : Obligations.InternalKeysNeverDecrease := by
  intro s h hp j hj hlt
  obtain ⟨hn, -, -, hnnodes, -⟩ := h.built_eq hp
  exact h.mergeKey_internal_mono hp (m := s.ndist.toNat - 1) (by omega) ⟨hj, by omega⟩ ⟨by omega, by omega⟩
    (Nat.le_succ j)

end Sys2Proof.Machine
end

section
/-! PROOFS. The codebook: the codeword a CODE entry holds, the paths of the tree, none of which begins another, and
their Kraft equality, and GENCODE (43_codebook.md rules R180-R184). -/

namespace Sys2Proof.Machine

section Codewords

@[simp] theorem bitsValue_append_singleton (p : List Bool) (b : Bool) :
    bitsValue (p ++ [b]) = Nat.bit b (bitsValue p) := by
  simp [bitsValue, Nat.bit_val]

theorem bitsValue_lt (p : List Bool) : bitsValue p < 2 ^ p.length := by
  induction p using List.reverseRecOn with
  | nil => decide
  | append_singleton p b ih =>
    rw [bitsValue_append_singleton, Nat.bit_val, List.length_append, List.length_singleton, Nat.pow_succ]
    have := b.toNat_le
    omega

/-- The last bit of a bit string is the least significant one of its value (R12). -/
theorem bitsValue_testBit (p : List Bool) (k : Nat) : (bitsValue p).testBit k = p.reverse.getD k false := by
  induction p using List.reverseRecOn generalizing k with
  | nil => simp [bitsValue]
  | append_singleton p b ih =>
    rw [bitsValue_append_singleton, List.reverse_concat]
    cases k with
    | zero => exact Nat.testBit_bit_zero ..
    | succ k => rw [Nat.testBit_bit_succ, ih, List.getD_cons_succ]

theorem codeEntry_len {p : List Bool} (hp : p.length < 256) (c : Config) :
    (codeEntry c p).len.toNat = p.length := by
  rw [codeEntry, BitVec.toNat_ofNat, Nat.mod_eq_of_lt hp]

theorem length_codeword (e : CodeEntry) : (codeword e).length = e.len.toNat := by simp [codeword]

/-- The entry stored for a path that fits in MAXLEN bits holds that path (R180, R47). -/
theorem codeword_codeEntry {c : Config} (hwf : c.wf = true) {p : List Bool} (hp : p.length ≤ maxLength c) :
    codeword (codeEntry c p) = p := by
  have hns := nsym_of_wf hwf
  rw [maxLength] at hp
  have hlen := codeEntry_len (p := p) (by omega) c
  have hv : bitsValue p % 2 ^ maxLength c = bitsValue p :=
    Nat.mod_eq_of_lt ((bitsValue_lt p).trans_le (Nat.pow_le_pow_right Nat.two_pos hp))
  refine List.ext_getElem (by rw [length_codeword, hlen]) fun k _ hk => ?_
  have hbit : p.reverse.getD (p.length - 1 - k) false = p[k] := by
    rw [List.getD_eq_getElem _ _ (by rw [List.length_reverse]; omega), List.getElem_reverse]
    congr 1
    omega
  simp only [codeword, List.getElem_map, List.getElem_range, hlen]
  rw [codeEntry, BitVec.getLsbD_ofNat, hv, bitsValue_testBit, hbit, decide_eq_true (by omega), Bool.true_and]

end Codewords

section PathCodes
variable {node : Nat → Node} {top : Nat}

theorem follow_append (j : Nat) (p q : List Bool) :
    follow node j (p ++ q) = (follow node j p).bind fun k => follow node k q := by
  induction p generalizing j with
  | nil => rfl
  | cons b p ih =>
    rw [List.cons_append, follow, follow]
    split
    · rfl
    · exact ih _

/-- No path goes on below a leaf. -/
theorem eq_nil_of_follow_leaf {j k : Nat} (hleaf : (node j).leaf = true) {p : List Bool}
    (h : follow node j p = some k) : p = [] := by
  cases p with
  | nil => rfl
  | cons b p => simp [follow, hleaf] at h

/-- A path to a leaf begins no other path to a leaf: paths diverge at every internal node (R184). -/
theorem eq_of_prefix_of_mem_leafPaths (h : ChildrenBelow node top) {j : Nat} (hj : j < top) {e e' : Nat × List Bool}
    (he : e ∈ leafPaths node j) (he' : e' ∈ leafPaths node j) (hprefix : e.2 <+: e'.2) : e = e' := by
  obtain ⟨hfollow, hleaf, -⟩ := of_mem_leafPaths h hj he
  obtain ⟨hfollow', -⟩ := of_mem_leafPaths h hj he'
  obtain ⟨q, hq⟩ := hprefix
  rw [← hq, follow_append, hfollow] at hfollow'
  obtain rfl := eq_nil_of_follow_leaf hleaf hfollow'
  exact Prod.ext (Option.some.inj hfollow') (by simpa using hq)

/-- The Kraft equality below node `j`, scaled by a power of 2 that no path below it is too long for: each internal node
shares its half between its two children (R184). -/
theorem kraft_leafPaths (h : ChildrenBelow node top) {j : Nat} (hj : j < top) {d : Nat}
    (hd : (leafPaths node j).length ≤ d + 1) :
    ((leafPaths node j).map fun e => 2 ^ (d - e.2.length)).sum = 2 ^ d := by
  induction j, hj using h.induction generalizing d with
  | leaf j _ hleaf => simp [leafPaths_leaf hleaf]
  | internal j hj hleaf hl hr ihl ihr =>
    have hlpos := leafPaths_length_pos h (hl.trans hj)
    have hrpos := leafPaths_length_pos h (hr.trans hj)
    rw [leafPaths_internal hleaf hl hr, List.length_append, length_underPath, length_underPath] at hd
    obtain ⟨d, rfl⟩ : ∃ d', d = d' + 1 := ⟨d - 1, by omega⟩
    have hchild (b : Bool) (paths : List (Nat × List Bool)) :
        ((underPath [b] paths).map fun e => 2 ^ (d + 1 - e.2.length)) =
          paths.map fun e => 2 ^ (d - e.2.length) := by
      simp [underPath, Function.comp_def]
    rw [leafPaths_internal hleaf hl hr, List.map_append, List.sum_append, hchild, hchild, ihl (by omega),
      ihr (by omega), Nat.pow_succ, Nat.mul_two]

end PathCodes

section Codebook
variable {s : State} (h : Inv s)
include h

/-- A leaf has one path from ROOT. -/
theorem Inv.rootPath_unique (hp : s.phase = .built ∨ s.phase = .coded) {e e' : Nat × List Bool}
    (he : e ∈ leafPaths (nodeAt s) s.root.toNat) (he' : e' ∈ leafPaths (nodeAt s) s.root.toNat)
    (hleaf : e.1 = e'.1) : e = e' := by
  have hnodup : (leavesBelow (nodeAt s) s.root.toNat).Nodup := h.leavesBelow_root hp ▸ Multiset.nodup_range _
  exact List.inj_on_of_nodup_map (Multiset.coe_nodup.1 hnodup) he he' hleaf

/-- A sum over the leaves is one over the paths from ROOT. -/
theorem Inv.sum_rootPaths (hp : s.phase = .built ∨ s.phase = .coded) (f : Nat → Nat) :
    ∑ k ∈ Finset.range s.ndist.toNat, f k =
      ((leafPaths (nodeAt s) s.root.toNat).map fun e => f e.1).sum := by
  rw [Finset.sum, Finset.range_val, ← h.leavesBelow_root hp, leavesBelow, Multiset.map_coe, Multiset.sum_coe,
    List.map_map]
  rfl

/-- A sum over the symbols that is 0 off SLIST is one over the entries of SLIST. -/
theorem Inv.sum_listedSymbols (hp : s.phase ≠ .opened) {f : Nat → Nat}
    (hf : ∀ i, (∀ k, k < s.ndist.toNat → (slistAt s k).sym.toNat ≠ i) → f i = 0) :
    ∑ i ∈ Finset.range s.cfg.nsym, f i = ∑ k ∈ Finset.range s.ndist.toNat, f (slistAt s k).sym.toNat := by
  have hinj : Set.InjOn (fun k => (slistAt s k).sym.toNat) (Finset.range s.ndist.toNat) := fun i hi j hj hij =>
    h.slistAt_sym_inj hp (Finset.mem_range.1 hi) (Finset.mem_range.1 hj) (BitVec.eq_of_toNat_eq hij)
  rw [← Finset.sum_image (f := f) hinj]
  refine (Finset.sum_subset (fun i hi => ?_) fun i _ hi => hf i fun k hk hsym => hi ?_).symm
  · obtain ⟨k, hk, rfl⟩ := Finset.mem_image.1 hi
    exact Finset.mem_range.2 (h.slistAt_counted hp (Finset.mem_range.1 hk)).1
  · exact Finset.mem_image.2 ⟨k, Finset.mem_range.2 hk, hsym⟩

/-- CODE at the symbol of a leaf holds the path to the leaf (R181). -/
theorem Inv.codeAt_rootPath (hp : s.phase = .coded) {e : Nat × List Bool}
    (he : e ∈ leafPaths (nodeAt s) s.root.toNat) :
    codeAt s (slistAt s e.1).sym.toNat = codeEntry s.cfg e.2 := by
  obtain ⟨hlt, -⟩ := h.sym_of_mem_rootPaths (.inr hp) he
  obtain ⟨e', he', hsym, hcode⟩ | ⟨hnone, -⟩ := h.codeAt_cases hp (slistAt s e.1).sym.toNat
  · obtain ⟨hlt', -⟩ := h.sym_of_mem_rootPaths (.inr hp) he'
    have hleaf := h.slistAt_sym_inj (by simp [hp]) hlt' hlt (BitVec.eq_of_toNat_eq hsym)
    rw [hcode, h.rootPath_unique (.inr hp) he' he hleaf]
  · exact absurd rfl (hnone _ hlt)

/-- The path to a leaf fits in a CODE entry, which holds it as its codeword (R181, R183). -/
theorem Inv.codeEntry_rootPath (hp : s.phase = .coded) {e : Nat × List Bool}
    (he : e ∈ leafPaths (nodeAt s) s.root.toNat) :
    (codeEntry s.cfg e.2).len.toNat = e.2.length ∧ codeword (codeEntry s.cfg e.2) = e.2 := by
  obtain ⟨-, hns⟩ := h.ndist_bounds (by simp [hp])
  obtain ⟨-, hlt⟩ := h.rootPath_bounds (.inr hp) he
  have h256 := nsym_of_wf h.control.config
  exact ⟨codeEntry_len (by omega) _, codeword_codeEntry h.control.config (by rw [maxLength]; omega)⟩

/-- The path to a leaf leads to it from ROOT. -/
theorem Inv.leadsTo_rootPath (hp : s.phase = .coded) {e : Nat × List Bool}
    (he : e ∈ leafPaths (nodeAt s) s.root.toNat) : leadsTo s e.2 e.1 := by
  obtain ⟨hn, -, -, -, hroot⟩ := h.built_eq (.inr hp)
  obtain ⟨hfollow, hleaf, -⟩ := of_mem_leafPaths (h.childrenBelow (.inr hp)) (by omega) he
  exact ⟨(h.rootPath_bounds (.inr hp) he).1, hfollow, hleaf⟩

/-- MAXLEN is the length of a longest path from ROOT (R183). -/
theorem Inv.exists_rootPath_length_eq_maxlen (hp : s.phase = .coded) :
    ∃ e ∈ leafPaths (nodeAt s) s.root.toNat, e.2.length = s.maxlen.toNat := by
  obtain ⟨hn, -⟩ := h.built_eq (.inr hp)
  obtain ⟨hle, -⟩ := h.maxlen_bounds hp
  by_contra! hne
  obtain ⟨e, he, -⟩ := (h.exists_rootPath_iff (.inr hp) 0).2 (by omega)
  have hlt : recordLongest 0 (leafPaths (nodeAt s) s.root.toNat) ≤ s.maxlen.toNat - 1 :=
    recordLongest_le_iff.2 ⟨Nat.zero_le _, fun e he => Nat.le_sub_one_of_lt ((hle e he).lt_of_ne (hne e he))⟩
  have hmaxlen : s.maxlen.toNat ≤ recordLongest 0 (leafPaths (nodeAt s) s.root.toNat) := by
    rw [(h.pipeline.coded hp).2, h.codebook_eq (.inr hp)]
    exact ofNat_toNat_le _
  have hpos := (hle e he).lt_of_ne (hne e he)
  omega

/-- CODE at the symbol of a leaf: valid, with the codeword that leads from ROOT to the leaf (R181, R183). -/
theorem Inv.codeAt_listed (hp : s.phase = .coded) {k : Nat} (hk : k < s.ndist.toNat) :
    (codeAt s (slistAt s k).sym.toNat).valid = true ∧
      leadsTo s (codeword (codeAt s (slistAt s k).sym.toNat)) k ∧
      (codeAt s (slistAt s k).sym.toNat).len.toNat ≤ s.maxlen.toNat := by
  obtain ⟨e, he, rfl⟩ := (h.exists_rootPath_iff (.inr hp) k).2 hk
  obtain ⟨hlen, hword⟩ := h.codeEntry_rootPath hp he
  rw [h.codeAt_rootPath hp he, hlen, hword]
  exact ⟨rfl, h.leadsTo_rootPath hp he, (h.maxlen_bounds hp).1 e he⟩

/-- A codeword of MAXLEN bits (R183). -/
theorem Inv.exists_codeAt_len_eq_maxlen (hp : s.phase = .coded) :
    ∃ k, k < s.ndist.toNat ∧ (codeAt s (slistAt s k).sym.toNat).len.toNat = s.maxlen.toNat := by
  obtain ⟨e, he, hlongest⟩ := h.exists_rootPath_length_eq_maxlen hp
  refine ⟨e.1, (h.exists_rootPath_iff (.inr hp) e.1).1 ⟨e, he, rfl⟩, ?_⟩
  rw [h.codeAt_rootPath hp he, (h.codeEntry_rootPath hp he).1, hlongest]

/-- A symbol that is not listed has a zero entry (R182). -/
theorem Inv.codeAt_unlisted (hp : s.phase = .coded) {i : Nat}
    (hi : ∀ k, k < s.ndist.toNat → (slistAt s k).sym.toNat ≠ i) : codeAt s i = .zero := by
  obtain ⟨e, he, hsym, -⟩ | ⟨-, hzero⟩ := h.codeAt_cases hp i
  · exact absurd hsym (hi e.1 ((h.exists_rootPath_iff (.inr hp) e.1).1 ⟨e, he, rfl⟩))
  · exact hzero

/-- The codeword of a valid entry is the path to the leaf of its symbol. -/
theorem Inv.rootPath_of_valid (hp : s.phase = .coded) {i : Nat} (hi : (codeAt s i).valid = true) :
    ∃ e ∈ leafPaths (nodeAt s) s.root.toNat, (slistAt s e.1).sym.toNat = i ∧ codeword (codeAt s i) = e.2 := by
  obtain ⟨e, he, hsym, hcode⟩ | ⟨-, hzero⟩ := h.codeAt_cases hp i
  · exact ⟨e, he, hsym, hcode ▸ (h.codeEntry_rootPath hp he).2⟩
  · rw [hzero] at hi
    cases hi

/-- A codeword begins its own symbol's codeword only (R184). -/
theorem Inv.eq_of_codeword_prefix (hp : s.phase = .coded) {i j : Nat} (hi : (codeAt s i).valid = true)
    (hj : (codeAt s j).valid = true) (hprefix : codeword (codeAt s i) <+: codeword (codeAt s j)) : i = j := by
  obtain ⟨hn, -, -, -, hroot⟩ := h.built_eq (.inr hp)
  obtain ⟨e, he, rfl, hword⟩ := h.rootPath_of_valid hp hi
  obtain ⟨e', he', rfl, hword'⟩ := h.rootPath_of_valid hp hj
  rw [hword, hword'] at hprefix
  rw [eq_of_prefix_of_mem_leafPaths (h.childrenBelow (.inr hp)) (by omega) he he' hprefix]

/-- The Kraft equality of the codebook, scaled by `2^255`: the leaves' shares are those of their paths (R184). -/
theorem Inv.kraft_codeAt (hp : s.phase = .coded) :
    (∑ i ∈ Finset.range s.cfg.nsym,
      if (codeAt s i).valid then 2 ^ (255 - (codeAt s i).len.toNat) else 0) = 2 ^ 255 := by
  obtain ⟨hn, hns, -, -, hroot⟩ := h.built_eq (.inr hp)
  have h256 := nsym_of_wf h.control.config
  rw [h.sum_listedSymbols (by simp [hp]) fun i hi => by rw [h.codeAt_unlisted hp hi]; rfl, h.sum_rootPaths (.inr hp),
    ← kraft_leafPaths (h.childrenBelow (.inr hp)) (j := s.root.toNat) (by omega) (d := 255)
    (by rw [h.rootPaths_length (.inr hp)]; omega)]
  refine congrArg List.sum (List.map_congr_left fun e he => ?_)
  rw [h.codeAt_rootPath hp he, (h.codeEntry_rootPath hp he).1]
  rfl

end Codebook

/-- Settles O46: the valid entries hold the paths to the leaves of one binary tree. -/
theorem codebookIsPrefixFree : Obligations.CodebookIsPrefixFree := by
  intro s h hp
  exact ⟨fun i j hij hi hj hprefix => hij (h.eq_of_codeword_prefix hp hi hj hprefix), h.kraft_codeAt hp⟩

/-- Settles O45: a successful GENCODE keeps the invariant, which says what CODE holds of the tree that GENCODE leaves
as it was. -/
theorem gencodeRecordsThePaths : Obligations.GencodeRecordsThePaths := by
  intro s hp
  refine ⟨_, if_neg (not_not.2 hp), rfl, fun h => ?_⟩
  have hcoded := h.of_gencode hp
  refine ⟨fun k hk => ?_, hcoded.exists_codeAt_len_eq_maxlen rfl, fun i hi => hcoded.codeAt_unlisted rfl hi⟩
  obtain ⟨hvalid, hleads, hlen⟩ := hcoded.codeAt_listed rfl hk
  exact ⟨hvalid, hleads, length_codeword _, hlen⟩

end Sys2Proof.Machine
end

section
/-! PROOFS. The packer: ENC_START, ENC_SYM and ENC_FINISH, the bit string that the bytes of PACK hold, and the shape of
the padded payload (44_pack.md rules R190-R197). -/

namespace Sys2Proof.Machine

/-- A command out of its phase or encoder state raises SEQUENCE and has no other effect (10_state.md rule R27). -/
theorem exec_of_not_allowed {i : Instr} {s : State} (hp : phaseAllows s i = false) (herr : s.err = false) :
    exec i s = .next (completed (withError .sequence (encode i) s)) := by
  obtain ⟨u, hu⟩ := exec_completes i s
  obtain ⟨hsequence, -⟩ := commandsFollowThePhaseTable.1 i s _ herr hu
  rw [hu, hsequence hp]

section OpenEncode
variable {s : State}

/-- ENC_START needs a CODED phase without an open encode (R27). -/
theorem encStart_not_allowed (h : s.phase ≠ .coded ∨ s.enc = .active) : phaseAllows s .encStart = false := by
  rcases h with h | h <;> simp [phaseAllows, h]

/-- ENC_SYM needs an open encode (R27). -/
theorem encSym_not_allowed (sym : Byte) (h : s.phase ≠ .coded ∨ s.enc = .idle) :
    phaseAllows s (.encSym sym) = false := by
  rcases h with h | h <;> simp [phaseAllows, h]

/-- ENC_FINISH needs what ENC_SYM needs (R27). -/
theorem encFinish_not_allowed (h : s.phase ≠ .coded ∨ s.enc = .idle) : phaseAllows s .encFinish = false :=
  encSym_not_allowed 0 h

/-- An encode is open: the first branch of ENC_SYM and ENC_FINISH is not taken. -/
theorem encode_open (hp : s.phase = .coded) (henc : s.enc = .active) :
    ¬ (s.phase ≠ .coded ∨ s.enc ≠ .active) := by simp [hp, henc]

/-- A successful ENC_START (R190). -/
theorem exec_encStart_of_idle (hp : s.phase = .coded) (henc : s.enc = .idle) :
    exec .encStart s = .next (completed { s with
      payload := [], encBits := 0, packLen := 0, pad := 0, enc := .active }) :=
  if_neg (by simp [hp, henc])

/-- Settles O47, by the two branches of ENC_START. -/
theorem encStartOpensAnEncode : Obligations.EncStartOpensAnEncode := fun _ =>
  ⟨exec_encStart_of_idle, fun herr h => exec_of_not_allowed (encStart_not_allowed h) herr⟩

variable {sym : Byte}

/-- ENC_SYM of a symbol without a codeword (R191, R195). -/
theorem exec_encSym_of_unknown (hp : s.phase = .coded) (henc : s.enc = .active)
    (hsym : s.cfg.nsym ≤ sym.toNat ∨ (codeAt s sym.toNat).valid = false) :
    exec (.encSym sym) s = .next (raiseWith .unknownSymbol (encode (.encSym sym)) abortEncode s) :=
  (if_neg (encode_open hp henc)).trans (if_pos hsym)

/-- A symbol of the alphabet with a valid entry is not unknown (R191). -/
theorem symbol_known (hsym : sym.toNat < s.cfg.nsym) (hvalid : (codeAt s sym.toNat).valid = true) :
    ¬ (s.cfg.nsym ≤ sym.toNat ∨ (codeAt s sym.toNat).valid = false) := by simp [hsym, hvalid]

theorem length_append_codeword (p : List Bool) (e : CodeEntry) :
    (p ++ codeword e).length = p.length + e.len.toNat := by
  rw [List.length_append, length_codeword]

/-- ENC_SYM of a codeword that PAYLOAD has no room for (R191, R195). -/
theorem exec_encSym_of_full (hp : s.phase = .coded) (henc : s.enc = .active) (hsym : sym.toNat < s.cfg.nsym)
    (hvalid : (codeAt s sym.toNat).valid = true)
    (hlong : payloadMax s.cfg < s.payload.length + (codeAt s sym.toNat).len.toNat) :
    exec (.encSym sym) s = .next (raiseWith .capacity (encode (.encSym sym)) abortEncode s) :=
  (if_neg (encode_open hp henc)).trans <| (if_neg (symbol_known hsym hvalid)).trans <|
    if_pos (by rwa [length_append_codeword])

/-- A successful ENC_SYM (R191). -/
theorem exec_encSym_of_room (hp : s.phase = .coded) (henc : s.enc = .active) (hsym : sym.toNat < s.cfg.nsym)
    (hvalid : (codeAt s sym.toNat).valid = true)
    (hroom : s.payload.length + (codeAt s sym.toNat).len.toNat ≤ payloadMax s.cfg) :
    exec (.encSym sym) s = .next (completed { s with
      payload := s.payload ++ codeword (codeAt s sym.toNat)
      encBits := BitVec.ofNat 32 (s.payload ++ codeword (codeAt s sym.toNat)).length }) :=
  (if_neg (encode_open hp henc)).trans <| (if_neg (symbol_known hsym hvalid)).trans <|
    if_neg (by rwa [length_append_codeword, not_lt])

/-- An abort raised with no error recorded (R195). -/
theorem raiseWith_abortEncode_of_unrecorded (e : ErrCode) (info : Word) (herr : s.err = false) :
    raiseWith e info abortEncode s = completed (encodeAborted (withError e info s)) := by
  rw [raiseWith_eq, record_of_unrecorded e info herr, complete_eq_completed]
  rfl

/-- Settles O48, branch by branch of ENC_SYM; a payload that PAYLOAD has room for has its length in ENC_BITS. -/
theorem encSymAppendsOrAborts : Obligations.EncSymAppendsOrAborts := by
  refine fun s sym hwf => ⟨fun hp henc hsym hvalid hroom => ?_, fun herr =>
    ⟨fun h => exec_of_not_allowed (encSym_not_allowed sym h) herr, fun hp henc hsym => ?_,
      fun hp henc hsym hvalid hlong => ?_⟩⟩
  · refine ⟨_, exec_encSym_of_room hp henc hsym hvalid hroom, rfl, ?_, rfl⟩
    rw [← length_append_codeword] at hroom
    exact (BitVec.toNat_ofNat ..).trans (Nat.mod_eq_of_lt (hroom.trans_lt (payloadMax_lt hwf)))
  · rw [exec_encSym_of_unknown hp henc hsym, raiseWith_abortEncode_of_unrecorded _ _ herr]
  · rw [exec_encSym_of_full hp henc hsym hvalid hlong, raiseWith_abortEncode_of_unrecorded _ _ herr]

end OpenEncode

section Bytes

/-- `bits8(byte(p)) = p` for a bit string of 8 bits (R12). -/
theorem bits8_byteOf {p : List Bool} (hp : p.length = 8) : bits8 (byteOf p) = p := by
  refine List.ext_getElem (by simp [bits8, hp]) fun k _ hk => ?_
  have hbit : p.reverse.getD (7 - k) false = p[k] := by
    rw [List.getD_eq_getElem _ _ (by rw [List.length_reverse]; omega), List.getElem_reverse]
    congr 1
    omega
  simp only [bits8, byteOf, List.getElem_map, List.getElem_range]
  rw [BitVec.getLsbD_ofNat, bitsValue_testBit, hbit, decide_eq_true (by omega), Bool.true_and]

/-- The bytes of a bit string of whole bytes hold its bits in order (R92, R194). -/
theorem flatMap_bits8_bytesOf {l : List Bool} (hl : l.length % 8 = 0) : (bytesOf l).flatMap bits8 = l := by
  induction l using bytesOf.induct with
  | case1 b0 b1 b2 b3 b4 b5 b6 b7 l ih =>
    simp only [List.length_cons] at hl
    rw [bytesOf, List.flatMap_cons, bits8_byteOf rfl, ih (by omega)]
    rfl
  | case2 l hshort =>
    rcases Nat.lt_or_ge l.length 8 with hlt | hge
    · obtain rfl : l = [] := List.length_eq_zero_iff.1 (by omega)
      rfl
    · refine (hshort l[0] l[1] l[2] l[3] l[4] l[5] l[6] l[7] (l.drop 8) ?_).elim
      simp only [List.getElem_cons_drop, List.drop_zero]

theorem length_bytesOf {l : List Bool} (hl : l.length % 8 = 0) : 8 * (bytesOf l).length = l.length := by
  have hlen := congrArg List.length (flatMap_bits8_bytesOf hl)
  rw [← hlen]
  simp [bits8, Nat.mul_comm]

end Bytes

section Streams
variable (s : State)

theorem streamBits_succ (n : Nat) : streamBits s (n + 1) = streamBits s n ++ bits8 (packAt s n) := by
  simp [streamBits, List.range_succ]

theorem length_streamBits (n : Nat) : (streamBits s n).length = 8 * n := by
  simp [streamBits, bits8, Nat.mul_comm]

/-- Bit `7 - b` of byte `i` is bit `8i + b` of the stream (R92). -/
theorem streamBits_getD {n i b : Nat} (hi : i < n) (hb : b < 8) :
    (streamBits s n).getD (8 * i + b) false = (packAt s i).getLsbD (7 - b) := by
  induction n with
  | zero => omega
  | succ n ih =>
    have hlen := length_streamBits s n
    rw [streamBits_succ]
    rcases Nat.lt_succ_iff_lt_or_eq.1 hi with hlt | rfl
    · rw [List.getD_append _ _ _ _ (by omega), ih hlt]
    · rw [List.getD_append_right _ _ _ _ (by omega), hlen, Nat.add_sub_cancel_left,
        List.getD_eq_getElem _ _ (by simpa [bits8] using hb)]
      simp [bits8]

variable {s}

/-- The stream of bytes known one by one. -/
theorem streamBits_eq_flatMap {l : List Byte} (h : ∀ i (hi : i < l.length), packAt s i = l[i]) :
    streamBits s l.length = l.flatMap bits8 := by
  have hbytes : (List.range l.length).map (packAt s) = l :=
    List.ext_getElem (by simp) fun i _ hi => by simp [h i hi]
  conv_rhs => rw [← hbytes, List.flatMap_map]
  rfl

end Streams

section Padding
variable (p : List Bool)

theorem length_padded : (padded p).length = 8 * (p.length / 8 + 1) := by
  simp only [padded, padCount, List.length_append, List.length_replicate, List.length_singleton]
  omega

theorem padCount_pos (len : Nat) : 1 ≤ padCount len := by rw [padCount]; omega

theorem padCount_le (len : Nat) : padCount len ≤ 8 := Nat.sub_le ..

/-- What is past the padding is the payload (R196). -/
theorem drop_padded : (padded p).drop (padCount p.length) = p := by
  have hpos := padCount_pos p.length
  exact List.drop_left' (by simp; omega)

/-- The padding is zeros and then the marker bit (R193). -/
theorem padded_getD {k : Nat} (hk : k < padCount p.length) :
    (padded p).getD k false = decide (k = padCount p.length - 1) := by
  rw [padded, List.getD_append _ _ _ _ (by simp; omega)]
  rcases Nat.lt_or_ge k (padCount p.length - 1) with hlt | hge
  · rw [List.getD_append _ _ _ _ (by simpa using hlt), List.getD_replicate _ hlt, decide_eq_false hlt.ne]
  · obtain rfl : k = padCount p.length - 1 := by omega
    simp

theorem findIdx?_padded : (padded p).findIdx? (fun b => b) = some (padCount p.length - 1) := by
  simp [padded, List.findIdx?_cons]

end Padding

section Publication
variable {s : State}

/-- What a successful ENC_FINISH leaves of a payload that PAYLOAD holds (R192). -/
def publishedState (s : State) : State :=
  completed { s with
    pack := Memory.overwrite s.pack (bytesOf (padded s.payload))
    packLen := BitVec.ofNat 32 ((padded s.payload).length / 8)
    pad := BitVec.ofNat 32 (padCount s.payload.length)
    payload := []
    enc := .idle }

theorem length_bytesOf_padded (p : List Bool) : (bytesOf (padded p)).length = p.length / 8 + 1 := by
  have hlen := length_padded p
  have := length_bytesOf (l := padded p) (by omega)
  omega

/-- A successful ENC_FINISH (R192): the bytes of a payload that PAYLOAD holds all fit in PACK. -/
theorem exec_encFinish_of_active (hp : s.phase = .coded) (henc : s.enc = .active)
    (hroom : s.payload.length ≤ payloadMax s.cfg) : exec .encFinish s = .next (publishedState s) := by
  have hfit : (bytesOf (padded s.payload)).length ≤ packDepth s.cfg := by
    have hdepth := padded_length_div_le hroom
    rwa [length_padded, Nat.mul_div_cancel_left _ (by decide), ← length_bytesOf_padded] at hdepth
  refine (if_neg (encode_open hp henc)).trans ?_
  rw [List.take_of_length_le hfit]
  rfl

/-- PACK_LEN of the published stream (R192). -/
theorem publishedState_packLen (hwf : s.cfg.wf = true) (hroom : s.payload.length ≤ payloadMax s.cfg) :
    (publishedState s).packLen.toNat = s.payload.length / 8 + 1 := by
  have hmax := payloadMax_lt hwf
  refine (BitVec.toNat_ofNat ..).trans ?_
  rw [length_padded, Nat.mul_div_cancel_left _ (by decide)]
  omega

/-- PAD of the published stream (R193). -/
theorem publishedState_pad (s : State) : (publishedState s).pad.toNat = padCount s.payload.length := by
  have hle := padCount_le s.payload.length
  exact (BitVec.toNat_ofNat ..).trans (Nat.mod_eq_of_lt (by omega))

/-- PACK holds the bytes of the padded payload, and past them what it held (R192, R194). -/
theorem packAt_publishedState (s : State) (i : Nat) :
    packAt (publishedState s) i = (bytesOf (padded s.payload)).getD i (packAt s i) := by
  refine (congrArg (Option.getD · _) (Memory.find_overwrite ..)).trans ?_
  split_ifs with hi
  · rw [List.getElem?_eq_getElem hi, List.getD_eq_getElem _ _ hi, Option.getD_some]
  · exact (List.getD_eq_default _ _ (not_lt.1 hi)).symm

/-- The published stream is the padded payload (R192, R194). -/
theorem streamBits_publishedState (s : State) :
    streamBits (publishedState s) (s.payload.length / 8 + 1) = padded s.payload := by
  have hlen := length_padded s.payload
  rw [← length_bytesOf_padded, streamBits_eq_flatMap fun i hi => by rw [packAt_publishedState, List.getD_eq_getElem],
    flatMap_bits8_bytesOf (by omega)]

/-- The bits of PACK are those of the padded payload, most significant bit first (R194). -/
theorem packAt_publishedState_getLsbD {i b : Nat} (hi : i < s.payload.length / 8 + 1) (hb : b < 8) :
    (packAt (publishedState s) i).getLsbD (7 - b) = (padded s.payload).getD (8 * i + b) false := by
  rw [← streamBits_getD _ hi hb, streamBits_publishedState]

/-- The padding in PACK[0], bit by bit from its end: the marker bit, and zeros above it (R196). -/
theorem packAt_publishedState_zero_getLsbD {b : Nat} (hb : 8 - padCount s.payload.length ≤ b) :
    (packAt (publishedState s) 0).getLsbD b = decide (b = 8 - padCount s.payload.length) := by
  have hpos := padCount_pos s.payload.length
  have hle := padCount_le s.payload.length
  rcases Nat.lt_or_ge b 8 with hlt | hge
  · have hbit := packAt_publishedState_getLsbD (s := s) (i := 0) (b := 7 - b) (Nat.succ_pos _) (by omega)
    rw [Nat.mul_zero, Nat.zero_add, padded_getD _ (by omega), Nat.sub_sub_self (by omega)] at hbit
    rw [hbit, decide_eq_decide]
    omega
  · rw [BitVec.getLsbD_of_ge _ _ hge, decide_eq_false (by omega)]

/-- Settles O49: the stream is the padded payload, read bit by bit. -/
theorem encFinishPublishesTheStream : Obligations.EncFinishPublishesTheStream := by
  refine fun s hwf => ⟨fun hp henc hroom => ?_, fun herr h => exec_of_not_allowed (encFinish_not_allowed h) herr⟩
  have hlen := publishedState_packLen hwf hroom
  refine ⟨_, exec_encFinish_of_active hp henc hroom, rfl, publishedState_pad s, hlen, fun i hi b hb => ?_,
    fun i hi => ?_⟩
  · rw [publishedState_pad]
    exact packAt_publishedState_getLsbD (hlen ▸ hi) hb
  · rw [packAt_publishedState, List.getD_eq_default _ _ (by rwa [length_bytesOf_padded, ← hlen])]

/-- Settles O50, by the shape of the padded payload, which is the published stream. -/
theorem publishedStreamIsSelfDescribing : Obligations.PublishedStreamIsSelfDescribing := by
  intro s t hwf hp henc hroom ht
  rw [exec_encFinish_of_active hp henc hroom] at ht
  cases ht
  rw [publishedState_packLen hwf hroom, publishedState_pad, streamBits_publishedState]
  refine ⟨rfl, ?_, padCount_pos _, padCount_le _, findIdx?_padded _, ?_, fun b hb => ?_, drop_padded _⟩
  · rw [padCount]
    omega
  · rw [packAt_publishedState_zero_getLsbD le_rfl, decide_eq_true rfl]
  · rw [packAt_publishedState_zero_getLsbD hb.le, decide_eq_false hb.ne']

end Publication

end Sys2Proof.Machine
end

section
/-! PROOFS. The unpacker: the padding that DECODE strips, its descent along the paths of the tree, its outcomes, and the
round trip through ENC_FINISH (45_unpack.md rules R210-R218). -/

namespace Sys2Proof.Machine

section PaddingRemoval

/-- The first 1 of a padded payload is the marker bit, which is among the first 8 bits (R212, R193). -/
theorem payloadStart_padded (p : List Bool) : payloadStart (padded p) = padCount p.length := by
  have hpos := padCount_pos p.length
  have hle := padCount_le p.length
  have hfirst : ((padded p).take 8).findIdx? (fun b => b) = some (padCount p.length - 1) := by
    rw [padded, List.take_append, List.take_of_length_le (by simp; omega)]
    simp [List.findIdx?_cons]
  rw [payloadStart, hfirst]
  exact Nat.sub_add_cancel hpos

/-- Settles O51: the payload starts where its padding ends. -/
theorem paddingRemovalUndoesPadding : Obligations.PaddingRemovalUndoesPadding := by
  intro p
  refine ⟨?_, payloadStart_padded p, ?_⟩
  · exact (congrArg (List.drop · (padded p)) (payloadStart_padded p)).trans (drop_padded p)
  · exact (congrArg (· % 8) (length_padded p)).trans (Nat.mul_mod_right ..)

end PaddingRemoval

section Descents
variable {node : Nat → Node} {root : Nat}

/-- No path goes from a leaf to an internal node. -/
theorem internal_of_follow {j k : Nat} {p : List Bool} (hp : follow node j p = some k) (hk : (node k).leaf = false) :
    (node j).leaf = false := by
  by_contra hleaf
  obtain rfl := eq_nil_of_follow_leaf (Bool.not_eq_false _ ▸ hleaf) hp
  exact hleaf (Option.some.inj hp ▸ hk)

/-- A descent along a path to an internal node emits nothing (R213). -/
theorem descend_append_internal {j k : Nat} {p : List Bool} (hp : follow node j p = some k)
    (hk : (node k).leaf = false) (bits : List Bool) (room : Nat) :
    descend node root (p ++ bits) j room = descend node root bits k room := by
  induction p generalizing j with
  | nil => cases hp; rfl
  | cons b p ih =>
    rw [follow] at hp
    split at hp
    · cases hp
    · simp only [List.cons_append, descend, internal_of_follow hp hk]
      exact ih hp

/-- A path to a leaf is a path to an internal node and one more bit, to a child of the node. -/
theorem exists_parent_of_follow {j k : Nat} {p : List Bool} (hne : p ≠ []) (hp : follow node j p = some k) :
    ∃ q b i, p = q ++ [b] ∧ follow node j q = some i ∧ (node i).leaf = false ∧
      (if b then (node i).right.toNat else (node i).left.toNat) = k := by
  obtain rfl | ⟨q, b, rfl⟩ := p.eq_nil_or_concat'
  · exact absurd rfl hne
  · rw [follow_append, Option.bind_eq_some_iff] at hp
    obtain ⟨i, hi, hlast⟩ := hp
    rw [follow] at hlast
    split at hlast
    · cases hlast
    · next hleaf => exact ⟨q, b, i, rfl, hi, Bool.not_eq_true _ ▸ hleaf, Option.some.inj hlast⟩

/-- A descent along a path to a leaf emits the leaf's symbol and goes on from ROOT, if OUT has room for the symbol
(R213, R215). -/
theorem descend_append_leaf {j k : Nat} {p : List Bool} (hne : p ≠ []) (hp : follow node j p = some k)
    (hk : (node k).leaf = true) (bits : List Bool) :
    descend node root (p ++ bits) j 0 = .full ∧
    ∀ room, descend node root (p ++ bits) j (room + 1) = (descend node root bits root room).cons (node k).sym := by
  obtain ⟨q, b, i, rfl, hq, hi, rfl⟩ := exists_parent_of_follow hne hp
  simp only [List.append_assoc, descend_append_internal hq hi, List.singleton_append, descend, hk, if_true, implies_true,
    and_self]

end Descents

section Paths
variable {s : State}

/-- The symbols that DECODE emits for the paths (R213). -/
def pathSymbols (s : State) (paths : List (List Bool × Nat)) : List Byte := paths.map fun e => (nodeAt s e.2).sym

theorem length_pathSymbols (s : State) (paths : List (List Bool × Nat)) :
    (pathSymbols s paths).length = paths.length := List.length_map ..

/-- A descent along paths from ROOT to leaves emits the leaves' symbols, before those of the bits after them (R213). -/
theorem descend_paths {paths : List (List Bool × Nat)} (hpaths : ∀ e ∈ paths, leadsTo s e.1 e.2) (bits : List Bool)
    (room : Nat) :
    descend (nodeAt s) s.root.toNat ((paths.map Prod.fst).flatten ++ bits) s.root.toNat (room + paths.length) =
      (pathSymbols s paths).foldr Descent.cons (descend (nodeAt s) s.root.toNat bits s.root.toNat room) := by
  induction paths with
  | nil => rfl
  | cons e paths ih =>
    obtain ⟨⟨hne, hfollow, hleaf⟩, hrest⟩ := List.forall_mem_cons.1 hpaths
    rw [List.map_cons, List.flatten_cons, List.append_assoc, List.length_cons, ← Nat.add_assoc,
      (descend_append_leaf hne hfollow hleaf _).2, ih hrest]
    rfl

theorem foldr_cons_ended (syms : List Byte) (cur : Nat) (out : List Byte) :
    syms.foldr Descent.cons (.ended cur out) = .ended cur (syms ++ out) := by
  induction syms with
  | nil => rfl
  | cons sym syms ih => rw [List.foldr_cons, ih]; rfl

theorem foldr_cons_full (syms : List Byte) : syms.foldr Descent.cons .full = .full := by
  induction syms with
  | nil => rfl
  | cons sym syms ih => rw [List.foldr_cons, ih]; rfl

/-- The bits after the paths emit nothing more: the descent ends where they lead (R213, R214). -/
theorem descend_paths_ended {paths : List (List Bool × Nat)} (hpaths : ∀ e ∈ paths, leadsTo s e.1 e.2) {room : Nat}
    (hroom : paths.length ≤ room) {rest : List Bool} {j : Nat}
    (hrest : descend (nodeAt s) s.root.toNat rest s.root.toNat (room - paths.length) = .ended j []) :
    descend (nodeAt s) s.root.toNat ((paths.map Prod.fst).flatten ++ rest) s.root.toNat room =
      .ended j (pathSymbols s paths) := by
  rw [← Nat.sub_add_cancel hroom, descend_paths hpaths, hrest, foldr_cons_ended, List.append_nil]

/-- One path more than OUT has room for (R215). -/
theorem descend_paths_full {paths : List (List Bool × Nat)} (hpaths : ∀ e ∈ paths, leadsTo s e.1 e.2) {room : Nat}
    (hlong : paths.length = room + 1) (rest : List Bool) :
    descend (nodeAt s) s.root.toNat ((paths.map Prod.fst).flatten ++ rest) s.root.toNat room = .full := by
  obtain rfl | ⟨init, last, rfl⟩ := paths.eq_nil_or_concat'
  · cases hlong
  · obtain ⟨hinit, hlast⟩ := List.forall_mem_append.1 hpaths
    obtain ⟨hne, hfollow, hleaf⟩ := hlast last (List.mem_singleton_self _)
    have hroom : room = 0 + init.length := by simpa using hlong.symm
    rw [hroom, List.map_append, List.flatten_append, List.append_assoc, descend_paths hinit]
    simp only [List.map_singleton, List.flatten_singleton, (descend_append_leaf hne hfollow hleaf rest).1,
      foldr_cons_full]

end Paths

section Decode
variable {s : State}

/-- What a DECODE that emits the symbols `syms` leaves (R216). -/
def decodedState (s : State) (syms : List Byte) : State :=
  completed { s with
    out := Memory.overwrite s.out syms
    outLen := BitVec.ofNat 32 syms.length
    pad := BitVec.ofNat 32 (payloadStart (streamBits s s.packLen.toNat)) }

/-- OUT holds the symbols, and past them what it held (R216). -/
theorem outAt_decodedState (s : State) (syms : List Byte) (k : Nat) :
    outAt (decodedState s syms) k = syms.getD k (outAt s k) := by
  refine (congrArg (Option.getD · _) (Memory.find_overwrite ..)).trans ?_
  split_ifs with hk
  · rw [List.getElem?_eq_getElem hk, List.getD_eq_getElem _ _ hk, Option.getD_some]
  · exact (List.getD_eq_default _ _ (not_lt.1 hk)).symm

/-- OUT_LEN is the number of the symbols, which OUT can hold (R8, R216). -/
theorem decodedState_outLen (hwf : s.cfg.wf = true) {syms : List Byte} (hroom : syms.length ≤ outDepth s.cfg) :
    (decodedState s syms).outLen.toNat = syms.length := by
  have hdepth : outDepth s.cfg ≤ 2 ^ 18 := Nat.pow_le_pow_right Nat.two_pos (log2_le_of_wf hwf).2
  exact (BitVec.toNat_ofNat ..).trans (Nat.mod_eq_of_lt (by omega))

/-- PAD is the number of the bits that were stripped (R212). -/
theorem decodedState_pad (s : State) (syms : List Byte) :
    (decodedState s syms).pad.toNat = payloadStart (streamBits s s.packLen.toNat) := by
  have hle := payloadStart_le (streamBits s s.packLen.toNat)
  exact (BitVec.toNat_ofNat ..).trans (Nat.mod_eq_of_lt (by omega))

variable (hp : s.phase = .built ∨ s.phase = .coded) (henc : s.enc = .idle)
include hp henc

/-- There is a tree and no encode is open: the first branch of DECODE is not taken (R27). -/
theorem decode_ready : ¬ ((s.phase ≠ .built ∧ s.phase ≠ .coded) ∨ s.enc ≠ .idle) := by
  rcases hp with hp | hp <;> simp [hp, henc]

/-- DECODE without a stream (R210). -/
theorem exec_decode_of_empty (hlen : s.packLen = 0) :
    exec .decode s = .next (raiseWith .malformedBitstream (encode .decode) failDecode s) :=
  (if_neg (decode_ready hp henc)).trans (if_pos hlen)

variable (hlen : s.packLen ≠ 0)
include hlen

/-- DECODE of more symbols than OUT has room for (R215). -/
theorem exec_decode_of_full
    (hend : descend (nodeAt s) s.root.toNat (payloadBits s) s.root.toNat (outDepth s.cfg) = .full) :
    exec .decode s = .next (raiseWith .capacity (encode .decode) failDecode s) := by
  refine (if_neg (decode_ready hp henc)).trans ((if_neg hlen).trans ?_)
  rw [← payloadBits, hend]

/-- DECODE of a payload that ends inside a codeword (R214). -/
theorem exec_decode_of_truncated {cur : Nat} {out : List Byte} (hcur : cur ≠ s.root.toNat)
    (hend : descend (nodeAt s) s.root.toNat (payloadBits s) s.root.toNat (outDepth s.cfg) = .ended cur out) :
    exec .decode s = .next (raiseWith .malformedBitstream (encode .decode) failDecode s) := by
  refine (if_neg (decode_ready hp henc)).trans ((if_neg hlen).trans ?_)
  rw [← payloadBits, hend]
  exact if_pos hcur

/-- A successful DECODE (R216). -/
theorem exec_decode_of_ended {out : List Byte}
    (hend : descend (nodeAt s) s.root.toNat (payloadBits s) s.root.toNat (outDepth s.cfg) =
      .ended s.root.toNat out) : exec .decode s = .next (decodedState s out) := by
  refine (if_neg (decode_ready hp henc)).trans ((if_neg hlen).trans ?_)
  rw [← payloadBits, hend]
  exact if_neg (not_not.2 rfl)

/-- A payload of paths from ROOT to leaves, whose symbols OUT has room for (R213, R216). -/
theorem exec_decode_of_paths {paths : List (List Bool × Nat)} (hpaths : ∀ e ∈ paths, leadsTo s e.1 e.2)
    (hpayload : payloadBits s = (paths.map Prod.fst).flatten) (hroom : paths.length ≤ outDepth s.cfg) :
    exec .decode s = .next (decodedState s (pathSymbols s paths)) := by
  have hend := descend_paths_ended hpaths hroom (rest := []) rfl
  rw [List.append_nil, ← hpayload] at hend
  exact exec_decode_of_ended hp henc hlen hend

end Decode

/-- A failed DECODE with no error recorded (R216). -/
theorem raiseWith_failDecode_of_unrecorded {s : State} (e : ErrCode) (info : Word) (herr : s.err = false) :
    raiseWith e info failDecode s = completed (outputFailed (withError e info s)) := by
  rw [raiseWith_eq, record_of_unrecorded e info herr, complete_eq_completed]
  rfl

/-- Settles O52: the descent emits one symbol a path and ends at ROOT. -/
theorem decodeEmitsTheLeavesOfThePaths : Obligations.DecodeEmitsTheLeavesOfThePaths := by
  intro s paths hwf hp henc hlen hpaths hpayload hroom
  have hcount := length_pathSymbols s paths
  refine ⟨_, exec_decode_of_paths hp henc hlen hpaths hpayload hroom, ?_, fun k e hk => ?_, fun k hk => ?_,
    decodedState_pad _ _, rfl⟩
  · rw [decodedState_outLen hwf (hcount ▸ hroom), hcount]
  · rw [outAt_decodedState, pathSymbols, List.getD_eq_getElem?_getD, List.getElem?_map, hk]
    rfl
  · rw [outAt_decodedState, List.getD_eq_default _ _ (hcount ▸ hk)]

/-- Settles O53: an empty stream, a descent that ends below ROOT, and one that meets a leaf when OUT is full. -/
theorem decodeFlagsMalformedAndOverlong : Obligations.DecodeFlagsMalformedAndOverlong := by
  intro s herr hp henc
  refine ⟨fun hlen => ?_, fun paths rest hlen hpaths hpayload => ⟨fun j hroom hj hinternal hne => ?_, fun hlong => ?_⟩,
    fun i => rfl⟩
  · rw [exec_decode_of_empty hp henc hlen, raiseWith_failDecode_of_unrecorded _ _ herr]
    rfl
  · have hrest := descend_append_internal (root := s.root.toNat) hj hinternal [] (outDepth s.cfg - paths.length)
    rw [List.append_nil] at hrest
    have hend := descend_paths_ended hpaths hroom hrest
    rw [← hpayload] at hend
    rw [exec_decode_of_truncated hp henc hlen hne hend, raiseWith_failDecode_of_unrecorded _ _ herr]
    rfl
  · have hend := descend_paths_full hpaths hlong rest
    rw [← hpayload] at hend
    rw [exec_decode_of_full hp henc hlen hend, raiseWith_failDecode_of_unrecorded _ _ herr]
    rfl

section RoundTrip
variable {s : State}

/-- The codeword of a valid entry leads from ROOT to a leaf of its symbol (R181). -/
theorem Inv.leadsTo_codeword (h : Inv s) (hp : s.phase = .coded) {x : Byte} (hx : (codeAt s x.toNat).valid = true) :
    ∃ k, leadsTo s (codeword (codeAt s x.toNat)) k ∧ (nodeAt s k).sym = x := by
  obtain ⟨e, he, hsym, hword⟩ := h.rootPath_of_valid hp hx
  refine ⟨e.1, hword ▸ h.leadsTo_rootPath hp he, ?_⟩
  rw [(h.sym_of_mem_rootPaths (.inr hp) he).2, BitVec.eq_of_toNat_eq hsym]

/-- The codewords of a text are the paths from ROOT to the leaves of its symbols (R181). -/
theorem Inv.exists_paths_of_text (h : Inv s) (hp : s.phase = .coded) {text : List Byte}
    (hvalid : ∀ x ∈ text, (codeAt s x.toNat).valid = true) :
    ∃ paths : List (List Bool × Nat), (∀ e ∈ paths, leadsTo s e.1 e.2) ∧
      (paths.map Prod.fst).flatten = text.flatMap (fun x => codeword (codeAt s x.toNat)) ∧
      pathSymbols s paths = text := by
  induction text with
  | nil => exact ⟨[], nofun, rfl, rfl⟩
  | cons x text ih =>
    obtain ⟨hx, htext⟩ := List.forall_mem_cons.1 hvalid
    obtain ⟨k, hleads, hsym⟩ := h.leadsTo_codeword hp hx
    obtain ⟨paths, hpaths, hbits, hsyms⟩ := ih htext
    refine ⟨(codeword (codeAt s x.toNat), k) :: paths, List.forall_mem_cons.2 ⟨hleads, hpaths⟩, ?_, ?_⟩
    · rw [List.map_cons, List.flatten_cons, hbits, List.flatMap_cons]
    · exact congrArg₂ List.cons hsym hsyms

/-- A published stream has at least the byte of the marker bit (R192). -/
theorem publishedState_packLen_ne_zero (hwf : s.cfg.wf = true) (hroom : s.payload.length ≤ payloadMax s.cfg) :
    (publishedState s).packLen ≠ 0 := by
  intro h0
  have hlen := publishedState_packLen hwf hroom
  rw [h0] at hlen
  exact Nat.succ_ne_zero _ hlen.symm

/-- The bits that DECODE strips from a published stream are those that ENC_FINISH put before the payload
(R193, R212). -/
theorem payloadStart_publishedState (hwf : s.cfg.wf = true) (hroom : s.payload.length ≤ payloadMax s.cfg) :
    payloadStart (streamBits (publishedState s) (publishedState s).packLen.toNat) = padCount s.payload.length := by
  rw [publishedState_packLen hwf hroom, streamBits_publishedState, payloadStart_padded]

/-- DECODE walks the payload that ENC_FINISH published (R212, R218). -/
theorem payloadBits_publishedState (hwf : s.cfg.wf = true) (hroom : s.payload.length ≤ payloadMax s.cfg) :
    payloadBits (publishedState s) = s.payload := by
  rw [payloadBits, payloadStart_publishedState hwf hroom, publishedState_packLen hwf hroom, streamBits_publishedState,
    drop_padded]

/-- DECODE of a published text (R217), in the tree that ENC_FINISH leaves as it was. -/
theorem Inv.exec_decode_publishedState (h : Inv s) (hp : s.phase = .coded) {text : List Byte}
    (hvalid : ∀ x ∈ text, (codeAt s x.toNat).valid = true)
    (hpayload : s.payload = text.flatMap fun x => codeword (codeAt s x.toNat)) (hfit : text.length ≤ outDepth s.cfg) :
    exec .decode (publishedState s) = .next (decodedState (publishedState s) text) := by
  have hwf := h.control.config
  have hroom := h.control.payload
  obtain ⟨paths, hpaths, hbits, rfl⟩ := h.exists_paths_of_text hp hvalid
  exact exec_decode_of_paths (s := publishedState s) (.inr hp) rfl (publishedState_packLen_ne_zero hwf hroom) hpaths
    (by rw [payloadBits_publishedState hwf hroom, hpayload, hbits]) (by rwa [length_pathSymbols] at hfit)

end RoundTrip

/-- Settles O54: DECODE of the published stream emits the text, and neither command records an error. -/
theorem encodeThenDecodeGivesTheText : Obligations.EncodeThenDecodeGivesTheText := by
  intro s text h hp henc hvalid hpayload hfit
  have hwf := h.control.config
  have hroom := h.control.payload
  refine ⟨_, _, exec_encFinish_of_active hp henc hroom, h.exec_decode_publishedState hp hvalid hpayload hfit, rfl,
    decodedState_outLen hwf hfit, BitVec.eq_of_toNat_eq ?_, fun k x hk => ?_⟩
  · rw [decodedState_pad, payloadStart_publishedState hwf hroom, publishedState_pad]
  · rw [outAt_decodedState, List.getD_eq_getElem?_getD, hk, Option.getD_some]

end Sys2Proof.Machine
end

section
/-! PROOFS. The error record: what a raise leaves, when the first error is kept, and when it is cleared
(60_exceptions.md rules R231-R240). -/

namespace Sys2Proof.Machine

section Raising
variable {s t : State} {i : Instr} {e : ErrCode} {effects : State → State}

/-- A command that ends with an error, from a state without one, raised SEQUENCE or an error past the phase check: it
recorded its word, performed the "On error" effects and completed (R234, R235). -/
theorem exec_raised (herr : s.err = false) (h : exec i s = .next t) (hterr : t.err = true) :
    ∃ e effects, (phaseAllows s i = false ∧ e = .sequence ∧ effects = id ∨ Raises s i e effects) ∧
      t = completed (effects (withError e (encode i) s)) := by
  obtain ⟨hp, rfl⟩ | ⟨-, ⟨e, effects, he, rfl⟩ | hs⟩ := exec_cases h
  · exact ⟨_, id, .inl ⟨hp, rfl, rfl⟩, raise_of_unrecorded _ _ herr⟩
  · refine ⟨e, effects, .inr he, ?_⟩
    rw [raiseWith_eq, record_of_unrecorded _ _ herr, complete_eq_completed]
  · have hclear : t.err = false := hs.err.elim (·.trans herr) id
    exact absurd hterr (by simp [hclear])

/-- Only ENC_SYM and DECODE have "On error" effects (44_pack.md rule R195, 45_unpack.md rule R216). -/
theorem Raises.effects_cases (h : Raises s i e effects) :
    effects = id ∨
    (∃ sym, i = .encSym sym ∧ (e = .unknownSymbol ∨ e = .capacity) ∧ effects = encodeAborted) ∨
    (i = .decode ∧ (e = .malformedBitstream ∨ e = .capacity) ∧ effects = outputFailed) := by
  cases h with
  | symbolRange | counterFull | emptyInput | totalOverflow | degenerateTree => exact .inl rfl
  | unknownSymbol => exact .inr (.inl ⟨_, rfl, .inl rfl, rfl⟩)
  | payloadFull => exact .inr (.inl ⟨_, rfl, .inr rfl, rfl⟩)
  | emptyStream | truncated => exact .inr (.inr ⟨rfl, .inl rfl, rfl⟩)
  | outputFull => exact .inr (.inr ⟨rfl, .inr rfl, rfl⟩)

/-- A write that records an error, from a state without one, was refused, and changed the record only (R237). -/
theorem HostWrites.raised {off : Offset} {v : Word} (h : HostWrites s off v t) (herr : s.err = false)
    (hterr : t.err = true) : t = withError t.errcode (off.zeroExtend 32) s := by
  cases h
  case refused e _ =>
    rw [refuseWrite, record_of_unrecorded _ _ herr]
    rfl
  all_goals exact absurd (herr.symm.trans hterr) Bool.false_ne_true

/-- Settles O26: a raise is the record, the listed effects and completion, and a refused write is the record. -/
theorem errorsArePrecise : Obligations.ErrorsArePrecise := by
  refine ⟨fun i s t herr h hterr => ?_, fun s off v herr => (hostWrite_cases off v s).raised herr⟩
  obtain ⟨e, effects, ⟨-, rfl, rfl⟩ | he, rfl⟩ := exec_raised herr h hterr
  · exact .inl rfl
  · obtain rfl | ⟨sym, rfl, hcode, rfl⟩ | ⟨rfl, hcode, rfl⟩ := he.effects_cases
    · exact .inl rfl
    · exact .inr (.inl ⟨sym, rfl, hcode, rfl⟩)
    · exact .inr (.inr ⟨rfl, hcode, rfl⟩)

/-- Every command that the command table restricts to some states lists SEQUENCE (R233, 10_state.md rule R27). -/
theorem sequence_mem_errorsOf (h : phaseAllows s i = false) : .sequence ∈ errorsOf i := by
  cases i with
  | nop | clear | ack => cases h
  | _ => exact List.mem_cons_self

/-- An error past the phase check is one that R233 lists for its command. -/
theorem Raises.mem_errorsOf (h : Raises s i e effects) : e ∈ errorsOf i := by
  cases h <;> simp [errorsOf]

/-- The "On error" effects keep the information word (R235). -/
theorem Raises.errinfo (h : Raises s i e effects) (u : State) : (effects u).errinfo = u.errinfo := by
  cases h <;> rfl

/-- Settles O27, over the errors that a command can raise. -/
theorem onlyListedErrorsAreRaised : Obligations.OnlyListedErrorsAreRaised := by
  intro i s t herr h hterr
  obtain ⟨e, effects, ⟨hp, rfl, rfl⟩ | he, rfl⟩ := exec_raised herr h hterr
  · exact ⟨sequence_mem_errorsOf hp, rfl⟩
  · obtain ⟨-, hcode, -⟩ := he.frame (withError e (encode i) s)
    exact ⟨hcode.symm ▸ he.mem_errorsOf, he.errinfo _⟩

end Raising

section RecordedErrors
variable {s t : State}

/-- The error recorded in `s` is still the one recorded in `t`. -/
def KeepsError (s t : State) : Prop := t.err = true ∧ t.errcode = s.errcode ∧ t.errinfo = s.errinfo

theorem KeepsError.refl (herr : s.err = true) : KeepsError s s := ⟨herr, rfl, rfl⟩

/-- A host write keeps the first error (R234). -/
theorem HostWrites.keepsError {off : Offset} {v : Word} (h : HostWrites s off v t) (herr : s.err = true) :
    KeepsError s t := by
  cases h
  case refused e _ =>
    rw [refuseWrite, record_of_recorded _ _ herr]
    exact .refl herr
  all_goals exact .refl herr

/-- With an error recorded, the engine's step keeps it, unless its word is CLEAR or ACK, which clear it (R240,
40_control.md rule R121). -/
theorem engineStep_of_recorded {w : Word} (herr : s.err = true) (h : engineStep w s = .next t) :
    KeepsError s t ∨
    (t.err = false ∧ t.errcode = .noError ∧ t.errinfo = 0) ∧ (w = 0x01000000 ∨ w = 0x02000000) := by
  by_cases hgate : passesGate w = true
  · obtain rfl | rfl | rfl := (passesGate_iff w).1 hgate
    · rw [engineStep_of_open (.inr hgate) (i := .nop) (by decide)] at h
      cases h
      exact .inl (.refl herr)
    · rw [engineStep_of_open (.inr hgate) (i := .clear) (by decide)] at h
      cases h
      exact .inr ⟨⟨rfl, rfl, rfl⟩, .inl rfl⟩
    · rw [engineStep_of_open (.inr hgate) (i := .ack) (by decide)] at h
      cases h
      exact .inr ⟨⟨rfl, rfl, rfl⟩, .inr rfl⟩
  · rw [engineStep_of_dropped herr (Bool.eq_false_iff.2 hgate)] at h
    cases h
    exact .inl (.refl herr)

/-- Settles O25, over what a step can do: only the engine's step of CLEAR or ACK and a reset event clear the record. -/
theorem firstErrorStaysUntilCleared : Obligations.FirstErrorStaysUntilCleared := by
  intro s t herr h
  obtain ⟨hturn, w, hw, hrun⟩ | ⟨-, rfl⟩ | rfl | ⟨off, rest, -, -, rfl⟩ | ⟨off, v, rest, -, -, rfl⟩ | ⟨rest, hs, rfl⟩ :=
    step_cases h
  · rw [turnTaken_eq] at hrun
    obtain hkept | ⟨hcleared, hword⟩ := engineStep_of_recorded (s := { s with script := (turnTaken s).script }) herr hrun
    · exact .inl hkept
    · rw [hw, Option.some_inj, Option.some_inj]
      exact .inr ⟨hcleared, .inl ⟨hturn, hword⟩⟩
  · rw [turnTaken_eq]
    exact .inl (KeepsError.refl herr)
  · exact .inl (KeepsError.refl herr)
  · exact .inl (KeepsError.refl herr)
  · exact .inl ((hostWrite_cases off v (dropTurn s)).keepsError herr)
  · exact .inr ⟨⟨rfl, rfl, rfl⟩, .inr (by rw [hs]; rfl)⟩

end RecordedErrors

/-- A CMD write is refused while a command is pending; as the first error it is recorded (R237). -/
theorem hostWrite_cmd_refused {s : State} (w : Word) (hbusy : busy s = true) (herr : s.err = false) :
    hostWrite 0x008 w s = withError .busyViolation 0x008 s := by
  rw [(cmdWriteIssuesOrIsRefused s w).2 hbusy, refusal, if_neg (by simp [herr])]
  rfl

/-- Settles O24: the write is refused since a word is pending, and the error it records makes the gate drop that word
(R237, R121). -/
theorem earlyCmdWriteLosesBothCommands : Obligations.EarlyCmdWriteLosesBothCommands := by
  intro s w w' rest hw herr hnop hclear hack hs
  refine ⟨withError .busyViolation 0x008 { s with script := .engine :: rest }, ?_, ?_⟩
  · have hbusy : busy { s with script := .engine :: rest } = true := by simp [busy, hw]
    rw [(stepPerformsHostAccesses s 0x008 w' (.engine :: rest) (by decide)).1 hs, hostWrite_cmd_refused w' hbusy herr]
  · refine ((engineStepGatesThenRuns _ ?_).1 w ?_).1 ?_ hnop hclear hack
    exacts [rfl, hw, rfl]

end Sys2Proof.Machine
end

section
/-! PROOFS. The reset event (70_reset_and_hazards.md rules R260, R261). -/

namespace Sys2Proof.Machine

section ResetEvent
variable (s : State)

/-- A turn of the reset input is a reset event. -/
theorem step_of_reset {rest : List Input} (hs : s.script = .reset :: rest) :
    step s = .next (resetEvent (dropTurn s)) := by
  rw [step_of_script hs, turn]

/-- STATUS is 0 after a reset event: idle, no DONE, no error, OPEN, no encode, nothing injected (R260). -/
theorem memRead_status_resetEvent : memRead (resetEvent s) 0x00C = 0 := by
  have hfields : statusWord (resetEvent s) = statusWord State.reset := rfl
  rw [memRead_status, hfields, ← memRead_status, statusReportsTheState.2]

theorem memRead_id : memRead s 0x000 = 0x48465331 := (registersReadAtTheirOffsets s).1

theorem memRead_param : memRead s 0x004 = paramWord s.cfg := memRead_control s (r := .param) (by decide) rfl

/-- The zeroed memories list nothing after a reset event, and an unlisted entry reads as zero (R260). -/
theorem entries_resetEvent (i : Nat) :
    freqAt (resetEvent s) i = 0 ∧ slistAt (resetEvent s) i = .zero ∧ codeAt (resetEvent s) i = .zero ∧
    nodeAt (resetEvent s) i = .zero :=
  ⟨rfl, rfl, rfl, rfl⟩

/-- PACK and OUT take the next two draws at a reset event (R261, log entry 1). -/
theorem bytes_resetEvent (i : Nat) :
    packAt (resetEvent s) i = Config.freeByte s.draws i ∧
    outAt (resetEvent s) i = Config.freeByte (s.draws + 1) i :=
  ⟨rfl, rfl⟩

/-- ID is constant and PARAM reports the configuration, which a reset event keeps (10_state.md rule R32). -/
theorem identity_resetEvent :
    memRead (resetEvent s) 0x000 = memRead s 0x000 ∧ memRead (resetEvent s) 0x004 = memRead s 0x004 := by
  have hcfg : (resetEvent s).cfg = s.cfg := rfl
  simp only [memRead_id, memRead_param, hcfg, and_self]

end ResetEvent

/-- Settles O30: the turn is a reset event, whose registers are `State.resetWith`'s; STATUS, the memories, and ID and
PARAM are the lemmas above. -/
theorem resetEventSetsEveryValue : Obligations.ResetEventSetsEveryValue := by
  intro s rest hs
  obtain ⟨hid, hparam⟩ := identity_resetEvent (dropTurn s)
  exact ⟨_, step_of_reset s hs, rfl, memRead_status_resetEvent _, rfl, rfl, rfl, rfl, rfl, rfl, rfl, rfl, rfl, rfl, rfl,
    rfl, rfl, rfl, entries_resetEvent _, bytes_resetEvent (dropTurn s), hid, hparam, rfl⟩

end Sys2Proof.Machine
end
